-- ==== Sys2Proof/Word.lean ====
section
/-! DEFINITION. The machine's words: the byte, the 16-bit word, and the two operation widths of
spec 30_encoding.md rule R93 with the values held at them. -/

namespace Sys2Proof

/-- The 8-bit unit of memory and of the R registers (R20, R60). -/
abbrev Byte := BitVec 8

/-- The 16-bit word: P registers, program counter, addresses, stack slots (R3, R21, R35). -/
abbrev Word := BitVec 16

/-- The 12-bit FLAGS word (R29). -/
abbrev FlagWord := BitVec 12

/-- The width `W`, 8 or 16 bits, at which an instruction computes (R12, R93). -/
inductive Width where
  | w8
  | w16
  deriving DecidableEq, Repr

/-- How many bits a width has. -/
abbrev Width.bits : Width → Nat
  | .w8 => 8
  | .w16 => 16

/-- A value held at an operation width. -/
abbrev Value (W : Width) := BitVec W.bits

end Sys2Proof
end

