-- ==== Sys2Proof/Config.lean ====
section
/-! DEFINITION. The parameters of spec 00_scope.md rule R3: the constants the spec fixes, the parameters
it leaves OPEN (carried in `Platform`), and the free values, which have no body. -/

namespace Sys2Proof

/-- `addr_policy` of R67: what happens to a data or stack address outside 0..0xFFFF. The spec's default
is `fault`; `wrap` is the alternative it lets a model offer (D8). -/
inductive AddrPolicy where
  | fault
  | wrap
  deriving DecidableEq, Repr

/-- One sub-range of the address space that a peripheral owns (R72): `size` addresses from `base` up. -/
structure MmioRange where
  base : Word
  size : Nat
  deriving DecidableEq, Repr

/-- The parameters that R3 leaves OPEN, or fixes only by default, and that the step reads: the width of VX
and VY (R25), the peripheral-owned addresses `mmio` (R72) and `addr_policy` (R67). No step changes them;
every statement about every state therefore holds for every value of them (assumption 1). -/
structure Platform where
  vregWidth  : Width
  mmio       : List MmioRange
  addrPolicy : AddrPolicy
  deriving DecidableEq, Repr

/-- One access of the CORE to a peripheral-owned address, as the peripheral sees it (R72). -/
inductive BusEvent where
  | read  (a : Word)
  | write (a : Word) (v : Byte)
  deriving DecidableEq, Repr

/-- FREE VALUE (assumption 2). The byte a peripheral answers a read of the peripheral-owned address `a`
with, after the accesses `history` (R72: "a byte the owning peripheral chooses, as a free input of the step").
It has no body: nothing can be proved of its value. -/
opaque Config.peripheralByte (history : List BusEvent) (a : Word) : Byte

/-- `sp_reset` of R3: the reset value of SP and FP (R43, R271). -/
def Config.spReset : Word := 0xFFFF

/-- DESIGN CHOICE (assumption 3, unsafe): the PC that `State.reset` holds. R273 leaves `reset_pc` OPEN, a
parameter of the host; 0x0200 is the value the examples of 95_test_vectors.md pass. -/
def Config.resetPc : Word := 0x0200

/-- DESIGN CHOICE (assumption 1): the parameters `State.reset` holds. VX and VY are 16 bits wide, no address
belongs to a peripheral, and `addr_policy` is the spec's default. -/
def Config.resetPlatform : Platform :=
  { vregWidth := .w16, mmio := [], addrPolicy := .fault }

/-- Where the interrupt vector table begins (R73). -/
def Config.vectorBase : Nat := 0x0100

end Sys2Proof
end

