-- ==== Sys2Proof/Syntax.lean ====
section
/-! DEFINITION. The abstract syntax: registers (R86), operands (R87 to R90), the mnemonics (R81, R102) and
`Instr`, one constructor for each row of spec/opcode_table.json, in the table's order. The operand kinds of
R96 are types (`Dst` is the rule's `D`, `Operand` its `S`, `Target` its `T`, `Reg` its `R`), so that no
instruction can hold an operand of an illegal kind. -/

namespace Sys2Proof

/-- The registers that have a register code (R86). -/
inductive Reg where
  | r  (n : Fin 10)   -- the 8-bit register Rn
  | p  (n : Fin 10)   -- the 16-bit register Pn (P8 is SP, P9 is FP: R22)
  | vx                -- VX (R25)
  | vy                -- VY (R25)
  | ph (n : Fin 10)   -- PnH, the high byte of Pn (R23)
  | pl (n : Fin 10)   -- PnL, the low byte of Pn (R23)
  deriving DecidableEq, Repr

/-- SP is another name for P8 (R22). -/
abbrev Reg.sp : Reg := .p 8

/-- FP is another name for P9 (R22). -/
abbrev Reg.fp : Reg := .p 9

/-- The three memory forms of R90. -/
inductive MemRef where
  | direct   (a : Word)
  | indirect (c : Reg)
  | indexed  (c : Reg) (d : Byte)
  deriving DecidableEq, Repr

/-- An operand of any kind: `S` of R96. -/
inductive Operand where
  | reg   (c : Reg)
  | imm8  (b : Byte)
  | imm16 (v : Word)
  | mem   (m : MemRef)
  deriving DecidableEq, Repr

/-- A destination operand: `D` of R96. -/
inductive Dst where
  | reg (c : Reg)
  | mem (m : MemRef)
  deriving DecidableEq, Repr

/-- A jump or call target: `T` of R96. -/
inductive Target where
  | reg   (c : Reg)
  | imm16 (v : Word)
  | mem   (m : MemRef)
  deriving DecidableEq, Repr

/-- A destination as an operand. -/
def Dst.toOperand : Dst → Operand
  | .reg c => .reg c
  | .mem m => .mem m

/-- A target as an operand. -/
def Target.toOperand : Target → Operand
  | .reg c => .reg c
  | .imm16 v => .imm16 v
  | .mem m => .mem m

/-- The 45 mnemonics of R81 and R102. -/
inductive Mnemonic where
  | hlt | nop | ret | iret | pusha | popa | pushf | popf | sti | cli | std | cld
  | mov | add | sub | mul | div | inc | dec | cmp | and | or | xor | not
  | shl | shr | rol | ror | btst | bset | bclr | bflip
  | jmp | jz | jnz | jc | jnc | js | jns | jo | jno | call | push | pop | int
  deriving DecidableEq, Repr

/-- The instructions, with the operand kinds of R96. -/
inductive Instr where
  | hlt
  | nop
  | ret
  | iret
  | pusha
  | popa
  | pushf
  | popf
  | sti
  | cli
  | std
  | cld
  | mov (d : Dst) (x : Operand)
  | add (d : Dst) (x : Operand)
  | sub (d : Dst) (x : Operand)
  | mul (d : Dst) (x : Operand)
  | div (d : Dst) (x : Operand)
  | inc (d : Dst)
  | dec (d : Dst)
  | cmp (a : Operand) (x : Operand)
  | and (d : Dst) (x : Operand)
  | or  (d : Dst) (x : Operand)
  | xor (d : Dst) (x : Operand)
  | not (d : Dst)
  | shl (d : Dst) (x : Operand)
  | shr (d : Dst) (x : Operand)
  | rol (d : Dst) (x : Operand)
  | ror (d : Dst) (x : Operand)
  | btst (a : Operand) (x : Operand)
  | bset (d : Dst) (x : Operand)
  | bclr (d : Dst) (x : Operand)
  | bflip (d : Dst) (x : Operand)
  | jmp (t : Target)
  | jz (t : Target)
  | jnz (t : Target)
  | jc (t : Target)
  | jnc (t : Target)
  | js (t : Target)
  | jns (t : Target)
  | jo (t : Target)
  | jno (t : Target)
  | call (t : Target)
  | push (c : Reg)
  | pop (c : Reg)
  | int (n : Byte)
  deriving DecidableEq, Repr

end Sys2Proof
end

