-- ==== Sys2Proof/WellFormed.lean ====
section
/-! DEFINITION. The one check on an instruction that its type does not already make: the vector of INT is
0 to 7 (R96, rule `N`). The operand kinds of R96 hold by the types of Sys2Proof/Syntax.lean. -/

namespace Sys2Proof

/-- An instruction that has an encoding: INT's vector is at most 7 (R96). -/
def Instr.wf : Instr → Bool
  | .hlt => true
  | .nop => true
  | .ret => true
  | .iret => true
  | .pusha => true
  | .popa => true
  | .pushf => true
  | .popf => true
  | .sti => true
  | .cli => true
  | .std => true
  | .cld => true
  | .mov _ _ => true
  | .add _ _ => true
  | .sub _ _ => true
  | .mul _ _ => true
  | .div _ _ => true
  | .inc _ => true
  | .dec _ => true
  | .cmp _ _ => true
  | .and _ _ => true
  | .or _ _ => true
  | .xor _ _ => true
  | .not _ => true
  | .shl _ _ => true
  | .shr _ _ => true
  | .rol _ _ => true
  | .ror _ _ => true
  | .btst _ _ => true
  | .bset _ _ => true
  | .bclr _ _ => true
  | .bflip _ _ => true
  | .jmp _ => true
  | .jz _ => true
  | .jnz _ => true
  | .jc _ => true
  | .jnc _ => true
  | .js _ => true
  | .jns _ => true
  | .jo _ => true
  | .jno _ => true
  | .call _ => true
  | .push _ => true
  | .pop _ => true
  | .int n => n.toNat ≤ 7

end Sys2Proof
end

