-- ==== Sys2Proof/Decode.lean ====
section
/-! DEFINITION. Decoding (R80 to R105) and, after it, the encoder, both read from the same tables: the
register codes of R86, the mode byte of R82 to R85, the operand fields of R87 to R90 and the opcode map of
R102. Decoding is total: it gives an instruction and its length, or the sub-kind of DecodeFault of R97. -/

namespace Sys2Proof

/-! ## The opcode map (R102), the spec's default (assumption 16) -/

/-- R102, the operand-less instructions 0x00 to 0x0B. -/
def opcodeRowsPlain : List (Byte × Mnemonic) :=
  [(0x00, .hlt), (0x01, .nop), (0x02, .ret), (0x03, .iret), (0x04, .pusha), (0x05, .popa),
    (0x06, .pushf), (0x07, .popf), (0x08, .sti), (0x09, .cli), (0x0A, .std), (0x0B, .cld)]

/-- R102, rows 0x10 to 0x17. -/
def opcodeRowsAlu : List (Byte × Mnemonic) :=
  [(0x10, .mov), (0x11, .add), (0x12, .sub), (0x13, .mul), (0x14, .div), (0x15, .inc), (0x16, .dec),
    (0x17, .cmp)]

/-- R102, rows 0x18 to 0x23. -/
def opcodeRowsShiftBit : List (Byte × Mnemonic) :=
  [(0x18, .and), (0x19, .or), (0x1A, .xor), (0x1B, .not), (0x1C, .shl), (0x1D, .shr), (0x1E, .rol),
    (0x1F, .ror), (0x20, .btst), (0x21, .bset), (0x22, .bclr), (0x23, .bflip)]

/-- R102, rows 0x30 to 0x3C. -/
def opcodeRowsControl : List (Byte × Mnemonic) :=
  [(0x30, .jmp), (0x31, .jz), (0x32, .jnz), (0x33, .jc), (0x34, .jnc), (0x35, .js), (0x36, .jns),
    (0x37, .jo), (0x38, .jno), (0x39, .call), (0x3A, .push), (0x3B, .pop), (0x3C, .int)]

/-- The opcode map of R102, row by row: the default value of the spec's table `opcode_map` (D1). -/
def opcodeMap : List (Byte × Mnemonic) :=
  opcodeRowsPlain ++ opcodeRowsAlu ++ opcodeRowsShiftBit ++ opcodeRowsControl

/-- The mnemonic of an opcode byte, none for the illegal bytes of R103. -/
def mnemonicOf (op : Byte) : Option Mnemonic :=
  opcodeMap.lookup op

/-- The opcode byte of a mnemonic: the row of R102 that names it (0 for none; R102 names all). -/
def opcodeOf (m : Mnemonic) : Byte :=
  ((opcodeMap.find? fun row => row.2 == m).map Prod.fst).getD 0

/-! ## Register codes (R86) -/

/-- The register code of a register (R86). -/
def Reg.code : Reg → Byte
  | .ph n => BitVec.ofNat 8 (0x95 + n.val)
  | .pl n => BitVec.ofNat 8 (0x9F + n.val)
  | .r n => BitVec.ofNat 8 (0xA9 + n.val)
  | .p n => BitVec.ofNat 8 (0xB3 + n.val)
  | .vx => 0xBD
  | .vy => 0xBE

/-- The register a byte names, none for a byte outside `REG` = 0x95..0xBE (R86). -/
def Reg.ofCode (c : Byte) : Option Reg :=
  if h : 0x95 ≤ c.toNat ∧ c.toNat < 0x9F then some (.ph ⟨c.toNat - 0x95, by omega⟩)
  else if h : 0x9F ≤ c.toNat ∧ c.toNat < 0xA9 then some (.pl ⟨c.toNat - 0x9F, by omega⟩)
  else if h : 0xA9 ≤ c.toNat ∧ c.toNat < 0xB3 then some (.r ⟨c.toNat - 0xA9, by omega⟩)
  else if h : 0xB3 ≤ c.toNat ∧ c.toNat < 0xBD then some (.p ⟨c.toNat - 0xB3, by omega⟩)
  else if c = 0xBD then some .vx
  else if c = 0xBE then some .vy
  else none

/-! ## The mode byte (R82 to R85) -/

/-- What a mode field `m_k` with its form bit `x_k` selects (R83, R84). -/
inductive Kind where
  | reg      -- m = 00: register direct
  | imm8     -- m = 01: immediate-8
  | imm16    -- m = 10: immediate-16
  | direct   -- m = 11, x = 0: direct memory
  | byReg    -- m = 11, x = 1: register-based memory
  deriving DecidableEq, Repr

/-- The kind a mode field and its form bit select; none where the form bit stands without memory (R84). -/
def kindOf (m : BitVec 2) (x : Bool) : Option Kind :=
  if m = 0 then (if x then none else some .reg)
  else if m = 1 then (if x then none else some .imm8)
  else if m = 2 then (if x then none else some .imm16)
  else (if x then some .byReg else some .direct)

/-- The mode field `m_k` of a kind (R83). -/
def Kind.mode : Kind → Byte
  | .reg => 0
  | .imm8 => 1
  | .imm16 => 2
  | .direct => 3
  | .byReg => 3

/-- The form bit `x_k` of a kind (R84), as 0 or 1. -/
def Kind.form : Kind → Byte
  | .byReg => 1
  | .reg => 0
  | .imm8 => 0
  | .imm16 => 0
  | .direct => 0

/-- `m1`, bits 1:0 of the mode byte (R82). -/
def modeM1 (mode : Byte) : BitVec 2 := mode.extractLsb' 0 2
/-- `m2`, bits 3:2 of the mode byte (R82). -/
def modeM2 (mode : Byte) : BitVec 2 := mode.extractLsb' 2 2
/-- `m3`, bits 5:4 of the mode byte (R82). -/
def modeM3 (mode : Byte) : BitVec 2 := mode.extractLsb' 4 2
/-- `x1`, bit 6 of the mode byte (R82). -/
def modeX1 (mode : Byte) : Bool := mode.getLsbD 6
/-- `x2`, bit 7 of the mode byte (R82). -/
def modeX2 (mode : Byte) : Bool := mode.getLsbD 7

/-! ## Operand fields (R87 to R90) -/

/-- What reading one operand field gives: the operand and its length in bytes, or a first byte that is no
register code. -/
inductive Field where
  | ok (o : Operand) (len : Nat)
  | bad
  deriving DecidableEq, Repr

/-- Reads the operand field of kind `k` at offset `off` of the instruction bytes `b` (R87, R88, R90). -/
def readField (k : Kind) (b : Nat → Byte) (off : Nat) : Field :=
  match k with
  | .reg =>
    match Reg.ofCode (b off) with
    | some c => .ok (.reg c) 1
    | none => .bad
  | .imm8 => .ok (.imm8 (b off)) 1
  | .imm16 => .ok (.imm16 (b off ++ b (off + 1))) 2
  | .direct => .ok (.mem (.direct (b off ++ b (off + 1)))) 2
  | .byReg =>
    match Reg.ofCode (b off) with
    | some c => .ok (.mem (.indirect c)) 1
    | none =>
      match Reg.ofCode (b off - 0x40) with
      | some c => .ok (.mem (.indexed c (b (off + 1)))) 2
      | none => .bad

/-! ## Operand legality (R96) -/

/-- `D` of R96: `Reg` or `Mem`. -/
def Kind.isDst : Kind → Bool
  | .reg => true
  | .direct => true
  | .byReg => true
  | .imm8 => false
  | .imm16 => false

/-- `S` of R96: any kind. -/
def Kind.isSrc : Kind → Bool := fun _ => true

/-- `T` of R96: `Reg`, `Imm16` or `Mem`. -/
def Kind.isTarget : Kind → Bool
  | .reg => true
  | .imm16 => true
  | .direct => true
  | .byReg => true
  | .imm8 => false

/-- `R` of R96: `Reg` only. -/
def Kind.isReg : Kind → Bool
  | .reg => true
  | .imm8 => false
  | .imm16 => false
  | .direct => false
  | .byReg => false

/-- `N` of R96: `Imm8` only (its value is checked after the field is read). -/
def Kind.isVector : Kind → Bool
  | .imm8 => true
  | .reg => false
  | .imm16 => false
  | .direct => false
  | .byReg => false

/-- An operand as a destination. -/
def Operand.toDst? : Operand → Option Dst
  | .reg c => some (.reg c)
  | .mem m => some (.mem m)
  | .imm8 _ => none
  | .imm16 _ => none

/-- An operand as a target. -/
def Operand.toTarget? : Operand → Option Target
  | .reg c => some (.reg c)
  | .imm16 v => some (.imm16 v)
  | .mem m => some (.mem m)
  | .imm8 _ => none

/-- An operand as a register. -/
def Operand.toReg? : Operand → Option Reg
  | .reg c => some c
  | .imm8 _ => none
  | .imm16 _ => none
  | .mem _ => none

/-- An operand as an 8-bit immediate. -/
def Operand.toImm8? : Operand → Option Byte
  | .imm8 b => some b
  | .reg _ => none
  | .imm16 _ => none
  | .mem _ => none

/-- How many operands an instruction has and of which kinds (R81, R96), with the instruction they make. -/
inductive Shape where
  | plain  (i : Instr)
  | dst    (mk : Dst → Instr)
  | target (mk : Target → Instr)
  | reg    (mk : Reg → Instr)
  | vector (mk : Byte → Instr)
  | dstSrc (mk : Dst → Operand → Instr)
  | srcSrc (mk : Operand → Operand → Instr)

/-- The operand count and kinds of each mnemonic: the tables of R81 and R96. -/
def Mnemonic.shape : Mnemonic → Shape
  | .hlt => .plain .hlt
  | .nop => .plain .nop
  | .ret => .plain .ret
  | .iret => .plain .iret
  | .pusha => .plain .pusha
  | .popa => .plain .popa
  | .pushf => .plain .pushf
  | .popf => .plain .popf
  | .sti => .plain .sti
  | .cli => .plain .cli
  | .std => .plain .std
  | .cld => .plain .cld
  | .mov => .dstSrc .mov
  | .add => .dstSrc .add
  | .sub => .dstSrc .sub
  | .mul => .dstSrc .mul
  | .div => .dstSrc .div
  | .inc => .dst .inc
  | .dec => .dst .dec
  | .cmp => .srcSrc .cmp
  | .and => .dstSrc .and
  | .or => .dstSrc .or
  | .xor => .dstSrc .xor
  | .not => .dst .not
  | .shl => .dstSrc .shl
  | .shr => .dstSrc .shr
  | .rol => .dstSrc .rol
  | .ror => .dstSrc .ror
  | .btst => .srcSrc .btst
  | .bset => .dstSrc .bset
  | .bclr => .dstSrc .bclr
  | .bflip => .dstSrc .bflip
  | .jmp => .target .jmp
  | .jz => .target .jz
  | .jnz => .target .jnz
  | .jc => .target .jc
  | .jnc => .target .jnc
  | .js => .target .js
  | .jns => .target .jns
  | .jo => .target .jo
  | .jno => .target .jno
  | .call => .target .call
  | .push => .reg .push
  | .pop => .reg .pop
  | .int => .vector .int

/-! ## Decoding (R97, R105) -/

/-- The sub-kinds of DecodeFault (R97, R240), each raised by decode alone. -/
inductive DecodeSub where
  | unknownOpcode     -- 1.1: byte 0 is not an opcode of the map
  | badModeByte       -- 1.2: an unused field or bit is nonzero, or a form bit stands without memory
  | badOperandForm    -- 1.3: an operand's kind is not legal for the mnemonic
  | badRegisterCode   -- 1.4: a register field, or a register-based memory field, holds no register code
  | badVector         -- 1.5: the INT vector is above 7
  deriving DecidableEq, Repr

/-- What decoding gives: an instruction and its length in bytes, or a decode fault with how many bytes had
been fetched and the operands already read in full (an indexed one among them may raise its AddressFault
first: R105, R248). -/
inductive Decoded where
  | ok  (i : Instr) (len : Nat)
  | bad (sub : DecodeSub) (len : Nat) (before : List Operand)
  deriving DecidableEq, Repr

/-- Decodes the operand of a one-operand instruction; the checks run in the order of R105. -/
def decodeOne (b : Nat → Byte) (legal : Kind → Bool) (mk : Operand → Except DecodeSub Instr) : Decoded :=
  if modeM2 (b 1) ≠ 0 ∨ modeM3 (b 1) ≠ 0 ∨ modeX2 (b 1) = true then .bad .badModeByte 2 []
  else
    match kindOf (modeM1 (b 1)) (modeX1 (b 1)) with
    | none => .bad .badModeByte 2 []
    | some k =>
      if legal k then
        match readField k b 2 with
        | .bad => .bad .badRegisterCode 3 []
        | .ok o n =>
          match mk o with
          | .ok i => .ok i (2 + n)
          | .error e => .bad e (2 + n) [o]
      else .bad .badOperandForm 2 []

/-- Decodes the operands of a two-operand instruction; the checks run in the order of R105. -/
def decodeTwo (b : Nat → Byte) (legal1 legal2 : Kind → Bool)
    (mk : Operand → Operand → Except DecodeSub Instr) : Decoded :=
  if modeM3 (b 1) ≠ 0 then .bad .badModeByte 2 []
  else
    match kindOf (modeM1 (b 1)) (modeX1 (b 1)), kindOf (modeM2 (b 1)) (modeX2 (b 1)) with
    | some k1, some k2 =>
      if legal1 k1 && legal2 k2 then
        match readField k1 b 2 with
        | .bad => .bad .badRegisterCode 3 []
        | .ok o1 n1 =>
          match readField k2 b (2 + n1) with
          | .bad => .bad .badRegisterCode (2 + n1 + 1) [o1]
          | .ok o2 n2 =>
            match mk o1 o2 with
            | .ok i => .ok i (2 + n1 + n2)
            | .error e => .bad e (2 + n1 + n2) [o1, o2]
      else .bad .badOperandForm 2 []
    | _, _ => .bad .badModeByte 2 []

/-- An operand that was asked for, or BadOperandForm (R96). -/
def formOr {α : Type} (x : Option α) (mk : α → Instr) : Except DecodeSub Instr :=
  match x with
  | some a => .ok (mk a)
  | none => .error .badOperandForm

/-- The vector check of INT (R96, R105): above 7 is BadVector. -/
def vectorOr (x : Option Byte) (mk : Byte → Instr) : Except DecodeSub Instr :=
  match x with
  | some n => if n.toNat ≤ 7 then .ok (mk n) else .error .badVector
  | none => .error .badOperandForm

/-- Decode, rule R105 in full: the instruction whose bytes are `b 0`, `b 1`, … -/
def decode (b : Nat → Byte) : Decoded :=
  match mnemonicOf (b 0) with
  | none => .bad .unknownOpcode 1 []
  | some mn =>
    match mn.shape with
    | .plain i => .ok i 1
    | .dst mk => decodeOne b Kind.isDst fun o => formOr o.toDst? mk
    | .target mk => decodeOne b Kind.isTarget fun o => formOr o.toTarget? mk
    | .reg mk => decodeOne b Kind.isReg fun o => formOr o.toReg? mk
    | .vector mk => decodeOne b Kind.isVector fun o => vectorOr o.toImm8? mk
    | .dstSrc mk => decodeTwo b Kind.isDst Kind.isSrc fun o1 o2 => formOr o1.toDst? fun d => mk d o2
    | .srcSrc mk => decodeTwo b Kind.isSrc Kind.isSrc fun o1 o2 => .ok (mk o1 o2)

/-- The bytes of a list, zero after its end. -/
def bytesOf (l : List Byte) : Nat → Byte :=
  fun k => l.getD k 0

/-- Decodes the instruction at the head of a list of bytes (zero after its end). -/
def decodeBytes (l : List Byte) : Decoded :=
  decode (bytesOf l)

/-! ## The encoder (R80, R82, R99) -/

/-- The mnemonic of an instruction. -/
def Instr.mnemonic : Instr → Mnemonic
  | .hlt => .hlt
  | .nop => .nop
  | .ret => .ret
  | .iret => .iret
  | .pusha => .pusha
  | .popa => .popa
  | .pushf => .pushf
  | .popf => .popf
  | .sti => .sti
  | .cli => .cli
  | .std => .std
  | .cld => .cld
  | .mov _ _ => .mov
  | .add _ _ => .add
  | .sub _ _ => .sub
  | .mul _ _ => .mul
  | .div _ _ => .div
  | .inc _ => .inc
  | .dec _ => .dec
  | .cmp _ _ => .cmp
  | .and _ _ => .and
  | .or _ _ => .or
  | .xor _ _ => .xor
  | .not _ => .not
  | .shl _ _ => .shl
  | .shr _ _ => .shr
  | .rol _ _ => .rol
  | .ror _ _ => .ror
  | .btst _ _ => .btst
  | .bset _ _ => .bset
  | .bclr _ _ => .bclr
  | .bflip _ _ => .bflip
  | .jmp _ => .jmp
  | .jz _ => .jz
  | .jnz _ => .jnz
  | .jc _ => .jc
  | .jnc _ => .jnc
  | .js _ => .js
  | .jns _ => .jns
  | .jo _ => .jo
  | .jno _ => .jno
  | .call _ => .call
  | .push _ => .push
  | .pop _ => .pop
  | .int _ => .int

/-- The operands of an instruction, in operand order (R81, R92). -/
def Instr.operands : Instr → List Operand
  | .hlt => []
  | .nop => []
  | .ret => []
  | .iret => []
  | .pusha => []
  | .popa => []
  | .pushf => []
  | .popf => []
  | .sti => []
  | .cli => []
  | .std => []
  | .cld => []
  | .mov d x => [d.toOperand, x]
  | .add d x => [d.toOperand, x]
  | .sub d x => [d.toOperand, x]
  | .mul d x => [d.toOperand, x]
  | .div d x => [d.toOperand, x]
  | .inc d => [d.toOperand]
  | .dec d => [d.toOperand]
  | .cmp a x => [a, x]
  | .and d x => [d.toOperand, x]
  | .or d x => [d.toOperand, x]
  | .xor d x => [d.toOperand, x]
  | .not d => [d.toOperand]
  | .shl d x => [d.toOperand, x]
  | .shr d x => [d.toOperand, x]
  | .rol d x => [d.toOperand, x]
  | .ror d x => [d.toOperand, x]
  | .btst a x => [a, x]
  | .bset d x => [d.toOperand, x]
  | .bclr d x => [d.toOperand, x]
  | .bflip d x => [d.toOperand, x]
  | .jmp t => [t.toOperand]
  | .jz t => [t.toOperand]
  | .jnz t => [t.toOperand]
  | .jc t => [t.toOperand]
  | .jnc t => [t.toOperand]
  | .js t => [t.toOperand]
  | .jns t => [t.toOperand]
  | .jo t => [t.toOperand]
  | .jno t => [t.toOperand]
  | .call t => [t.toOperand]
  | .push c => [.reg c]
  | .pop c => [.reg c]
  | .int n => [.imm8 n]

/-- The kind by which the mode byte names an operand (R83, R84). -/
def Operand.kind : Operand → Kind
  | .reg _ => .reg
  | .imm8 _ => .imm8
  | .imm16 _ => .imm16
  | .mem (.direct _) => .direct
  | .mem (.indirect _) => .byReg
  | .mem (.indexed _ _) => .byReg

/-- The high byte of a word: the first of its two bytes in the instruction stream and in memory (R79). -/
def hiByte (v : Word) : Byte := v.extractLsb' 8 8

/-- The low byte of a word: the second of its two bytes (R79). -/
def loByte (v : Word) : Byte := v.extractLsb' 0 8

/-- The field of an operand (R87, R88, R90): multi-byte values most significant byte first (R79). -/
def Operand.field : Operand → List Byte
  | .reg c => [c.code]
  | .imm8 b => [b]
  | .imm16 v => [hiByte v, loByte v]
  | .mem (.direct a) => [hiByte a, loByte a]
  | .mem (.indirect c) => [c.code]
  | .mem (.indexed c d) => [c.code + 0x40, d]

/-- `flen` of R99. -/
def Operand.fieldLen : Operand → Nat
  | .reg _ => 1
  | .imm8 _ => 1
  | .imm16 _ => 2
  | .mem (.direct _) => 2
  | .mem (.indirect _) => 1
  | .mem (.indexed _ _) => 2

/-- The mode byte of an operand list (R82, R85): unused fields and bits are zero. -/
def modeByte : List Operand → Byte
  | [] => 0
  | [o] => o.kind.mode ||| (o.kind.form <<< 6)
  | o1 :: o2 :: _ => o1.kind.mode ||| (o2.kind.mode <<< 2) ||| (o1.kind.form <<< 6) ||| (o2.kind.form <<< 7)

/-- The instruction bytes of R80: the opcode, then the mode byte and the fields where there are operands. -/
def encode (i : Instr) : List Byte :=
  match i.operands with
  | [] => [opcodeOf i.mnemonic]
  | o :: os => opcodeOf i.mnemonic :: modeByte (o :: os) :: (o :: os).flatMap Operand.field

/-- The length in bytes (R99). -/
def Instr.length (i : Instr) : Nat :=
  match i.operands with
  | [] => 1
  | o :: os => 2 + ((o :: os).map Operand.fieldLen).sum

/-! ## The opcode table's words -/

/-- How many bytes the longest instruction has (R80, R99). -/
def maxLength : Nat := 6

/-- The six bytes of an instruction whose bits are `w`, numbered as spec/opcode_table.json numbers them: bit 0
is the least significant bit of the first byte, and every bit from `nbits` up is 0 (assumption 17). -/
def tableBytes (nbits w : Nat) : List Byte :=
  (List.range maxLength).map fun k => BitVec.ofNat 8 ((w % 2 ^ nbits) >>> (8 * k))

/-- The instruction the decoder reads from the bits `w` of a table row `nbits` wide, none where it refuses. -/
def decodeTableWord (nbits w : Nat) : Option Instr :=
  match decodeBytes (tableBytes nbits w) with
  | .ok i _ => some i
  | .bad _ _ _ => none

end Sys2Proof
end

