-- ==== Sys2Proof/Machine/State.lean ====
section
/-! DEFINITION. The state of the machine (spec 10_state.md, 20_memory.md rule R60, 60_exceptions.md rules R240,
R241), its value after reset (R43), and the reasons a step can stop. -/

namespace Sys2Proof.Machine

/-! ## Faults and refusals -/

/-- The fatal fault kinds of R240. The spec gives every one of them its effect: the instruction's effects are
discarded and the run status becomes `Faulted(record)` (R241, R242). A step that raises one therefore answers a
NEXT state with that status; no step and no meaning answers `Host.Outcome.fault` (assumption 4, safe). -/
inductive Fault where
  /-- Raised by the decode of any instruction, with the sub-kind of R97. Safe: the spec stops here too. -/
  | decodeFault (sub : DecodeSub)
  /-- Raised by DIV alone, when its divisor is 0 (R245). Safe: the spec stops here too. -/
  | divideByZero
  /-- Raised by an indexed operand, a 2-byte access, a push or a pop whose address leaves 0..0xFFFF under
  `addr_policy = fault` (R247). Safe: the spec stops here too. -/
  | addressFault
  deriving DecidableEq, Repr

/-- The reasons a step is refused. -/
inductive Refusal where
  /-- No meaning yet for the instruction of that mnemonic; raised by an arm of `exec` alone. No arm raises it:
  every instruction has its meaning. Safe. -/
  | notModelled (mnemonic : String)
  /-- The host error `StepWhenStopped` of R244: `step` was called in the status Halted or Faulted. Raised by
  `step` alone; the state does not change. Safe: the spec refuses here too. -/
  | stepWhenStopped
  deriving DecidableEq, Repr

/-- The fault record of R241. -/
structure FaultRecord where
  /-- The kind, with the sub-kind of a decode fault. -/
  kind   : Fault
  /-- The address of the faulting instruction's first byte; in a hardware interrupt entry, the PC that would
  have been pushed. -/
  pc     : Word
  /-- The instruction bytes fetched; empty in a hardware interrupt entry. -/
  bytes  : List Byte
  /-- The out-of-range integer address (an AddressFault only). -/
  addr   : Option Int
  /-- The source number (an AddressFault in a hardware interrupt entry only). -/
  vector : Option (Fin 8)
  deriving DecidableEq, Repr

/-- The run status of R40. -/
inductive RunStatus where
  | running
  | halted
  | faulted (record : FaultRecord)
  deriving DecidableEq, Repr

/-! ## Memory (R60) -/

/-- The 65,536 bytes of R60, as the (address, byte) pairs that differ from the 0x00 of reset (R43, R270), with
addresses strictly rising. -/
abbrev Memory := List Host.Cell

/-- The byte at an address; an address that is not listed holds 0x00, the reset contents (R43). -/
def Memory.read : Memory → Nat → Byte
  | [], _ => 0
  | (b, w) :: m, a => if a = b then w else Memory.read m a

/-- Writes one byte, keeping the canonical form: writing 0x00 removes the entry. -/
def Memory.write : Memory → Nat → Byte → Memory
  | [], a, v => if v = 0 then [] else [(a, v)]
  | (b, w) :: m, a, v =>
    if a < b then (if v = 0 then (b, w) :: m else (a, v) :: (b, w) :: m)
    else if a = b then (if v = 0 then m else (a, v) :: m)
    else (b, w) :: Memory.write m a v

/-- The canonical form from address `lo` up: addresses strictly rising inside 0..0xFFFF, no entry 0x00. -/
def Memory.wfFrom : Nat → Memory → Bool
  | _, [] => true
  | lo, (a, v) :: m => lo ≤ a && a < 0x10000 && v != 0 && Memory.wfFrom (a + 1) m

/-- The canonical form of a memory. -/
def Memory.wf (m : Memory) : Bool := Memory.wfFrom 0 m


/-! ## The state -/

/-- Everything the spec gives the machine (R2), and two fields of the model's own: `platform`, the parameters
R3 leaves OPEN, which no step changes (assumption 1), and `bus`, the accesses delivered to peripherals so far,
oldest first (assumption 5). -/
structure State where
  /-- R0 to R9 (R20). -/
  r        : Vector Byte 10
  /-- P0 to P9; P8 is SP and P9 is FP (R21, R22). -/
  p        : Vector Word 10
  /-- VX (R25); at `vreg_width` = 8 its value is in the low byte and the high byte is 0 (assumption 6). -/
  vx       : Word
  /-- VY (R25), held as VX is. -/
  vy       : Word
  /-- The program counter (R35). -/
  pc       : Word
  /-- FLAGS (R29). -/
  flags    : FlagWord
  /-- The pending latches PENDING[0..7] (R38). -/
  pending  : Vector Bool 8
  /-- The run status (R40). -/
  status   : RunStatus
  /-- Memory (R60). -/
  mem      : Memory
  /-- The OPEN parameters (R3). -/
  platform : Platform
  /-- The accesses made to peripheral-owned addresses so far, oldest first (R71, R72). -/
  bus      : List BusEvent
  deriving DecidableEq, Repr

/-- The state after reset with no image, for a host that passes `reset_pc` and a platform (R43, R270 to R274). -/
def State.resetFor (platform : Platform) (pc : Word) : State :=
  { r := #v[0, 0, 0, 0, 0, 0, 0, 0, 0, 0]
    p := #v[0, 0, 0, 0, 0, 0, 0, 0, Config.spReset, Config.spReset]
    vx := 0
    vy := 0
    pc := pc
    flags := 0
    pending := #v[false, false, false, false, false, false, false, false]
    status := .running
    mem := []
    platform := platform
    bus := [] }

/-- The machine right after reset: R43, with `reset_pc` and the OPEN parameters at the values assumptions 1
and 3 name. -/
def State.reset : State :=
  State.resetFor Config.resetPlatform Config.resetPc

/-! ## Field updates -/

/-- Replaces the R registers. -/
def State.withR (s : State) (v : Vector Byte 10) : State := { s with r := v }
/-- Replaces the P registers. -/
def State.withP (s : State) (v : Vector Word 10) : State := { s with p := v }
/-- Replaces VX. -/
def State.withVx (s : State) (v : Word) : State := { s with vx := v }
/-- Replaces VY. -/
def State.withVy (s : State) (v : Word) : State := { s with vy := v }
/-- Replaces the program counter. -/
def State.withPc (s : State) (v : Word) : State := { s with pc := v }
/-- Replaces FLAGS. -/
def State.withFlags (s : State) (v : FlagWord) : State := { s with flags := v }
/-- Replaces the pending latches. -/
def State.withPending (s : State) (v : Vector Bool 8) : State := { s with pending := v }
/-- Replaces the run status. -/
def State.withStatus (s : State) (v : RunStatus) : State := { s with status := v }
/-- Replaces memory. -/
def State.withMem (s : State) (v : Memory) : State := { s with mem := v }
/-- Replaces the log of peripheral accesses. -/
def State.withBus (s : State) (v : List BusEvent) : State := { s with bus := v }

end Sys2Proof.Machine
end

