-- ==== Sys2Proof/Machine/Flags.lean ====
section
/-! DEFINITION. The FLAGS bits (spec 10_state.md rule R29) and every flag computation: the helpers SetZSP,
AddFlags and SubFlags of R32 to R34 and the flag rules of files 41 to 45. Each computation takes the FLAGS word
and gives it back with only the flags its rule names changed (R31). -/

namespace Sys2Proof.Machine

/-! ## The twelve bits (R29) -/

/-- The flags, under the spec's short names T, S, V, B, D, I, C, Z, P, Dir, H, E (R29). -/
inductive Flag where
  | t | s | v | b | d | i | c | z | p | dir | h | e
  deriving DecidableEq, Repr

/-- The bit number of a flag in FLAGS (R29). -/
def Flag.bit : Flag → Nat
  | .t => 0
  | .s => 1
  | .v => 2
  | .b => 3
  | .d => 4
  | .i => 5
  | .c => 6
  | .z => 7
  | .p => 8
  | .dir => 9
  | .h => 10
  | .e => 11

/-- `FLAGS.x` (R29). -/
def flagGet (f : FlagWord) (x : Flag) : Bool := f.getLsbD x.bit

/-- The FLAGS word with one bit set. -/
def flagMask (x : Flag) : FlagWord := BitVec.twoPow 12 x.bit

/-- `FLAGS.x <- on` (R29): every other bit keeps its value (R31). -/
def flagPut (f : FlagWord) (x : Flag) (on : Bool) : FlagWord :=
  if on then f ||| flagMask x else f &&& ~~~ flagMask x

/-- FLAGS.x of a state. -/
def State.flag (s : State) (x : Flag) : Bool := flagGet s.flags x

/-! ## The helpers of R32 to R34 -/

/-- `popcount` of a byte (R5). -/
def popcount (b : Byte) : Nat :=
  ([0, 1, 2, 3, 4, 5, 6, 7].map fun k => (b.getLsbD k).toNat).sum

/-- P of R32: the low byte of the result has an even number of 1 bits, at either width. -/
def parityEven {w : Nat} (r : BitVec w) : Bool :=
  popcount (r.setWidth 8) % 2 == 0

/-- `SetZSP(r, W)` (R32). -/
def setZSP {w : Nat} (r : BitVec w) (f : FlagWord) : FlagWord :=
  flagPut (flagPut (flagPut f .z (r == 0)) .s r.msb) .p (parityEven r)

/-- Whether an integer lies in the signed range of `w` bits (R33, R34). -/
def inSigned (w : Nat) (x : Int) : Bool :=
  decide (-(2 : Int) ^ (w - 1) ≤ x ∧ x ≤ (2 : Int) ^ (w - 1) - 1)

/-- Writes C and V. -/
def setCV (c v : Bool) (f : FlagWord) : FlagWord :=
  flagPut (flagPut f .c c) .v v

/-- The FLAGS word `AddFlags(a, b, W)` leaves (R33). -/
def addFlags {w : Nat} (a b : BitVec w) (f : FlagWord) : FlagWord :=
  setCV (decide (2 ^ w ≤ a.toNat + b.toNat)) (!inSigned w (a.toInt + b.toInt)) (setZSP (a + b) f)

/-- The FLAGS word `SubFlags(a, b, W)` leaves (R34): C is the unsigned borrow. -/
def subFlags {w : Nat} (a b : BitVec w) (f : FlagWord) : FlagWord :=
  setCV (decide (a.toNat < b.toNat)) (!inSigned w (a.toInt - b.toInt)) (setZSP (a - b) f)

/-! ## MUL, DIV and logic (R132, R133, R150 to R153) -/

/-- The FLAGS word of MUL (R132): C and V say whether the unsigned and the signed product fit. -/
def mulFlags {w : Nat} (a b : BitVec w) (f : FlagWord) : FlagWord :=
  setCV (decide (2 ^ w ≤ a.toNat * b.toNat)) (!inSigned w (a.toInt * b.toInt)) (setZSP (a * b) f)

/-- The FLAGS word of a result that clears C and V: DIV's quotient (R133) and the logic results (R150 to R153). -/
def clearCVFlags {w : Nat} (r : BitVec w) (f : FlagWord) : FlagWord :=
  setCV false false (setZSP r f)

/-! ## Shifts and rotates (R160 to R163) -/

/-- The FLAGS word of a shift or rotate by a nonzero amount: C, then Z, S, P from the result; V is kept (D20). -/
def shiftFlags {w : Nat} (carry : Bool) (r : BitVec w) (f : FlagWord) : FlagWord :=
  setZSP r (flagPut f .c carry)

/-! ## Bit instructions (R170 to R173) -/

/-- The FLAGS word of a bit instruction: only Z, from bit `k` of `v` (R170 to R173). -/
def bitFlags {w : Nat} (v : BitVec w) (k : Nat) (f : FlagWord) : FlagWord :=
  flagPut f .z (!v.getLsbD k)

end Sys2Proof.Machine
end

