-- ==== Sys2Proof/Machine/Ops.lean ====
section
/-! DEFINITION. The shared operations over registers, memory, the stack and the interrupt controller, and
raising a fault (spec 10_state.md, 20_memory.md, 60_exceptions.md). -/

namespace Sys2Proof.Machine

/-! ## What an operation answers -/

/-- An operation inside an instruction either goes on, with a value and the state so far, or raises a fault
(R8). A fault discards the state so far except the accesses already delivered to peripherals, `bus` (R242). -/
inductive Res (α : Type) where
  | ok    (a : α) (s : State)
  | fault (f : Fault) (addr : Option Int) (bus : List BusEvent)

/-- One operation, then the next; the first fault ends both (R248). -/
def Res.bind {α β : Type} (x : Res α) (k : α → State → Res β) : Res β :=
  match x with
  | .ok a s => k a s
  | .fault f addr bus => .fault f addr bus

/-- The state a raised fault leaves (R8, R242): everything as it was before, but the status, and the accesses
that peripherals have already seen (assumption 14). -/
def State.raise (s : State) (record : FaultRecord) (bus : List BusEvent) : State :=
  (s.withStatus (.faulted record)).withBus bus

/-! ## Registers (R20 to R27) -/

/-- Rn (R20). -/
def getR (s : State) (n : Fin 10) : Byte := s.r[n.val]

/-- Writes Rn (R20). -/
def setR (s : State) (n : Fin 10) (v : Byte) : State := s.withR (s.r.set n.val v)

/-- Pn (R21). -/
def getP (s : State) (n : Fin 10) : Word := s.p[n.val]

/-- Writes Pn (R21). -/
def setP (s : State) (n : Fin 10) (v : Word) : State := s.withP (s.p.set n.val v)

/-- SP is P8 (R22). -/
def State.sp (s : State) : Word := getP s 8

/-- Writes SP. -/
def setSp (s : State) (v : Word) : State := setP s 8 v

/-- The value of VX or VY at `vreg_width`, zero-extended to 16 bits (R25, R26). -/
def vregValue (W : Width) (v : Word) : Word :=
  match W with
  | .w8 => (v.setWidth 8).setWidth 16
  | .w16 => v

/-- `regwidth(c)` of R26. -/
def regWidth (s : State) : Reg → Width
  | .r _ => .w8
  | .p _ => .w16
  | .vx => s.platform.vregWidth
  | .vy => s.platform.vregWidth
  | .ph _ => .w8
  | .pl _ => .w8

/-- `zext_16(RegRead(c))` (R23, R26). -/
def regRead (s : State) : Reg → Word
  | .r n => (getR s n).setWidth 16
  | .p n => getP s n
  | .vx => vregValue s.platform.vregWidth s.vx
  | .vy => vregValue s.platform.vregWidth s.vy
  | .ph n => (hiByte (getP s n)).setWidth 16
  | .pl n => (loByte (getP s n)).setWidth 16

/-- `RegWrite(c, v)`: the low `regwidth(c)` bits of `v` (R26, R27); an alias changes only its half (R24). -/
def regWrite (s : State) (c : Reg) (v : Word) : State :=
  match c with
  | .r n => setR s n (v.setWidth 8)
  | .p n => setP s n v
  | .vx => s.withVx (vregValue s.platform.vregWidth v)
  | .vy => s.withVy (vregValue s.platform.vregWidth v)
  | .ph n => setP s n (loByte v ++ loByte (getP s n))
  | .pl n => setP s n (hiByte (getP s n) ++ loByte v)

/-! ## Memory (R61 to R64, R67, R72) -/

/-- Whether a range holds an address. -/
def MmioRange.holds (g : MmioRange) (a : Word) : Bool :=
  decide (g.base.toNat ≤ a.toNat ∧ a.toNat < g.base.toNat + g.size)

/-- Whether a peripheral owns the address (`mmio` of R72). -/
def isMmio (s : State) (a : Word) : Bool := s.platform.mmio.any fun g => MmioRange.holds g a

/-- Whether an integer address lies in 0..0xFFFF (R67). -/
def inSpace : Int → Bool
  | .ofNat n => decide (n < 0x10000)
  | .negSucc _ => false

/-- `AddrCheck(x)` of R67: the address where the access goes on, none where it raises AddressFault. -/
def addrCheck (p : AddrPolicy) (x : Int) : Option Word :=
  if inSpace x || p == .wrap then some (BitVec.ofInt 16 x) else none

/-- `MemRead(a, 1)` (R61): the byte, and the state after the access. A peripheral-owned address answers with a
free byte and sees the access (R72). -/
def readByte (s : State) (a : Word) : Byte × State :=
  if isMmio s a then (Config.peripheralByte s.bus a, s.withBus (s.bus ++ [.read a]))
  else (s.mem.read a.toNat, s)

/-- `MemWrite(a, 1, v)` (R62); at a peripheral-owned address the write is delivered to the peripheral (R72). -/
def writeByte (s : State) (a : Word) (v : Byte) : State :=
  if isMmio s a then s.withBus (s.bus ++ [.write a v])
  else s.withMem (s.mem.write a.toNat v)

/-- The check on the second byte of a 2-byte access at `a` (R63, R64, R67): where that byte is, none for
AddressFault. The first byte is accessed before the fault is raised (assumption 7). -/
def secondByte (s : State) (a : Word) : Option Word :=
  addrCheck s.platform.addrPolicy ((a.toNat : Int) + 1)

/-- `MemRead(a, 2)` (R63): big-endian, `a` first. -/
def readWord (s : State) (a : Word) : Res Word :=
  match secondByte s a with
  | some a' =>
    .ok ((readByte s a).1 ++ (readByte (readByte s a).2 a').1) (readByte (readByte s a).2 a').2
  | none => .fault .addressFault (some ((a.toNat : Int) + 1)) (readByte s a).2.bus

/-- `MemWrite(a, 2, v)` (R64): big-endian, `a` first. -/
def writeWord (s : State) (a : Word) (v : Word) : Res Unit :=
  match secondByte s a with
  | some a' => .ok () (writeByte (writeByte s a (hiByte v)) a' (loByte v))
  | none => .fault .addressFault (some ((a.toNat : Int) + 1)) (writeByte s a (hiByte v)).bus

/-- `MemRead(a, W / 8)` (R63, R94). -/
def memRead (s : State) (a : Word) (W : Width) : Res (Value W) :=
  match W with
  | .w8 => .ok (readByte s a).1 (readByte s a).2
  | .w16 => readWord s a

/-- `MemWrite(a, W / 8, v)` (R64, R95). -/
def memWrite (s : State) (a : Word) (W : Width) (v : Value W) : Res Unit :=
  match W with
  | .w8 => .ok () (writeByte s a v)
  | .w16 => writeWord s a v

/-! ## The stack (R65, R66) -/

/-- `Push16(v)` (R65). -/
def push16 (s : State) (v : Word) : Res Unit :=
  match addrCheck s.platform.addrPolicy ((s.sp.toNat : Int) - 2) with
  | some a => writeWord (setSp s a) a v
  | none => .fault .addressFault (some ((s.sp.toNat : Int) - 2)) s.bus

/-- `Pop16()` (R66). -/
def pop16 (s : State) : Res Word :=
  (readWord s s.sp).bind fun v t =>
    match addrCheck t.platform.addrPolicy ((s.sp.toNat : Int) + 2) with
    | some a => .ok v (setSp t a)
    | none => .fault .addressFault (some ((s.sp.toNat : Int) + 2)) t.bus

/-- Pushes the registers of a list, in order, each zero-extended (R202). -/
def pushRegs (s : State) : List Reg → Res Unit
  | [] => .ok () s
  | c :: cs => (push16 s (regRead s c)).bind fun _ t => pushRegs t cs

/-- Pops the registers of a list, in order; an 8-bit register takes the low byte (R203). -/
def popRegs (s : State) : List Reg → Res Unit
  | [] => .ok () s
  | c :: cs => (pop16 s).bind fun v t => popRegs (regWrite t c v) cs

/-- The registers PUSHA pushes, in its order (R202). -/
def savedRegs : List Reg :=
  [.r 0, .r 1, .r 2, .r 3, .r 4, .r 5, .r 6, .r 7, .r 8, .r 9,
   .p 0, .p 1, .p 2, .p 3, .p 4, .p 5, .p 6, .p 7]

/-- The FLAGS slot: bits 15..12 are 0 on a push (R204, D25). -/
def flagsSlot (f : FlagWord) : Word := f.setWidth 16

/-- FLAGS from a slot: bits 15..12 are ignored on a pop (R205, D25). -/
def slotFlags (v : Word) : FlagWord := v.setWidth 12

/-! ## Interrupts (R38, R250 to R258) -/

/-- Sets or clears a pending latch (R38). -/
def setPending (s : State) (n : Fin 8) (on : Bool) : State :=
  s.withPending (s.pending.set n.val on)

/-- PENDING[n] (R38). -/
def getPending (s : State) (n : Fin 8) : Bool := s.pending[n.val]

/-- The address of the handler address of source `n` (R73). -/
def vectorAddr (n : Fin 8) : Word := BitVec.ofNat 16 (Config.vectorBase + 4 * n.val)

/-- TAKING AN INTERRUPT: `Enter(n, ret)` of R255, in its order. Hardware entry and INT n share it (R257). -/
def enter (s : State) (n : Fin 8) (ret : Word) : Res Unit :=
  (push16 s ret).bind fun _ s1 =>
  (push16 s1 (flagsSlot s1.flags)).bind fun _ s2 =>
  (readWord (s2.withFlags (flagPut s2.flags .i false)) (vectorAddr n)).bind fun handler s3 =>
  .ok () (setPending (s3.withPc handler) n false)

/-- RETURNING FROM AN INTERRUPT: the pops of IRET (R218, R258). -/
def leave (s : State) : Res Unit :=
  (pop16 s).bind fun v s1 =>
  (pop16 (s1.withFlags (slotFlags v))).bind fun ret s2 =>
  .ok () (s2.withPc ret)

/-- The sources in priority order (R249). -/
def sources : List (Fin 8) := [0, 1, 2, 3, 4, 5, 6, 7]

/-- Arbitration: the lowest pending source (R253). -/
def firstPending (s : State) : Option (Fin 8) :=
  sources.find? fun n => getPending s n

/-- The source the interrupt check takes, if any: I is set and a latch is (R254). -/
def takenInterrupt (s : State) : Option (Fin 8) :=
  if s.flag .i then firstPending s else none

/-- The hardware entry of R254 and R256: `Enter(n, pc)`, or the fault record with an empty `bytes`, the PC that
would have been pushed and the source number (R241). -/
def hardwareEntry (s : State) (n : Fin 8) : State :=
  match enter s n s.pc with
  | .ok _ t => t
  | .fault f addr bus =>
    s.raise { kind := f, pc := s.pc, bytes := [], addr := addr, vector := some n } bus

/-- The interrupt check at the start of a step (R101, R254). -/
def interruptCheck (s : State) : State :=
  match takenInterrupt s with
  | some n => hardwareEntry s n
  | none => s

/-! ## Ending an instruction -/

/-- The PC after an instruction that does not redirect control (R36, R37, R100). -/
def nextPc (i : Instr) (s : State) : Word := s.pc + BitVec.ofNat 16 i.length

/-- What an instruction that began in `s` answers: its next state, or the faulted one, whose record holds the
PC and all the bytes of the instruction (R241, R242). -/
def finish (i : Instr) (s : State) (x : Res Unit) : Host.Outcome State Fault Refusal :=
  match x with
  | .ok _ t => .next t
  | .fault f addr bus =>
    .next (s.raise { kind := f, pc := s.pc, bytes := encode i, addr := addr, vector := none } bus)

end Sys2Proof.Machine
end

