-- ==== Sys2Proof/Machine/Operands.lean ====
section
/-! DEFINITION. Every operand form (spec 30_encoding.md rules R89 to R95, R108, R109): effective addresses,
operation width, and reading and writing operands; and the frame every instruction runs in, which raises the
AddressFault of an indexed operand first (R91, R98, R105). -/

namespace Sys2Proof.Machine

/-! ## Effective addresses (R91) -/

/-- The integer address of an indexed operand, before the check (R91). -/
def indexSum (s : State) (c : Reg) (d : Byte) : Int :=
  ((regRead s c).toNat : Int) + d.toInt

/-- The effective address of a memory operand whose check passed (R91). -/
def effAddr (s : State) : MemRef → Word
  | .direct a => a
  | .indirect c => regRead s c
  | .indexed c d => BitVec.ofInt 16 (indexSum s c d)

/-- The out-of-range address an operand's decode raises AddressFault for, if it does (R67, R91). -/
def indexError (s : State) : Operand → Option Int
  | .mem (.indexed c d) =>
    if (addrCheck s.platform.addrPolicy (indexSum s c d)).isNone then some (indexSum s c d) else none
  | .mem (.direct _) => none
  | .mem (.indirect _) => none
  | .reg _ => none
  | .imm8 _ => none
  | .imm16 _ => none

/-- The first operand of a list, whose first field stands at offset `off`, that raises AddressFault in decode:
the address, and how many bytes had been fetched by then (R105, R248; assumption 8). -/
def indexFault (s : State) : List Operand → Nat → Option (Int × Nat)
  | [], _ => none
  | o :: os, off =>
    match indexError s o with
    | some x => some (x, off + o.fieldLen)
    | none => indexFault s os (off + o.fieldLen)

/-! ## Operand descriptors (R89) -/

/-- The decoded operand descriptors of R89; no rule depends on the memory form once `ea` is known. -/
inductive Loc where
  | reg   (c : Reg)
  | imm8  (b : Byte)
  | imm16 (v : Word)
  | mem   (ea : Word)
  deriving DecidableEq, Repr

/-- The descriptor of an operand, from the register values at the start of the instruction (R89, R98). -/
def locate (s : State) : Operand → Loc
  | .reg c => .reg c
  | .imm8 b => .imm8 b
  | .imm16 v => .imm16 v
  | .mem m => .mem (effAddr s m)

/-! ## Operation width (R93) -/

/-- `w(op)` of R93; a memory operand has no width of its own. -/
def ownWidth (s : State) : Operand → Option Width
  | .reg c => some (regWidth s c)
  | .imm8 _ => some .w8
  | .imm16 _ => some .w16
  | .mem _ => none

/-- Class A of R93: the width of operand 1, else of operand 2, else 8. -/
def widthA (s : State) (o1 o2 : Operand) : Width :=
  match ownWidth s o1 with
  | some W => W
  | none =>
    match ownWidth s o2 with
    | some W => W
    | none => .w8

/-- Class B of R93: the width of operand 1, else 8. -/
def widthB (s : State) (o1 : Operand) : Width :=
  match ownWidth s o1 with
  | some W => W
  | none => .w8

/-! ## Reading and writing (R94, R95, R108, R109) -/

/-- `ReadOp(op, W)` (R94): a narrower source is zero-extended, a wider one keeps its low bits. -/
def readOp (s : State) (l : Loc) (W : Width) : Res (Value W) :=
  match l with
  | .reg c => .ok ((regRead s c).setWidth W.bits) s
  | .imm8 b => .ok (b.setWidth W.bits) s
  | .imm16 v => .ok (v.setWidth W.bits) s
  | .mem ea => memRead s ea W

/-- `WriteOp(op, W, v)` (R95). Only a destination is written (R96), so an immediate descriptor never comes
here; it would discard the value. -/
def writeOp (s : State) (l : Loc) (W : Width) (v : Value W) : Res Unit :=
  match l with
  | .reg c => .ok () (regWrite s c (v.setWidth 16))
  | .imm8 _ => .ok () s
  | .imm16 _ => .ok () s
  | .mem ea => memWrite s ea W v

/-- `ReadCount(op, W)` (R108): the value at its own width, reduced modulo `W`; a memory amount is one byte. -/
def readCount (s : State) (l : Loc) (W : Width) : Res Nat :=
  match l with
  | .reg c => .ok ((regRead s c).toNat % W.bits) s
  | .imm8 b => .ok (b.toNat % W.bits) s
  | .imm16 v => .ok (v.toNat % W.bits) s
  | .mem ea => .ok ((readByte s ea).1.toNat % W.bits) (readByte s ea).2

/-- `ReadTarget(op)` (R109). An `Imm8` is no target (R96), so its descriptor never comes here. -/
def readTarget (s : State) (l : Loc) : Res Word :=
  match l with
  | .reg c => .ok (regRead s c) s
  | .imm8 b => .ok (b.setWidth 16) s
  | .imm16 v => .ok v s
  | .mem ea => readWord s ea

/-! ## Running an instruction -/

/-- The frame of every meaning but an untaken jump's: the AddressFault of an indexed operand comes first, with the bytes fetched up to
its field (R91, R105, R248); otherwise the rule's effects run, and a fault among them discards them (R8). -/
def runInstr (i : Instr) (s : State) (body : State → Res Unit) : Host.Outcome State Fault Refusal :=
  match indexFault s i.operands 2 with
  | some e =>
    .next (s.raise
      { kind := .addressFault, pc := s.pc, bytes := (encode i).take e.2, addr := some e.1, vector := none } s.bus)
  | none => finish i s (body s)

/-- An instruction that reads two operands at the class-A width, writes FLAGS and then operand 1. -/
def runAlu (i : Instr) (o1 o2 : Operand) (s : State)
    (result : {w : Nat} → BitVec w → BitVec w → BitVec w)
    (flags : {w : Nat} → BitVec w → BitVec w → FlagWord → FlagWord) : Host.Outcome State Fault Refusal :=
  runInstr i s fun s =>
    (readOp s (locate s o1) (widthA s o1 o2)).bind fun a s1 =>
    (readOp s1 (locate s o2) (widthA s o1 o2)).bind fun b s2 =>
    (writeOp (s2.withFlags (flags a b s2.flags)) (locate s o1) (widthA s o1 o2) (result a b)).bind fun _ s3 =>
    .ok () (s3.withPc (nextPc i s))

/-- An instruction that reads operand 1 at the class-B width, writes FLAGS and then operand 1. -/
def runUnary (i : Instr) (o1 : Operand) (s : State)
    (result : {w : Nat} → BitVec w → BitVec w)
    (flags : {w : Nat} → BitVec w → FlagWord → FlagWord) : Host.Outcome State Fault Refusal :=
  runInstr i s fun s =>
    (readOp s (locate s o1) (widthB s o1)).bind fun a s1 =>
    (writeOp (s1.withFlags (flags a s1.flags)) (locate s o1) (widthB s o1) (result a)).bind fun _ s2 =>
    .ok () (s2.withPc (nextPc i s))

/-- A shift or rotate (R160 to R163): by an effective amount of 0 only the PC changes (D19); otherwise FLAGS and
operand 1 are written. -/
def runShift (i : Instr) (o1 o2 : Operand) (s : State)
    (result : {w : Nat} → BitVec w → Nat → BitVec w)
    (carry : {w : Nat} → BitVec w → Nat → Bool) : Host.Outcome State Fault Refusal :=
  runInstr i s fun s =>
    (readOp s (locate s o1) (widthB s o1)).bind fun a s1 =>
    (readCount s1 (locate s o2) (widthB s o1)).bind fun k s2 =>
    if k = 0 then .ok () (s2.withPc (nextPc i s))
    else
      (writeOp (s2.withFlags (shiftFlags (carry a k) (result a k) s2.flags)) (locate s o1) (widthB s o1)
        (result a k)).bind fun _ s3 =>
      .ok () (s3.withPc (nextPc i s))

/-- A bit instruction that writes operand 1 (R171 to R173): Z comes from bit `k` of the result. -/
def runBit (i : Instr) (o1 o2 : Operand) (s : State)
    (result : {w : Nat} → BitVec w → Nat → BitVec w) : Host.Outcome State Fault Refusal :=
  runInstr i s fun s =>
    (readOp s (locate s o1) (widthB s o1)).bind fun v s1 =>
    (readCount s1 (locate s o2) (widthB s o1)).bind fun k s2 =>
    (writeOp (s2.withFlags (bitFlags (result v k) k s2.flags)) (locate s o1) (widthB s o1) (result v k)).bind
      fun _ s3 =>
    .ok () (s3.withPc (nextPc i s))

/-- A jump to `t` when `taken`, and the default advance otherwise. The target raises AddressFault, be it for its
indexed address or for its word, only when the jump is taken (R185 to R193, D16; assumption 10). -/
def runJump (i : Instr) (t : Target) (taken : Bool) (s : State) : Host.Outcome State Fault Refusal :=
  if taken then
    runInstr i s fun s =>
      (readTarget s (locate s t.toOperand)).bind fun target s1 => .ok () (s1.withPc target)
  else .next (s.withPc (nextPc i s))

/-- An instruction that writes one FLAGS bit and advances (R215, R216, R219, R220). -/
def runFlag (i : Instr) (x : Flag) (on : Bool) (s : State) : Host.Outcome State Fault Refusal :=
  runInstr i s fun s => .ok () ((s.withFlags (flagPut s.flags x on)).withPc (nextPc i s))

end Sys2Proof.Machine
end

