-- ==== Sys2Proof/Machine/Arithmetic.lean ====
section
/-! DEFINITION. The meanings of ADD, SUB, MUL, DIV, INC and DEC (spec 41_arithmetic.md). -/

namespace Sys2Proof.Machine

/-- ADD (R130). -/
def execAdd (d : Dst) (x : Operand) (s : State) : Host.Outcome State Fault Refusal :=
  runAlu (.add d x) d.toOperand x s (fun a b => a + b) addFlags

/-- SUB (R131): C is the borrow. -/
def execSub (d : Dst) (x : Operand) (s : State) : Host.Outcome State Fault Refusal :=
  runAlu (.sub d x) d.toOperand x s (fun a b => a - b) subFlags

/-- MUL (R132): the low W bits of the product; the high half is discarded. -/
def execMul (d : Dst) (x : Operand) (s : State) : Host.Outcome State Fault Refusal :=
  runAlu (.mul d x) d.toOperand x s (fun a b => a * b) mulFlags

/-- DIV (R133): the unsigned quotient; a divisor that is 0 at width W raises DivideByZero (R245), after both
operands are read (R248). -/
def execDiv (d : Dst) (x : Operand) (s : State) : Host.Outcome State Fault Refusal :=
  runInstr (.div d x) s fun s =>
    (readOp s (locate s d.toOperand) (widthA s d.toOperand x)).bind fun a s1 =>
    (readOp s1 (locate s x) (widthA s d.toOperand x)).bind fun b s2 =>
    if b = 0 then .fault .divideByZero none s2.bus
    else
      (writeOp (s2.withFlags (clearCVFlags (a / b) s2.flags)) (locate s d.toOperand)
        (widthA s d.toOperand x) (a / b)).bind fun _ s3 =>
      .ok () (s3.withPc (nextPc (.div d x) s))

/-- INC (R134): AddFlags with b = 1, so C is written too. -/
def execInc (d : Dst) (s : State) : Host.Outcome State Fault Refusal :=
  runUnary (.inc d) d.toOperand s (fun a => a + 1) (fun a => addFlags a 1)

/-- DEC (R135): SubFlags with b = 1. -/
def execDec (d : Dst) (s : State) : Host.Outcome State Fault Refusal :=
  runUnary (.dec d) d.toOperand s (fun a => a - 1) (fun a => subFlags a 1)

end Sys2Proof.Machine
end

