-- ==== Sys2Proof/Machine/Bit.lean ====
section
/-! DEFINITION. The meanings of BTST, BSET, BCLR and BFLIP (spec 44_bit.md). -/

namespace Sys2Proof.Machine

/-- BTST (R170): Z is set where the tested bit is 0; nothing else changes but the PC. -/
def execBtst (a : Operand) (x : Operand) (s : State) : Host.Outcome State Fault Refusal :=
  runInstr (.btst a x) s fun s =>
    (readOp s (locate s a) (widthB s a)).bind fun v s1 =>
    (readCount s1 (locate s x) (widthB s a)).bind fun k s2 =>
    .ok () ((s2.withFlags (bitFlags v k s2.flags)).withPc (nextPc (.btst a x) s))

/-- BSET (R171): sets bit `k`. -/
def execBset (d : Dst) (x : Operand) (s : State) : Host.Outcome State Fault Refusal :=
  runBit (.bset d x) d.toOperand x s (fun {w} v k => v ||| BitVec.twoPow w k)

/-- BCLR (R172): clears bit `k`. -/
def execBclr (d : Dst) (x : Operand) (s : State) : Host.Outcome State Fault Refusal :=
  runBit (.bclr d x) d.toOperand x s (fun {w} v k => v &&& ~~~ BitVec.twoPow w k)

/-- BFLIP (R173): inverts bit `k`. -/
def execBflip (d : Dst) (x : Operand) (s : State) : Host.Outcome State Fault Refusal :=
  runBit (.bflip d x) d.toOperand x s (fun {w} v k => v ^^^ BitVec.twoPow w k)

end Sys2Proof.Machine
end

