-- ==== Sys2Proof/Machine/Compare.lean ====
section
/-! DEFINITION. The meaning of CMP (spec 45_compare.md). -/

namespace Sys2Proof.Machine

/-- CMP (R180): the flags of a subtract; the difference is discarded. -/
def execCmp (a : Operand) (x : Operand) (s : State) : Host.Outcome State Fault Refusal :=
  runInstr (.cmp a x) s fun s =>
    (readOp s (locate s a) (widthA s a x)).bind fun u s1 =>
    (readOp s1 (locate s x) (widthA s a x)).bind fun v s2 =>
    .ok () ((s2.withFlags (subFlags u v s2.flags)).withPc (nextPc (.cmp a x) s))

end Sys2Proof.Machine
end

