-- ==== Sys2Proof/Machine/ControlFlow.lean ====
section
/-! DEFINITION. The meanings of JMP, the conditional jumps, CALL and RET (spec 46_control_flow.md). None writes a flag. -/

namespace Sys2Proof.Machine

/-- JMP (R185). -/
def execJmp (t : Target) (s : State) : Host.Outcome State Fault Refusal :=
  runJump (.jmp t) t true s

/-- JZ (R186): jump if zero. -/
def execJz (t : Target) (s : State) : Host.Outcome State Fault Refusal :=
  runJump (.jz t) t (s.flag .z == true) s

/-- JNZ (R187): jump if not zero. -/
def execJnz (t : Target) (s : State) : Host.Outcome State Fault Refusal :=
  runJump (.jnz t) t (s.flag .z == false) s

/-- JC (R188): jump if carry. -/
def execJc (t : Target) (s : State) : Host.Outcome State Fault Refusal :=
  runJump (.jc t) t (s.flag .c == true) s

/-- JNC (R189): jump if no carry. -/
def execJnc (t : Target) (s : State) : Host.Outcome State Fault Refusal :=
  runJump (.jnc t) t (s.flag .c == false) s

/-- JS (R190): jump if sign. -/
def execJs (t : Target) (s : State) : Host.Outcome State Fault Refusal :=
  runJump (.js t) t (s.flag .s == true) s

/-- JNS (R191): jump if not sign. -/
def execJns (t : Target) (s : State) : Host.Outcome State Fault Refusal :=
  runJump (.jns t) t (s.flag .s == false) s

/-- JO (R192): jump if overflow. -/
def execJo (t : Target) (s : State) : Host.Outcome State Fault Refusal :=
  runJump (.jo t) t (s.flag .v == true) s

/-- JNO (R193): jump if no overflow. -/
def execJno (t : Target) (s : State) : Host.Outcome State Fault Refusal :=
  runJump (.jno t) t (s.flag .v == false) s

/-- CALL (R194): the target is read before the return address is pushed (D17). -/
def execCall (t : Target) (s : State) : Host.Outcome State Fault Refusal :=
  runInstr (.call t) s fun s =>
    (readTarget s (locate s t.toOperand)).bind fun target s1 =>
    (push16 s1 (nextPc (.call t) s)).bind fun _ s2 =>
    .ok () (s2.withPc target)

/-- RET (R195). -/
def execRet (s : State) : Host.Outcome State Fault Refusal :=
  runInstr .ret s fun s => (pop16 s).bind fun v s1 => .ok () (s1.withPc v)

end Sys2Proof.Machine
end

