-- ==== Sys2Proof/Machine/DataMovement.lean ====
section
/-! DEFINITION. The meaning of MOV (spec 40_data_movement.md). -/

namespace Sys2Proof.Machine

/-- MOV (R120): the source at the class-A width, written to the destination; no flag changes. -/
def execMov (d : Dst) (x : Operand) (s : State) : Host.Outcome State Fault Refusal :=
  runInstr (.mov d x) s fun s =>
    (readOp s (locate s x) (widthA s d.toOperand x)).bind fun v s1 =>
    (writeOp s1 (locate s d.toOperand) (widthA s d.toOperand x) v).bind fun _ s2 =>
    .ok () (s2.withPc (nextPc (.mov d x) s))

end Sys2Proof.Machine
end

