-- ==== Sys2Proof/Machine/InterruptOps.lean ====
section
/-! DEFINITION. The meanings of STI, CLI, INT, IRET, STD and CLD (spec 48_interrupt_ops.md). -/

namespace Sys2Proof.Machine

/-- STI (R215): I = 1. -/
def execSti (s : State) : Host.Outcome State Fault Refusal :=
  runFlag .sti .i true s

/-- CLI (R216): I = 0. -/
def execCli (s : State) : Host.Outcome State Fault Refusal :=
  runFlag .cli .i false s

/-- STD (R219): D = 1. -/
def execStd (s : State) : Host.Outcome State Fault Refusal :=
  runFlag .std .d true s

/-- CLD (R220): D = 0. -/
def execCld (s : State) : Host.Outcome State Fault Refusal :=
  runFlag .cld .d false s

/-- INT (R217): the entry of R255 on vector `n`, whatever I holds, with the address after the INT as the return
address (D14). A vector above 7 is BadVector (R96, R97); decode raises it before an INT comes here
(assumption 20). The record of its AddressFault holds no source number (assumption 11). -/
def execInt (n : Byte) (s : State) : Host.Outcome State Fault Refusal :=
  runInstr (.int n) s fun s =>
    if h : n.toNat < 8 then enter s ⟨n.toNat, h⟩ (nextPc (.int n) s)
    else .fault (.decodeFault .badVector) none s.bus

/-- IRET (R218): FLAGS, then the PC, popped. -/
def execIret (s : State) : Host.Outcome State Fault Refusal :=
  runInstr .iret s fun s => leave s

end Sys2Proof.Machine
end

