-- ==== Sys2Proof/Machine/Logic.lean ====
section
/-! DEFINITION. The meanings of AND, OR, XOR and NOT (spec 42_logic.md). -/

namespace Sys2Proof.Machine

/-- AND (R150). -/
def execAnd (d : Dst) (x : Operand) (s : State) : Host.Outcome State Fault Refusal :=
  runAlu (.and d x) d.toOperand x s (fun a b => a &&& b) (fun a b => clearCVFlags (a &&& b))

/-- OR (R151). -/
def execOr (d : Dst) (x : Operand) (s : State) : Host.Outcome State Fault Refusal :=
  runAlu (.or d x) d.toOperand x s (fun a b => a ||| b) (fun a b => clearCVFlags (a ||| b))

/-- XOR (R152). -/
def execXor (d : Dst) (x : Operand) (s : State) : Host.Outcome State Fault Refusal :=
  runAlu (.xor d x) d.toOperand x s (fun a b => a ^^^ b) (fun a b => clearCVFlags (a ^^^ b))

/-- NOT (R153): every bit inverted at width W. -/
def execNot (d : Dst) (s : State) : Host.Outcome State Fault Refusal :=
  runUnary (.not d) d.toOperand s (fun a => ~~~ a) (fun a => clearCVFlags (~~~ a))

end Sys2Proof.Machine
end

