-- ==== Sys2Proof/Machine/Misc.lean ====
section
/-! DEFINITION. The meanings of HLT and NOP (spec 49_misc.md). -/

namespace Sys2Proof.Machine

/-- HLT (R230): the PC advances and the run status becomes Halted. -/
def execHlt (s : State) : Host.Outcome State Fault Refusal :=
  runInstr .hlt s fun s => .ok () ((s.withPc (nextPc .hlt s)).withStatus .halted)

/-- NOP (R231): the PC advances. -/
def execNop (s : State) : Host.Outcome State Fault Refusal :=
  runInstr .nop s fun s => .ok () (s.withPc (nextPc .nop s))

end Sys2Proof.Machine
end

