-- ==== Sys2Proof/Machine/ShiftRotate.lean ====
section
/-! DEFINITION. The meanings of SHL, SHR, ROL and ROR (spec 43_shift_rotate.md). C is the last bit shifted or
rotated out (spec 90_conflicts.md C1); the amount is at least 1 and below the width when a result is computed. -/

namespace Sys2Proof.Machine

/-- SHL (R160): zeros enter at bit 0; C is `a[W - k]`. -/
def execShl (d : Dst) (x : Operand) (s : State) : Host.Outcome State Fault Refusal :=
  runShift (.shl d x) d.toOperand x s (fun a k => a <<< k) (fun {w} a k => a.getLsbD (w - k))

/-- SHR (R161): logical, zeros enter at the top (D18); C is `a[k - 1]`. -/
def execShr (d : Dst) (x : Operand) (s : State) : Host.Outcome State Fault Refusal :=
  runShift (.shr d x) d.toOperand x s (fun a k => a >>> k) (fun a k => a.getLsbD (k - 1))

/-- ROL (R162): C is bit 0 of the result. -/
def execRol (d : Dst) (x : Operand) (s : State) : Host.Outcome State Fault Refusal :=
  runShift (.rol d x) d.toOperand x s (fun {w} a k => (a <<< k) ||| (a >>> (w - k)))
    (fun {w} a k => ((a <<< k) ||| (a >>> (w - k))).getLsbD 0)

/-- ROR (R163): C is the top bit of the result. -/
def execRor (d : Dst) (x : Operand) (s : State) : Host.Outcome State Fault Refusal :=
  runShift (.ror d x) d.toOperand x s (fun {w} a k => (a >>> k) ||| (a <<< (w - k)))
    (fun {w} a k => ((a >>> k) ||| (a <<< (w - k))).msb)

end Sys2Proof.Machine
end

