-- ==== Sys2Proof/Machine/Stack.lean ====
section
/-! DEFINITION. The meanings of PUSH, POP, PUSHA, POPA, PUSHF and POPF (spec 47_stack.md). -/

namespace Sys2Proof.Machine

/-- PUSH (R200): the register's value before SP changes, zero-extended (D26). -/
def execPush (c : Reg) (s : State) : Host.Outcome State Fault Refusal :=
  runInstr (.push c) s fun s =>
    (push16 s (regRead s c)).bind fun _ s1 => .ok () (s1.withPc (nextPc (.push c) s))

/-- POP (R201): SP is updated first, then the register is written (D26). -/
def execPop (c : Reg) (s : State) : Host.Outcome State Fault Refusal :=
  runInstr (.pop c) s fun s =>
    (pop16 s).bind fun v s1 => .ok () ((regWrite s1 c v).withPc (nextPc (.pop c) s))

/-- PUSHA (R202): R0 to R9, then P0 to P7. -/
def execPusha (s : State) : Host.Outcome State Fault Refusal :=
  runInstr .pusha s fun s =>
    (pushRegs s savedRegs).bind fun _ s1 => .ok () (s1.withPc (nextPc .pusha s))

/-- POPA (R203): the same registers in the reverse order. -/
def execPopa (s : State) : Host.Outcome State Fault Refusal :=
  runInstr .popa s fun s =>
    (popRegs s savedRegs.reverse).bind fun _ s1 => .ok () (s1.withPc (nextPc .popa s))

/-- PUSHF (R204): all 12 flags, bits 15..12 of the slot 0. -/
def execPushf (s : State) : Host.Outcome State Fault Refusal :=
  runInstr .pushf s fun s =>
    (push16 s (flagsSlot s.flags)).bind fun _ s1 => .ok () (s1.withPc (nextPc .pushf s))

/-- POPF (R205): all 12 flags, verbatim from the slot. -/
def execPopf (s : State) : Host.Outcome State Fault Refusal :=
  runInstr .popf s fun s =>
    (pop16 s).bind fun v s1 => .ok () ((s1.withFlags (slotFlags v)).withPc (nextPc .popf s))

end Sys2Proof.Machine
end

