-- ==== Sys2Proof/Machine/Dispatch.lean ====
section
/-! DEFINITION. One arm for each constructor of Instr, each a direct call of that instruction's meaning. -/

namespace Sys2Proof.Machine

/-- The meaning of an instruction that begins in the state `s` (R101, `Execute`). -/
def exec (i : Instr) (s : State) : Host.Outcome State Fault Refusal :=
  match i with
  | .hlt => Sys2Proof.Machine.execHlt s
  | .nop => Sys2Proof.Machine.execNop s
  | .ret => Sys2Proof.Machine.execRet s
  | .iret => Sys2Proof.Machine.execIret s
  | .pusha => Sys2Proof.Machine.execPusha s
  | .popa => Sys2Proof.Machine.execPopa s
  | .pushf => Sys2Proof.Machine.execPushf s
  | .popf => Sys2Proof.Machine.execPopf s
  | .sti => Sys2Proof.Machine.execSti s
  | .cli => Sys2Proof.Machine.execCli s
  | .std => Sys2Proof.Machine.execStd s
  | .cld => Sys2Proof.Machine.execCld s
  | .mov d x => Sys2Proof.Machine.execMov d x s
  | .add d x => Sys2Proof.Machine.execAdd d x s
  | .sub d x => Sys2Proof.Machine.execSub d x s
  | .mul d x => Sys2Proof.Machine.execMul d x s
  | .div d x => Sys2Proof.Machine.execDiv d x s
  | .inc d => Sys2Proof.Machine.execInc d s
  | .dec d => Sys2Proof.Machine.execDec d s
  | .cmp a x => Sys2Proof.Machine.execCmp a x s
  | .and d x => Sys2Proof.Machine.execAnd d x s
  | .or d x => Sys2Proof.Machine.execOr d x s
  | .xor d x => Sys2Proof.Machine.execXor d x s
  | .not d => Sys2Proof.Machine.execNot d s
  | .shl d x => Sys2Proof.Machine.execShl d x s
  | .shr d x => Sys2Proof.Machine.execShr d x s
  | .rol d x => Sys2Proof.Machine.execRol d x s
  | .ror d x => Sys2Proof.Machine.execRor d x s
  | .btst a x => Sys2Proof.Machine.execBtst a x s
  | .bset d x => Sys2Proof.Machine.execBset d x s
  | .bclr d x => Sys2Proof.Machine.execBclr d x s
  | .bflip d x => Sys2Proof.Machine.execBflip d x s
  | .jmp t => Sys2Proof.Machine.execJmp t s
  | .jz t => Sys2Proof.Machine.execJz t s
  | .jnz t => Sys2Proof.Machine.execJnz t s
  | .jc t => Sys2Proof.Machine.execJc t s
  | .jnc t => Sys2Proof.Machine.execJnc t s
  | .js t => Sys2Proof.Machine.execJs t s
  | .jns t => Sys2Proof.Machine.execJns t s
  | .jo t => Sys2Proof.Machine.execJo t s
  | .jno t => Sys2Proof.Machine.execJno t s
  | .call t => Sys2Proof.Machine.execCall t s
  | .push c => Sys2Proof.Machine.execPush c s
  | .pop c => Sys2Proof.Machine.execPop c s
  | .int n => Sys2Proof.Machine.execInt n s

end Sys2Proof.Machine
end

