-- ==== Sys2Proof/Machine/Fetch.lean ====
section
/-! DEFINITION. Fetching and decoding at the program counter, one byte at a time (spec 20_memory.md rule R68,
30_encoding.md rules R98, R105), and the part of the step cycle that Step.lean calls (R101). -/

namespace Sys2Proof.Machine

/-- The address of the instruction byte at offset `k`: fetch wraps (R37, R68). -/
def fetchAddr (s : State) (k : Nat) : Word := s.pc + BitVec.ofNat 16 k

/-- The reads of peripheral-owned addresses that fetching the first `n` bytes makes, in order (R72;
assumption 9). -/
def fetchEvents (s : State) (n : Nat) : List BusEvent :=
  (List.range n).filterMap fun k =>
    if isMmio s (fetchAddr s k) then some (.read (fetchAddr s k)) else none

/-- The instruction byte at offset `k`, once the bytes before it are fetched (R68, R72). -/
def fetchByte (s : State) (k : Nat) : Byte :=
  if isMmio s (fetchAddr s k) then Config.peripheralByte (s.bus ++ fetchEvents s k) (fetchAddr s k)
  else s.mem.read (fetchAddr s k).toNat

/-- The first `n` instruction bytes. -/
def fetchBytes (s : State) (n : Nat) : List Byte := (List.range n).map (fetchByte s)

/-- The state after `n` bytes are fetched: only peripherals can tell (R98). -/
def afterFetch (s : State) (n : Nat) : State := s.withBus (s.bus ++ fetchEvents s n)

/-- How many bytes decode fetches: all `len`, or those up to the field of the first indexed operand that raises
AddressFault (R105). -/
def fetchCount (s : State) (ops : List Operand) (len : Nat) : Nat :=
  match indexFault s ops 2 with
  | some e => e.2
  | none => len

/-- The state a decode fault leaves. An AddressFault of an operand read before the failing byte comes first
(R105, R248). -/
def decodeFaultState (s : State) (sub : DecodeSub) (len : Nat) (before : List Operand) : State :=
  match indexFault s before 2 with
  | some e =>
    s.raise { kind := .addressFault, pc := s.pc, bytes := fetchBytes s e.2, addr := some e.1, vector := none }
      (afterFetch s e.2).bus
  | none =>
    s.raise { kind := .decodeFault sub, pc := s.pc, bytes := fetchBytes s len, addr := none, vector := none }
      (afterFetch s len).bus

/-- Fetches, decodes and executes the instruction at the program counter (R101). -/
def runAtPc (s : State) : Host.Outcome State Fault Refusal :=
  match decode (fetchByte s) with
  | .ok i len => exec i (afterFetch s (fetchCount s i.operands len))
  | .bad sub len before => .next (decodeFaultState s sub len before)

/-- One step in the status Running (R101): the interrupt check, then, unless the entry faulted, the instruction
at the program counter. -/
def runStep (s : State) : Host.Outcome State Fault Refusal :=
  match (interruptCheck s).status with
  | .running => runAtPc (interruptCheck s)
  | .halted => .next (interruptCheck s)
  | .faulted _ => .next (interruptCheck s)

/-- Stores bytes from an address upward, wrapping past 0xFFFF, as an image is placed (R270). -/
def storeBytes (m : Memory) (a : Word) : List Byte → Memory
  | [] => m
  | b :: bs => storeBytes (m.write a.toNat b) (a + 1) bs

end Sys2Proof.Machine
end

