-- ==== Sys2Proof/Machine/Step.lean ====
section
/-! DEFINITION. The step cycle (spec 30_encoding.md rule R101, 60_exceptions.md rule R244). -/

namespace Sys2Proof.Machine

/-- One step of the CORE (R101). In the status Halted or Faulted it is the host error StepWhenStopped (R244),
answered as a refusal (assumption 13). -/
def step (s : State) : Host.Outcome State Fault Refusal :=
  match s.status with
  | .running => runStep s
  | .halted => .refused .stepWhenStopped
  | .faulted _ => .refused .stepWhenStopped

/-- The state with an instruction's bytes, numbered as spec/opcode_table.json numbers bits, stored at the program
counter, from where a running machine with no interrupt to take fetches next (assumption 12). -/
def State.withFetchWord (s : State) (nbits w : Nat) : State :=
  s.withMem (storeBytes s.mem s.pc (tableBytes nbits w))

end Sys2Proof.Machine
end

