-- ==== Sys2Proof/Machine/HostPort.lean ====
section
/-! DEFINITION. The operations the CORE offers the host (spec 70_reset_and_hazards.md rules R270, R273, R280 to
R284): reset, run, reading and writing registers and memory, and raising an interrupt request. The host acts
between steps only (R283); each access is direct, checks no address and asks no peripheral (R282; the form of the
operations is assumption 18). `step` itself raises no request (assumption 15). -/

namespace Sys2Proof.Machine

/-- The host errors of R270 and R282, beside the refusal StepWhenStopped of R244. -/
inductive HostError where
  | imageTooLarge
  | unknownRegister
  | badSource
  deriving DecidableEq, Repr

/-! ## Reset and image load (R270 to R274) -/

/-- A program image and its base address (R270). -/
structure Image where
  bytes : List Byte
  base  : Word
  deriving DecidableEq, Repr

/-- `reset(image?, image_base?, reset_pc)` (R270 to R274): byte `i` of the image lands at `image_base + i` modulo
65536, every other byte is 0x00, and an image longer than 65,536 bytes is refused (D44). -/
def hostReset (platform : Platform) (image : Option Image) (resetPc : Word) : Except HostError State :=
  match image with
  | none => .ok (State.resetFor platform resetPc)
  | some m =>
    if m.bytes.length ≤ 0x10000 then
      .ok ((State.resetFor platform resetPc).withMem (storeBytes [] m.base m.bytes))
    else .error .imageTooLarge

/-! ## Running (R280, R283, R284) -/

/-- `run(N)` (R280): how many steps ran, and the final state; a refused step does not count. -/
def hostRun : Nat → State → Nat × State
  | 0, s => (0, s)
  | n + 1, s =>
    match step s with
    | .next t => ((hostRun n t).1 + 1, (hostRun n t).2)
    | .fault _ => (0, s)
    | .refused _ => (0, s)

/-! ## Interrupt requests (R250, R282) -/

/-- A request on line `n` sets its latch; one that is already set stays set (R250). -/
def raiseLine (s : State) (n : Fin 8) : State := setPending s n true

/-- `raise_irq(n)` (R282). -/
def raiseIrq (s : State) (n : Nat) : Except HostError State :=
  if h : n < 8 then .ok (raiseLine s ⟨n, h⟩) else .error .badSource

/-- Raises the requests an arrival schedule of (step index, source) pairs lists for step `k` (R283). -/
def raiseScheduled (schedule : List (Nat × Fin 8)) (k : Nat) (s : State) : State :=
  (schedule.filter fun e => e.1 == k).foldl (fun t e => raiseLine t e.2) s

/-- `run(N)` under an arrival schedule, from step index `k` on: the requests scheduled before a step are seen by
that step's interrupt check (R283). DESIGN CHOICE (assumption 21): a request scheduled before a step that this run
does not make, because the CORE has stopped or the budget is spent, sets no latch; the spec is silent on it. -/
def hostRunScheduled (schedule : List (Nat × Fin 8)) : Nat → Nat → State → Nat × State
  | 0, _, s => (0, s)
  | n + 1, k, s =>
    match step (raiseScheduled schedule k s) with
    | .next t =>
      ((hostRunScheduled schedule n (k + 1) t).1 + 1, (hostRunScheduled schedule n (k + 1) t).2)
    | .fault _ => (0, s)
    | .refused _ => (0, s)

/-! ## Inspection (R282) -/

/-- What a register name of the host interface denotes (R282). -/
inductive HostReg where
  | reg (c : Reg)
  | pc
  | flags
  deriving DecidableEq, Repr

/-- The name R106 writes for a register. -/
def regName : Reg → List Char
  | .r n => ['R', Nat.digitChar n.val]
  | .p n => ['P', Nat.digitChar n.val]
  | .vx => ['V', 'X']
  | .vy => ['V', 'Y']
  | .ph n => ['P', Nat.digitChar n.val, 'H']
  | .pl n => ['P', Nat.digitChar n.val, 'L']

/-- Every register of R86: the valid codes run from 0x95 to 0xBE. -/
def allRegs : List Reg := (List.range (0xBE - 0x95 + 1)).filterMap fun k => Reg.ofCode (0x95 + BitVec.ofNat 8 k)

/-- The names `read_reg` and `write_reg` take (R282): every register of R86, the two aliases of R22, PC, FLAGS. -/
def hostNames : List (List Char × HostReg) :=
  (allRegs.map fun c => (regName c, .reg c)) ++
    [(['S', 'P'], .reg .sp), (['F', 'P'], .reg .fp), (['P', 'C'], .pc), (['F', 'L', 'A', 'G', 'S'], .flags)]

/-- What a name denotes, UnknownRegister where it is none of those (R282). -/
def hostRegOf (name : List Char) : Except HostError HostReg :=
  match hostNames.lookup name with
  | some g => .ok g
  | none => .error .unknownRegister

/-- The value of a host-visible register, zero-extended to 16 bits. -/
def hostRegRead (s : State) : HostReg → Word
  | .reg c => regRead s c
  | .pc => s.pc
  | .flags => flagsSlot s.flags

/-- Writes a host-visible register, truncating to its width (R27, R282). -/
def hostRegWrite (s : State) (g : HostReg) (v : Word) : State :=
  match g with
  | .reg c => regWrite s c v
  | .pc => s.withPc v
  | .flags => s.withFlags (slotFlags v)

/-- `read_reg(name)` (R282). -/
def readReg (s : State) (name : List Char) : Except HostError Word :=
  (hostRegOf name).map (hostRegRead s)

/-- `write_reg(name, v)` (R282). -/
def writeReg (s : State) (name : List Char) (v : Word) : Except HostError State :=
  (hostRegOf name).map fun g => hostRegWrite s g v

/-- `read_flags()` (R282). -/
def readFlags (s : State) : FlagWord := s.flags

/-- `read_mem(a, n)` at 1 or 2 bytes: big-endian, the second address wrapping (R282). -/
def hostReadMem (s : State) (a : Word) (W : Width) : Value W :=
  match W with
  | .w8 => s.mem.read a.toNat
  | .w16 => s.mem.read a.toNat ++ s.mem.read (a + 1).toNat

/-- `write_mem(a, n, v)` at 1 or 2 bytes: big-endian, the second address wrapping (R282). -/
def hostWriteMem (s : State) (a : Word) (W : Width) (v : Value W) : State :=
  match W with
  | .w8 => s.withMem (s.mem.write a.toNat v)
  | .w16 => s.withMem ((s.mem.write a.toNat (hiByte v)).write (a + 1).toNat (loByte v))

/-! ## Fault codes (R240) -/

/-- The numeric code of a fault kind, with the sub-kind's number for a decode fault (R240, D27). -/
def faultCode : Fault → Nat × Option Nat
  | .decodeFault .unknownOpcode => (1, some 1)
  | .decodeFault .badModeByte => (1, some 2)
  | .decodeFault .badOperandForm => (1, some 3)
  | .decodeFault .badRegisterCode => (1, some 4)
  | .decodeFault .badVector => (1, some 5)
  | .divideByZero => (2, none)
  | .addressFault => (3, none)

end Sys2Proof.Machine
end

