-- ==== Sys2Proof/Safety.lean ====
section
/-! DEFINITION. The terms the claims use: what a reachable state keeps (`Inv`), what a safe run is, when an
access or a stack operation stays inside the address space, what a read sees, what a store leaves, and the frame
predicates. -/

namespace Sys2Proof.Machine

/-! ## Safe states and safe runs -/

/-- A fault record as R241 describes it: the address is there exactly for an AddressFault, the source number and
the empty byte list only for a hardware entry, at most six instruction bytes. -/
def recordOk (f : FaultRecord) : Bool :=
  (f.addr.isSome == (f.kind == .addressFault)) &&
  (!f.vector.isSome || (f.kind == .addressFault && f.bytes.isEmpty)) &&
  decide (f.bytes.length ≤ maxLength)

/-- The run status holds a record of R241's form, if any. -/
def statusOk : RunStatus → Bool
  | .running => true
  | .halted => true
  | .faulted f => recordOk f

/-- What every step keeps: memory is in canonical form, a fault record is of R241's form, and at
`vreg_width` = 8 VX and VY fit in 8 bits (R25, R27). -/
def Inv (s : State) : Prop :=
  Memory.wf s.mem = true ∧ statusOk s.status = true ∧
    (s.platform.vregWidth = .w8 → s.vx.toNat < 256 ∧ s.vy.toNat < 256)

/-- The state has no fault to report (R240). -/
def NotFaulted (s : State) : Prop :=
  ∀ f, s.status ≠ .faulted f

/-- `n` successive steps, each answering a next state, lead from `s` to `t`. -/
def Steps : Nat → State → State → Prop
  | 0, s, t => s = t
  | n + 1, s, t => ∃ u, step s = .next u ∧ Steps n u t

/-- A run of `n` steps is safe: every step answers a next state that is not Faulted, until the CORE halts. -/
def SafeRun : Nat → State → Prop
  | 0, s => NotFaulted s
  | n + 1, s => NotFaulted s ∧ (s.status = .halted ∨ ∃ t, step s = .next t ∧ SafeRun n t)

/-! ## Staying inside the address space (R67) -/

/-- `addr_policy = wrap`: no data or stack address raises AddressFault (R67). -/
def wraps (s : State) : Bool := s.platform.addrPolicy == .wrap

/-- A memory form's address needs no AddressFault in decode (R91). -/
def formFits (s : State) : MemRef → Bool
  | .direct _ => true
  | .indirect _ => true
  | .indexed c d => wraps s || inSpace (indexSum s c d)

/-- An access of `W / 8` bytes at `a` needs no AddressFault (R63, R64). -/
def accessFits (s : State) (a : Word) : Width → Bool
  | .w8 => true
  | .w16 => wraps s || decide (a ≠ 0xFFFF)

/-- An operand's address can be computed (R91). -/
def indexFits (s : State) : Operand → Bool
  | .mem m => formFits s m
  | .reg _ => true
  | .imm8 _ => true
  | .imm16 _ => true

/-- An operand can be read or written at width `W` without an AddressFault (R67, R91). -/
def operandFits (s : State) (o : Operand) (W : Width) : Bool :=
  match o with
  | .mem m => formFits s m && accessFits s (effAddr s m) W
  | .reg _ => true
  | .imm8 _ => true
  | .imm16 _ => true

/-- `n` slots can be pushed (R65, R67). -/
def pushFits (s : State) (n : Nat) : Bool := wraps s || decide (2 * n ≤ s.sp.toNat)

/-- `n` slots can be popped (R66, R67). -/
def popFits (s : State) (n : Nat) : Bool := wraps s || decide (s.sp.toNat + 2 * n ≤ 0xFFFF)

/-! ## What reads see (R61, R63, R72) -/

/-- The peripheral reads that reading the addresses of a list makes, in order. -/
def readEvents (s : State) (l : List Word) : List BusEvent :=
  l.filterMap fun a => if isMmio s a then some (.read a) else none

/-- The state once the addresses of a list have been read: only peripherals can tell (R61). -/
def seen (s : State) (l : List Word) : State := s.withBus (s.bus ++ readEvents s l)

/-- The byte a read of `a` gives: the peripheral's where one owns `a`, else memory's (R72). -/
def byteIn (s : State) (a : Word) : Byte :=
  if isMmio s a then Config.peripheralByte s.bus a else s.mem.read a.toNat

/-- The word a 2-byte read at `a` gives: big-endian, `a` read first (R63). -/
def wordIn (s : State) (a : Word) : Word := byteIn s a ++ byteIn (seen s [a]) (a + 1)

/-- The value an access of `W / 8` bytes at `a` reads. -/
def memIn (s : State) (a : Word) : (W : Width) → Value W
  | .w8 => byteIn s a
  | .w16 => wordIn s a

/-- The addresses an access of `W / 8` bytes at `a` touches, in order (R63, R64). -/
def accessAddrs (a : Word) : Width → List Word
  | .w8 => [a]
  | .w16 => [a, a + 1]

/-- The addresses of an operand at width `W`; none for a register or an immediate. -/
def operandAddrs (s : State) (o : Operand) (W : Width) : List Word :=
  match o with
  | .mem m => accessAddrs (effAddr s m) W
  | .reg _ => []
  | .imm8 _ => []
  | .imm16 _ => []

/-- The value of an operand at width `W` (R94): registers and immediates zero-extended or truncated, memory by
its bytes; effective addresses from the registers of `s`, bytes read in the state `u`. -/
def operandIn (s u : State) (o : Operand) (W : Width) : Value W :=
  match o with
  | .reg c => (regRead s c).setWidth W.bits
  | .imm8 b => b.setWidth W.bits
  | .imm16 v => v.setWidth W.bits
  | .mem m => memIn u (effAddr s m) W

/-- The amount or bit position of an operand at width `W` (R108), bytes read in the state `u`. -/
def countIn (s u : State) (o : Operand) (W : Width) : Nat :=
  match o with
  | .reg c => (regRead s c).toNat % W.bits
  | .imm8 b => b.toNat % W.bits
  | .imm16 v => v.toNat % W.bits
  | .mem m => (byteIn u (effAddr s m)).toNat % W.bits

/-- The width at which an amount is read from memory: one byte (R108). -/
def countAddrs (s : State) (o : Operand) : List Word := operandAddrs s o .w8

/-- The target of a jump or call (R109). -/
def targetIn (s : State) (t : Target) : Word :=
  match t with
  | .reg c => regRead s c
  | .imm16 v => v
  | .mem m => wordIn s (effAddr s m)

/-! ## What stores leave (R62, R64, R72) -/

/-- The bytes a store of the `W`-bit value `v` at `a` writes, in order (R64). -/
def storedBytes (a : Word) : (W : Width) → Value W → List (Word × Byte)
  | .w8, v => [(a, v)]
  | .w16, v => [(a, hiByte v), (a + 1, loByte v)]

/-- The bytes writing the destination `d` stores; none for a register. -/
def destBytes (s : State) (d : Dst) (W : Width) (v : Value W) : List (Word × Byte) :=
  match d with
  | .reg _ => []
  | .mem m => storedBytes (effAddr s m) W v

/-- The peripheral writes that storing a list of bytes makes, in order (R72). -/
def storeEvents (s : State) (l : List (Word × Byte)) : List BusEvent :=
  l.filterMap fun e => if isMmio s e.1 then some (.write e.1 e.2) else none

/-- Memory in `t` is memory in `s` after the stores of a list of bytes at distinct addresses: each stored byte
is in memory, unless a peripheral owns its address (memory there keeps its byte, the model's choice, assumption 5),
and EVERY other byte is as before. -/
def MemStored (s t : State) (l : List (Word × Byte)) : Prop :=
  (∀ e ∈ l, t.mem.read e.1.toNat = if isMmio s e.1 then s.mem.read e.1.toNat else e.2) ∧
  ∀ a : Nat, (∀ e ∈ l, e.1.toNat ≠ a) → t.mem.read a = s.mem.read a

/-- The bytes of one stack slot. -/
def slotBytes (a v : Word) : List (Word × Byte) := storedBytes a .w16 v

/-! ## Frames -/

/-- Whether writing one register can change what reading another gives: the same register, or a P register and
a byte alias of it (R20 to R25). -/
def overlaps : Reg → Reg → Bool
  | .p n, .ph k => n == k
  | .p n, .pl k => n == k
  | .ph n, .p k => n == k
  | .pl n, .p k => n == k
  | a, b => a == b

/-- Every register that overlaps none of a list reads as before. -/
def RegsKept (s t : State) (written : List Reg) : Prop :=
  ∀ c, (∀ w ∈ written, overlaps c w = false) → regRead t c = regRead s c

/-- Every flag outside a list is as before (R31). -/
def FlagsKept (s t : State) (written : List Flag) : Prop :=
  ∀ x, x ∉ written → t.flag x = s.flag x

/-- The pending latches, the run status and the OPEN parameters are as before. -/
def ControlKept (s t : State) : Prop :=
  t.pending = s.pending ∧ t.status = s.status ∧ t.platform = s.platform

/-- The register a destination names. -/
def destRegs : Dst → List Reg
  | .reg c => [c]
  | .mem _ => []

/-- The destination register, if any, reads as the zero-extended `v` (R95). -/
def DestHolds (t : State) (d : Dst) (W : Width) (v : Value W) : Prop :=
  match d with
  | .reg c => regRead t c = v.setWidth 16
  | .mem _ => True

/-- What an instruction that writes the `W`-bit value `v` to the destination `d` leaves, all but FLAGS: the
destination holds `v`, every other register and EVERY other byte of memory is as before, peripherals saw the
reads of `reads` and then the stores, and the PC is past the instruction. -/
def Wrote (i : Instr) (s t : State) (reads : List Word) (d : Dst) (W : Width) (v : Value W) : Prop :=
  DestHolds t d W v ∧ RegsKept s t (destRegs d) ∧ MemStored s t (destBytes s d W v) ∧
  t.bus = s.bus ++ readEvents s reads ++ storeEvents s (destBytes s d W v) ∧
  t.pc = nextPc i s ∧ ControlKept s t

/-- What an instruction that writes no register and no memory leaves, all but FLAGS and the PC. -/
def WroteNothing (s t : State) (reads : List Word) : Prop :=
  RegsKept s t [] ∧ (∀ a, t.mem.read a = s.mem.read a) ∧ t.bus = s.bus ++ readEvents s reads ∧ ControlKept s t

/-- Z, S and P report the result `r` (R32): Z a zero result, S its top bit, P an even number of 1 bits in its
low byte. -/
def ZspReport {w : Nat} (t : State) (r : BitVec w) : Prop :=
  t.flag .z = decide (r = 0) ∧ t.flag .s = r.msb ∧
  t.flag .p = decide (((List.range 8).countP fun k => r.getLsbD k) % 2 = 0)


/-! ## What taking an interrupt leaves -/

/-- The two slots an entry pushes: the return address at SP - 2, then FLAGS, zero-extended, at SP - 4 (R255). -/
def entryBytes (s : State) (ret : Word) : List (Word × Byte) :=
  slotBytes (s.sp - 2) ret ++ slotBytes (s.sp - 4) (s.flags.setWidth 16)

/-- The address of the handler address of source `n`: 0x0100 + 4n (R73). -/
def handlerSlot (n : Fin 8) : Word := BitVec.ofNat 16 (0x0100 + 4 * n.val)

/-- What `Enter(n, ret)` leaves (R255): the two slots pushed, I cleared, the PC at the handler address read after
the pushes, and the latch of `n` cleared; everything else as before. -/
def Entered (s t : State) (n : Fin 8) (ret : Word) : Prop :=
  t.sp = s.sp - 4 ∧ RegsKept s t [.sp] ∧ MemStored s t (entryBytes s ret) ∧
  t.flag .i = false ∧ FlagsKept s t [.i] ∧
  t.pc = wordIn (t.withBus (s.bus ++ storeEvents s (entryBytes s ret))) (handlerSlot n) ∧
  t.bus = s.bus ++ storeEvents s (entryBytes s ret) ++ readEvents s [handlerSlot n, handlerSlot n + 1] ∧
  (∀ k, getPending t k = if k = n then false else getPending s k) ∧
  t.status = s.status ∧ t.platform = s.platform

/-! ## The stack image of PUSHA (R202, R203) -/

/-- The value of the `k`-th register PUSHA pushes: R0 to R9, then P0 to P7 (R202). -/
def pushaValue (s : State) (k : Nat) : Word :=
  if h : k < 10 then (getR s ⟨k, h⟩).setWidth 16
  else if h : k < 18 then getP s ⟨k - 10, by omega⟩
  else 0

/-- The bytes PUSHA stores: the slot of the `k`-th register is at SP - 2(k + 1) (R202). -/
def pushaBytes (s : State) : List (Word × Byte) :=
  (List.range 18).flatMap fun k => slotBytes (s.sp - BitVec.ofNat 16 (2 * (k + 1))) (pushaValue s k)

/-- The addresses the first `k` pops read, in order (R66). -/
def popAddrs (s : State) (k : Nat) : List Word :=
  (List.range k).flatMap fun j => [s.sp + BitVec.ofNat 16 (2 * j), s.sp + BitVec.ofNat 16 (2 * j) + 1]

/-- The word the pop after `k` others gives (R66, R203). -/
def poppedWord (s : State) (k : Nat) : Word :=
  wordIn (seen s (popAddrs s k)) (s.sp + BitVec.ofNat 16 (2 * k))

/-! ## What an instruction may write (R28, R29) -/

/-- The flags an instruction may write: the column "written by" of R29, read by instruction. -/
def flagsWritten : Instr → List Flag
  | .hlt => []
  | .nop => []
  | .ret => []
  | .iret => [.t, .s, .v, .b, .d, .i, .c, .z, .p, .dir, .h, .e]
  | .pusha => []
  | .popa => []
  | .pushf => []
  | .popf => [.t, .s, .v, .b, .d, .i, .c, .z, .p, .dir, .h, .e]
  | .sti => [.i]
  | .cli => [.i]
  | .std => [.d]
  | .cld => [.d]
  | .mov _ _ => []
  | .add _ _ => [.z, .s, .p, .c, .v]
  | .sub _ _ => [.z, .s, .p, .c, .v]
  | .mul _ _ => [.z, .s, .p, .c, .v]
  | .div _ _ => [.z, .s, .p, .c, .v]
  | .inc _ => [.z, .s, .p, .c, .v]
  | .dec _ => [.z, .s, .p, .c, .v]
  | .cmp _ _ => [.z, .s, .p, .c, .v]
  | .and _ _ => [.z, .s, .p, .c, .v]
  | .or _ _ => [.z, .s, .p, .c, .v]
  | .xor _ _ => [.z, .s, .p, .c, .v]
  | .not _ => [.z, .s, .p, .c, .v]
  | .shl _ _ => [.z, .s, .p, .c]
  | .shr _ _ => [.z, .s, .p, .c]
  | .rol _ _ => [.z, .s, .p, .c]
  | .ror _ _ => [.z, .s, .p, .c]
  | .btst _ _ => [.z]
  | .bset _ _ => [.z]
  | .bclr _ _ => [.z]
  | .bflip _ _ => [.z]
  | .jmp _ => []
  | .jz _ => []
  | .jnz _ => []
  | .jc _ => []
  | .jnc _ => []
  | .js _ => []
  | .jns _ => []
  | .jo _ => []
  | .jno _ => []
  | .call _ => []
  | .push _ => []
  | .pop _ => []
  | .int _ => [.i]

/-- The registers an instruction may write: the table of R28, read by instruction. -/
def regsWritten : Instr → List Reg
  | .hlt => []
  | .nop => []
  | .ret => [.sp]
  | .iret => [.sp]
  | .pusha => [.sp]
  | .popa => .sp :: savedRegs
  | .pushf => [.sp]
  | .popf => [.sp]
  | .sti => []
  | .cli => []
  | .std => []
  | .cld => []
  | .mov d _ => destRegs d
  | .add d _ => destRegs d
  | .sub d _ => destRegs d
  | .mul d _ => destRegs d
  | .div d _ => destRegs d
  | .inc d => destRegs d
  | .dec d => destRegs d
  | .cmp _ _ => []
  | .and d _ => destRegs d
  | .or d _ => destRegs d
  | .xor d _ => destRegs d
  | .not d => destRegs d
  | .shl d _ => destRegs d
  | .shr d _ => destRegs d
  | .rol d _ => destRegs d
  | .ror d _ => destRegs d
  | .btst _ _ => []
  | .bset d _ => destRegs d
  | .bclr d _ => destRegs d
  | .bflip d _ => destRegs d
  | .jmp _ => []
  | .jz _ => []
  | .jnz _ => []
  | .jc _ => []
  | .jnc _ => []
  | .js _ => []
  | .jns _ => []
  | .jo _ => []
  | .jno _ => []
  | .call _ => [.sp]
  | .push _ => [.sp]
  | .pop c => [.sp, c]
  | .int _ => [.sp]

end Sys2Proof.Machine
end

