-- ==== Sys2Proof/Certificates/Slice0/Obligations.lean ====
section
/-! DEFINITION. The statements for the provers. Each follows numbered rules of spec/, named in its docstring. In
all of them `Memory.wf s.mem` is the canonical form of memory that every step keeps (EveryStepKeepsInvariant);
`operandFits`, `pushFits` and `popFits` say that an access stays inside 0..0xFFFF or that `addr_policy` is
`wrap` (R67). Peripheral-owned addresses are NOT shut out: `operandIn` and `wordIn` give what the peripheral
answers there, and `MemStored` and the log `bus` say what a store does there (R72). That memory under a
peripheral-owned address keeps its byte is the model's choice (assumption 5), and that fetch and stack accesses
there go to the peripheral is read by inference (assumption 9); statements that rest on either name it. -/

open Sys2Proof Sys2Proof.Machine

/-! ## Shapes that several statements share -/

/-- An instruction that reads operand 1 and operand 2 at the class-A width, writes `result` to operand 1, reports
Z, S and P of it, and sets C and V as given; no other flag changes. -/
def AluClaim (mk : Dst → Operand → Instr) (result : (w : Nat) → BitVec w → BitVec w → BitVec w)
    (carry overflow : (w : Nat) → BitVec w → BitVec w → Bool) : Prop :=
  ∀ (d : Dst) (x : Operand) (s : State), Memory.wf s.mem = true →
    operandFits s d.toOperand (widthA s d.toOperand x) = true →
    operandFits s x (widthA s d.toOperand x) = true →
    ∀ W, W = widthA s d.toOperand x →
    ∀ a, a = operandIn s s d.toOperand W →
    ∀ b, b = operandIn s (seen s (operandAddrs s d.toOperand W)) x W →
    ∃ t, exec (mk d x) s = .next t ∧
      Wrote (mk d x) s t (operandAddrs s d.toOperand W ++ operandAddrs s x W) d W (result W.bits a b) ∧
      ZspReport t (result W.bits a b) ∧
      t.flag .c = carry W.bits a b ∧ t.flag .v = overflow W.bits a b ∧
      FlagsKept s t [.z, .s, .p, .c, .v]

/-- An instruction that reads operand 1 at the class-B width, writes `result` to it, reports Z, S and P of it, and
sets C and V as given; no other flag changes. -/
def UnaryClaim (mk : Dst → Instr) (result : (w : Nat) → BitVec w → BitVec w)
    (carry overflow : (w : Nat) → BitVec w → Bool) : Prop :=
  ∀ (d : Dst) (s : State), Memory.wf s.mem = true →
    operandFits s d.toOperand (widthB s d.toOperand) = true →
    ∀ W, W = widthB s d.toOperand →
    ∀ a, a = operandIn s s d.toOperand W →
    ∃ t, exec (mk d) s = .next t ∧
      Wrote (mk d) s t (operandAddrs s d.toOperand W) d W (result W.bits a) ∧
      ZspReport t (result W.bits a) ∧
      t.flag .c = carry W.bits a ∧ t.flag .v = overflow W.bits a ∧
      FlagsKept s t [.z, .s, .p, .c, .v]

/-- A shift or rotate by a nonzero effective amount `k`: `result` to operand 1, Z, S and P of it, C as given; V
and every other flag keep their values. -/
def ShiftClaim (mk : Dst → Operand → Instr) (result : (w : Nat) → BitVec w → Nat → BitVec w)
    (carry : (w : Nat) → BitVec w → Nat → Bool) : Prop :=
  ∀ (d : Dst) (x : Operand) (s : State), Memory.wf s.mem = true →
    operandFits s d.toOperand (widthB s d.toOperand) = true → indexFits s x = true →
    ∀ W, W = widthB s d.toOperand →
    ∀ a, a = operandIn s s d.toOperand W →
    ∀ k, k = countIn s (seen s (operandAddrs s d.toOperand W)) x W → k ≠ 0 →
    ∃ t, exec (mk d x) s = .next t ∧
      Wrote (mk d x) s t (operandAddrs s d.toOperand W ++ countAddrs s x) d W (result W.bits a k) ∧
      ZspReport t (result W.bits a k) ∧ t.flag .c = carry W.bits a k ∧ FlagsKept s t [.z, .s, .p, .c]

/-- A bit instruction that writes operand 1: `result` is written, Z is as given, no other flag changes. -/
def BitClaim (mk : Dst → Operand → Instr) (result : (w : Nat) → BitVec w → Nat → BitVec w)
    (zero : (w : Nat) → BitVec w → Nat → Bool) : Prop :=
  ∀ (d : Dst) (x : Operand) (s : State), Memory.wf s.mem = true →
    operandFits s d.toOperand (widthB s d.toOperand) = true → indexFits s x = true →
    ∀ W, W = widthB s d.toOperand →
    ∀ v, v = operandIn s s d.toOperand W →
    ∀ k, k = countIn s (seen s (operandAddrs s d.toOperand W)) x W →
    ∃ t, exec (mk d x) s = .next t ∧
      Wrote (mk d x) s t (operandAddrs s d.toOperand W ++ countAddrs s x) d W (result W.bits v k) ∧
      t.flag .z = zero W.bits v k ∧ FlagsKept s t [.z]

/-- An integer does not fit the signed range of `w` bits. -/
def outsideSigned (w : Nat) (x : Int) : Bool :=
  decide (x < -(2 : Int) ^ (w - 1) ∨ (2 : Int) ^ (w - 1) - 1 < x)

/-- What a push of the word `v` leaves: the slot below SP holds it, SP is 2 less, nothing else changes but the PC. -/
def PushedWord (s t : State) (v : Word) : Prop :=
  t.sp = s.sp - 2 ∧ RegsKept s t [.sp] ∧ MemStored s t (slotBytes (s.sp - 2) v) ∧ t.flags = s.flags ∧
  t.bus = s.bus ++ storeEvents s (slotBytes (s.sp - 2) v) ∧ ControlKept s t

/-- The conditional jumps with the flag each tests and the value on which it is taken (R186 to R193). -/
def conditionalJumps : List ((Target → Instr) × Flag × Bool) :=
  [(.jz, .z, true), (.jnz, .z, false), (.jc, .c, true), (.jnc, .c, false),
   (.js, .s, true), (.jns, .s, false), (.jo, .v, true), (.jno, .v, false)]

/-! ## Reset, registers, memory and the stack -/

/-- R43, R271, R272, R274: what reset leaves, for every `reset_pc` and every value of the OPEN parameters. With
FLAGS 0 no hardware interrupt is taken, whatever is pending, until software sets I: in EVERY state with I = 0, and in
every state with no latch set, none is taken. -/
def Obligations.ResetLeavesTheStatedValues : Prop :=
  (∀ s : State, s.flag .i = false ∨ (∀ n, getPending s n = false) → takenInterrupt s = none) ∧
  ∀ (platform : Platform) (pc : Word), ∃ s, s = State.resetFor platform pc ∧
    (∀ n, getR s n = 0) ∧ (∀ n, n.val < 8 → getP s n = 0) ∧ s.sp = 0xFFFF ∧ getP s 9 = 0xFFFF ∧
    regRead s .vx = 0 ∧ regRead s .vy = 0 ∧ s.flags = 0 ∧ s.pc = pc ∧ (∀ n, getPending s n = false) ∧
    s.status = .running ∧ (∀ a, s.mem.read a = 0) ∧
    ∀ latches, takenInterrupt (s.withPending latches) = none

/-- R270: a reset with no image leaves every byte 0x00; one with an image puts byte `i` at `image_base + i` modulo
65536 and 0x00 everywhere else, sets the PC from `reset_pc` and not from the image, and refuses an image longer than
65,536 bytes. All other state is created afresh, as with no image. -/
def Obligations.ResetPlacesTheImage : Prop :=
  ∀ (platform : Platform) (m : Image) (pc : Word),
    (hostReset platform none pc = .ok (State.resetFor platform pc) ∧
      ∀ a, (State.resetFor platform pc).mem.read a = 0) ∧
    (m.bytes.length ≤ 0x10000 →
      ∃ s, hostReset platform (some m) pc = .ok s ∧ s.pc = pc ∧
        (∀ i, i < m.bytes.length → s.mem.read ((m.base.toNat + i) % 0x10000) = m.bytes.getD i 0) ∧
        (∀ a, (∀ i, i < m.bytes.length → (m.base.toNat + i) % 0x10000 ≠ a) → s.mem.read a = 0) ∧
        s = (State.resetFor platform pc).withMem s.mem) ∧
    (0x10000 < m.bytes.length → hostReset platform (some m) pc = .error .imageTooLarge)

/-- R43: the reset state has the invariant, for every `reset_pc` and every value of the OPEN parameters; so has
`State.reset`, whose PC and parameters are the model's choice (assumptions 1 and 3). -/
def Obligations.ResetStateHasTheInvariant : Prop :=
  ∀ (platform : Platform) (pc : Word), Inv (State.resetFor platform pc) ∧ Inv State.reset

/-- R20 to R27: a register reads as the value written to it, cut to its width; writing a byte alias changes its own
half of the P register and keeps the other half; a register that shares no storage with the written one reads as
before; and nothing but registers changes. -/
def Obligations.RegisterReadsBackTheWrite : Prop :=
  ∀ (s : State) (c : Reg) (v : Word),
    regRead (regWrite s c v) c = (v.setWidth (regWidth s c).bits).setWidth 16 ∧
    RegsKept s (regWrite s c v) [c] ∧ (regWrite s c v).mem = s.mem ∧ (regWrite s c v).flags = s.flags ∧
    (regWrite s c v).pc = s.pc ∧ (regWrite s c v).bus = s.bus ∧ ControlKept s (regWrite s c v) ∧
    ∀ n : Fin 10,
      getP (regWrite s (.ph n) v) n = v.extractLsb' 0 8 ++ (getP s n).extractLsb' 0 8 ∧
      getP (regWrite s (.pl n) v) n = (getP s n).extractLsb' 8 8 ++ v.extractLsb' 0 8

/-- R61, R62, R72: outside `mmio` a byte reads as last written and every other byte is unchanged; inside, a read
gives the peripheral's free byte, and the peripheral sees each access, in order; that memory under it keeps its byte
is the model's choice (assumptions 2 and 5). -/
def Obligations.ByteStoreThenLoad : Prop :=
  ∀ (s : State) (a : Word) (v : Byte), Memory.wf s.mem = true →
    (isMmio s a = false →
      (readByte (writeByte s a v) a) = (v, writeByte s a v) ∧ (writeByte s a v).bus = s.bus ∧
      ∀ b : Word, b ≠ a → (writeByte s a v).mem.read b.toNat = s.mem.read b.toNat) ∧
    (isMmio s a = true →
      readByte s a = (Config.peripheralByte s.bus a, s.withBus (s.bus ++ [.read a])) ∧
      writeByte s a v = s.withBus (s.bus ++ [.write a v]))

/-- R63, R64, R67, R79: a stored word reads back, its high byte at the lower address and its low byte above it;
at 0xFFFF a 2-byte access raises AddressFault for address 0x10000 under `addr_policy = fault`, and under `wrap` it
goes on at address 0. -/
def Obligations.WordAccessIsBigEndianAndChecked : Prop :=
  (∀ (s : State) (a v : Word), Memory.wf s.mem = true → accessFits s a .w16 = true →
    isMmio s a = false → isMmio s (a + 1) = false →
    ∃ t, writeWord s a v = .ok () t ∧ readWord t a = .ok v t ∧
      t.mem.read a.toNat = v.extractLsb' 8 8 ∧ t.mem.read (a + 1).toNat = v.extractLsb' 0 8 ∧
      ∀ b : Nat, b ≠ a.toNat → b ≠ (a + 1).toNat → t.mem.read b = s.mem.read b) ∧
  ∀ (s : State) (v : Word),
    (s.platform.addrPolicy = .fault →
      (∃ bus, readWord s 0xFFFF = .fault .addressFault (some 0x10000) bus) ∧
      ∃ bus, writeWord s 0xFFFF v = .fault .addressFault (some 0x10000) bus) ∧
    (s.platform.addrPolicy = .wrap →
      readWord s 0xFFFF = .ok (byteIn s 0xFFFF ++ byteIn (seen s [0xFFFF]) 0) (seen s [0xFFFF, 0]) ∧
      writeWord s 0xFFFF v =
        .ok () (writeByte (writeByte s 0xFFFF (v.extractLsb' 8 8)) 0 (v.extractLsb' 0 8)))

/-- R65, R66: a push puts the word in the slot below SP, and a pop right after it gives the word back, restores
SP and leaves the slot's bytes in memory. -/
def Obligations.PopGivesBackThePushedWord : Prop :=
  ∀ (s : State) (v : Word), Memory.wf s.mem = true → pushFits s 1 = true →
    isMmio s (s.sp - 2) = false → isMmio s (s.sp - 1) = false →
    ∃ t u, push16 s v = .ok () t ∧ t.sp = s.sp - 2 ∧ pop16 t = .ok v u ∧ u.sp = s.sp ∧ u.mem = t.mem ∧
      RegsKept s u [] ∧ u.mem.read (s.sp - 2).toNat = v.extractLsb' 8 8 ∧
      u.mem.read (s.sp - 1).toNat = v.extractLsb' 0 8

/-! ## Flags -/

/-- R32: SetZSP writes Z, S and P from the result, P from its low byte at either width, and nothing else. -/
def Obligations.ZeroSignParityHelper : Prop :=
  ∀ (W : Width) (r : Value W) (f : FlagWord),
    flagGet (setZSP r f) .z = decide (r = 0) ∧ flagGet (setZSP r f) .s = r.getLsbD (W.bits - 1) ∧
    flagGet (setZSP r f) .p = decide (((List.range 8).countP fun k => r.getLsbD k) % 2 = 0) ∧
    ∀ x, x ≠ .z → x ≠ .s → x ≠ .p → flagGet (setZSP r f) x = flagGet f x

/-- R33: AddFlags reports Z, S and P of the sum cut to the width, C is the carry out, V is signed overflow, by the
range and by the rule on sign bits that R33 gives as equivalent, and every other flag is kept. -/
def Obligations.AddFlagsHelper : Prop :=
  ∀ (W : Width) (a b : Value W) (f : FlagWord), a + b = BitVec.ofNat W.bits (a.toNat + b.toNat) ∧
    flagGet (addFlags a b f) .c = decide (2 ^ W.bits ≤ a.toNat + b.toNat) ∧
    flagGet (addFlags a b f) .v = outsideSigned W.bits (a.toInt + b.toInt) ∧
    flagGet (addFlags a b f) .v = (a.msb == b.msb && (a + b).msb != a.msb) ∧
    ∀ x, x ≠ .c → x ≠ .v → flagGet (addFlags a b f) x = flagGet (setZSP (a + b) f) x

/-- R34, and R180 of the last clause: SubFlags reports Z, S and P of the difference cut to the width, C is the
unsigned borrow, V is signed overflow, by the range and by the rule on sign bits that R34 gives as equivalent, and
every other flag is kept; S differs from V exactly when a is below b as signed numbers. -/
def Obligations.SubFlagsHelper : Prop :=
  ∀ (W : Width) (a b : Value W) (f : FlagWord),
    a - b = BitVec.ofInt W.bits ((a.toNat : Int) - (b.toNat : Int)) ∧
    flagGet (subFlags a b f) .c = decide (a.toNat < b.toNat) ∧
    flagGet (subFlags a b f) .v = outsideSigned W.bits (a.toInt - b.toInt) ∧
    flagGet (subFlags a b f) .v = (a.msb != b.msb && (a - b).msb != a.msb) ∧
    (flagGet (subFlags a b f) .s != flagGet (subFlags a b f) .v) = decide (a.toInt < b.toInt) ∧
    ∀ x, x ≠ .c → x ≠ .v → flagGet (subFlags a b f) x = flagGet (setZSP (a - b) f) x

/-! ## Encoding and decoding -/

/-- R80 to R105: decoding an encoded instruction, whatever bytes follow it, gives it back with its length. -/
def Obligations.DecodeOfEncodeIsTheInstruction : Prop :=
  ∀ (i : Instr) (rest : List Byte), i.wf = true → decodeBytes (encode i ++ rest) = .ok i i.length

/-- R80 to R105: what decodes is a well-formed instruction whose encoding is the very bytes that were fetched, so
every encoding has one meaning. -/
def Obligations.EncodeOfDecodeIsTheFetchedBytes : Prop :=
  ∀ (b : Nat → Byte) (i : Instr) (len : Nat), decode b = .ok i len →
    i.wf = true ∧ len = i.length ∧ 1 ≤ len ∧ len ≤ 6 ∧ encode i = (List.range len).map b

/-- R103: the bytes 0x0C..0x0F, 0x24..0x2F and 0x3D..0xFF are not opcodes, and every other byte is one. -/
def Obligations.UnknownOpcodesAreTheListedBytes : Prop :=
  ∀ b : Nat → Byte, decode b = .bad .unknownOpcode 1 [] ↔
    (0x0C ≤ (b 0).toNat ∧ (b 0).toNat ≤ 0x0F) ∨ (0x24 ≤ (b 0).toNat ∧ (b 0).toNat ≤ 0x2F) ∨
    0x3D ≤ (b 0).toNat

/-- R84, R85: in every instruction with a mode byte, a nonzero `m3`, or a form bit without memory, is BadModeByte;
in a one-operand instruction so is a nonzero `m2` or `x2`. -/
def Obligations.BadModeBytesAreRejected : Prop :=
  ∀ (b : Nat → Byte) (mn : Mnemonic), mnemonicOf (b 0) = some mn →
    (∀ i, mn.shape ≠ .plain i) →
    ((b 1).extractLsb' 4 2 ≠ 0 ∨ ((b 1).getLsbD 6 = true ∧ (b 1).extractLsb' 0 2 ≠ 3) ∨
      ((b 1).getLsbD 7 = true ∧ (b 1).extractLsb' 2 2 ≠ 3) ∨
      (((∃ mk, mn.shape = .dst mk) ∨ (∃ mk, mn.shape = .target mk) ∨ (∃ mk, mn.shape = .reg mk) ∨
          ∃ mk, mn.shape = .vector mk) ∧
        ((b 1).extractLsb' 2 2 ≠ 0 ∨ (b 1).getLsbD 7 = true))) →
    decode b = .bad .badModeByte 2 []

/-- R102, R106 and the encodings of 95_test_vectors.md: some words and the instructions they stand for. -/
def Obligations.WordsOfTheSpecDecode : Prop :=
  decodeBytes [0x10, 0x08, 0xB9, 0xAA, 0xAA] = .ok (.mov (.reg (.p 6)) (.imm16 0xAAAA)) 5 ∧
  decodeBytes [0x10, 0x8C, 0xAA, 0xF5, 0x01] = .ok (.mov (.reg (.r 1)) (.mem (.indexed (.p 2) 1))) 5 ∧
  decodeBytes [0x39, 0x02, 0x03, 0x00] = .ok (.call (.imm16 0x0300)) 4 ∧
  decodeBytes [0x3C, 0x01, 0x03] = .ok (.int 3) 3 ∧
  decodeBytes [0x3C, 0x01, 0x08] = .bad .badVector 3 [.imm8 8] ∧
  decodeBytes [0x10, 0x05, 0x01, 0x02] = .bad .badOperandForm 2 []

/-! ## The step cycle -/

/-- R101: in the status Running with no interrupt to take, a step runs the instruction that decodes at the program
counter. Where no peripheral owns a fetched address it runs on the state itself. Where one does, it runs on the state
in which only peripherals have seen the fetch; that they see it, and give the bytes fetched from their addresses, is
the model's choice, read by inference (assumption 9). -/
def Obligations.StepRunsTheDecodedInstruction : Prop :=
  ∀ (s : State) (i : Instr) (len : Nat), s.status = .running → takenInterrupt s = none →
    decode (fetchByte s) = .ok i len →
    ((∀ o ∈ i.operands, indexFits s o = true) → step s = exec i (afterFetch s len)) ∧
    ((∀ k, k < len → isMmio s (fetchAddr s k) = false) → step s = exec i s)

/-- R101, R37, R68: an instruction whose encoding stands in memory at the program counter, wrapping past 0xFFFF, is
what a step runs. -/
def Obligations.StoredEncodingRuns : Prop :=
  ∀ (s : State) (i : Instr), i.wf = true → s.status = .running → takenInterrupt s = none →
    (∀ k, k < i.length → isMmio s (s.pc + BitVec.ofNat 16 k) = false ∧
      s.mem.read (s.pc + BitVec.ofNat 16 k).toNat = (encode i).getD k 0) →
    step s = exec i s

/-- R97, R242, R246: in the status Running with no interrupt to take, bytes that do not decode leave everything as
it was but the status, which holds the sub-kind, the PC and the bytes fetched so far (no peripheral owning the
addresses fetched, no indexed operand before the failing byte out of range). -/
def Obligations.DecodeFaultIsPrecise : Prop :=
  ∀ (s : State) (sub : DecodeSub) (len : Nat) (before : List Operand), s.status = .running →
    takenInterrupt s = none → decode (fetchByte s) = .bad sub len before →
    (∀ o ∈ before, indexFits s o = true) → (∀ k, k < len → isMmio s (fetchAddr s k) = false) →
    step s = .next (s.withStatus (.faulted
      { kind := .decodeFault sub, pc := s.pc,
        bytes := (List.range len).map fun k => s.mem.read (s.pc + BitVec.ofNat 16 k).toNat,
        addr := none, vector := none }))

/-- R244: a step of a CORE that is Halted or Faulted is the host error StepWhenStopped. -/
def Obligations.StoppedCoreRefusesTheStep : Prop :=
  ∀ s : State, s.status ≠ .running → step s = .refused .stepWhenStopped

/-- R101, R253 to R255: with I set, the lowest pending source is entered first, with the PC as the return address, and
the step then runs the handler's first instruction, as a step from the entered state does. At a peripheral-owned
address, that memory keeps its byte is the model's choice (assumption 5), and that stack accesses go to the peripheral
is read by inference (assumption 9). -/
def Obligations.PendingInterruptIsEnteredFirst : Prop :=
  ∀ (s : State) (n : Fin 8), Memory.wf s.mem = true → s.status = .running → s.flag .i = true →
    getPending s n = true → (∀ k, k < n → getPending s k = false) → pushFits s 2 = true →
    ∃ u, Entered s u n s.pc ∧ step s = step u ∧ step s = runAtPc u

/-- R256: an entry whose pushes would take SP below 0 leaves everything as it was but the status (and what
peripherals saw), which holds the PC that would have been pushed, no bytes, the address and the source. -/
def Obligations.EntryWithoutStackFaults : Prop :=
  ∀ (s : State) (n : Fin 8), s.status = .running → s.flag .i = true → getPending s n = true →
    (∀ k, k < n → getPending s k = false) → pushFits s 2 = false →
    ∃ x bus, x < 0 ∧ step s = .next (s.raise
      { kind := .addressFault, pc := s.pc, bytes := [], addr := some x, vector := some n } bus)

/-! ## Rules of the whole machine -/

/-- Every step keeps the invariant: memory in canonical form (R60), a fault record of the form of R241 (with no
source number for INT, assumption 11), and at `vreg_width` = 8 VX and VY within 8 bits (R27; assumption 6). -/
def Obligations.EveryStepKeepsInvariant : Prop :=
  ∀ s t : State, Inv s → step s = .next t → Inv t

/-- R8, R242, R243, R230: every instruction answers a next state in every state. It leaves the status alone, or it is
HLT and the status becomes Halted, or it faults, and then EVERYTHING is as it was before but the status, which holds
the PC of the instruction, and what peripherals have seen, which only grew. None changes the OPEN parameters. That the
record of INT holds no source number is the model's reading (assumption 11). -/
def Obligations.EveryInstructionEndsAndFaultsArePrecise : Prop :=
  ∀ (i : Instr) (s : State), ∃ t, exec i s = .next t ∧ t.platform = s.platform ∧
    (t.status = s.status ∨ (i = .hlt ∧ t.status = .halted) ∨
      ∃ f bus, f.pc = s.pc ∧ f.vector = none ∧ s.bus <+: bus ∧ t = s.raise f bus)

/-- R250, R251, R282: a request sets its own latch and nothing else, there is no source above 7, no instruction sets
a latch, and only INT n clears one, its own. -/
def Obligations.LatchesFollowRequestsAndService : Prop :=
  (∀ (s : State) (n : Nat),
    (∀ h : n < 8, ∃ t, raiseIrq s n = .ok t ∧
      (∀ k, getPending t k = if k = ⟨n, h⟩ then true else getPending s k) ∧ t = s.withPending t.pending) ∧
    (7 < n → raiseIrq s n = .error .badSource)) ∧
  ∀ (i : Instr) (s t : State), exec i s = .next t → ∀ n : Fin 8,
    getPending t n = getPending s n ∨ (i = .int (BitVec.ofNat 8 n.val) ∧ getPending t n = false)

/-- R29, R31: an instruction changes no flag but those R29 lists for it; T, B, Dir, H and E change by POPF and
IRET alone. -/
def Obligations.FlagsChangeOnlyByTheirInstructions : Prop :=
  ∀ (i : Instr) (s t : State), exec i s = .next t → FlagsKept s t (flagsWritten i)

/-- R28: an instruction changes no register but those R28 lists for it. -/
def Obligations.RegistersChangeOnlyByTheirInstructions : Prop :=
  ∀ (i : Instr) (s t : State), exec i s = .next t → RegsKept s t (regsWritten i)

/-- R67: under `addr_policy = wrap` no instruction raises AddressFault. -/
def Obligations.WrapPolicyRaisesNoAddressFault : Prop :=
  ∀ (i : Instr) (s t : State), s.platform.addrPolicy = .wrap → exec i s = .next t →
    t.status = s.status ∨ t.status = .halted ∨ ∃ f, t.status = .faulted f ∧ f.kind ≠ .addressFault

/-- An instruction raises AddressFault for the second byte of a 2-byte access at 0xFFFF: the record holds the PC, all
its bytes and the address 0x10000, and nothing else changes but what peripherals saw. -/
def FaultsAtTop (i : Instr) (s : State) : Prop :=
  ∃ bus, exec i s = .next (s.raise
    { kind := .addressFault, pc := s.pc, bytes := encode i, addr := some 0x10000, vector := none } bus)

/-- R63, R64, R67, R91, R105, R248: an operand whose address leaves 0..0xFFFF. First, an INDEXED operand out of range
raises AddressFault before anything else happens: nothing changes but the status, which holds the PC, an address
outside 0..0xFFFF, and bytes the instruction begins with; how many is read from R105 (assumption 8). A conditional
jump does so only when taken (R186 to R193; that this holds of an indexed address too is assumption 10). Then, with
every address computable, an operand that does not fit at the operation width, which is a word at 0xFFFF under
`addr_policy = fault`, raises AddressFault for 0x10000 in every instruction that can access a word. -/
def Obligations.OperandOutOfRangeFaults : Prop :=
  (∀ (i : Instr) (s : State) (o : Operand),
    (∀ e ∈ conditionalJumps, ∀ g, i = e.1 g → s.flag e.2.1 = e.2.2) → o ∈ i.operands → indexFits s o = false →
    ∃ f x, exec i s = .next (s.withStatus (.faulted f)) ∧ f.kind = .addressFault ∧ f.pc = s.pc ∧
      f.addr = some x ∧ (x < 0 ∨ 0xFFFF < x) ∧ f.bytes <+: encode i ∧ f.vector = none) ∧
  (∀ mk ∈ [Instr.mov, .add, .sub, .mul, .div, .and, .or, .xor], ∀ (d : Dst) (x : Operand) (s : State),
    indexFits s d.toOperand = true → indexFits s x = true →
    (operandFits s d.toOperand (widthA s d.toOperand x) = false ∨
      operandFits s x (widthA s d.toOperand x) = false) → FaultsAtTop (mk d x) s) ∧
  (∀ (o x : Operand) (s : State), indexFits s o = true → indexFits s x = true →
    (operandFits s o (widthA s o x) = false ∨ operandFits s x (widthA s o x) = false) → FaultsAtTop (.cmp o x) s) ∧
  (∀ mk ∈ [Instr.jmp, .call], ∀ (g : Target) (s : State), indexFits s g.toOperand = true →
    operandFits s g.toOperand .w16 = false → FaultsAtTop (mk g) s) ∧
  ∀ e ∈ conditionalJumps, ∀ (g : Target) (s : State), s.flag e.2.1 = e.2.2 → indexFits s g.toOperand = true →
    operandFits s g.toOperand .w16 = false → FaultsAtTop (e.1 g) s

/-- An instruction raises AddressFault for an address below 0 in its own pushes: the record holds the PC and all
its bytes, and nothing else changes but what peripherals saw. -/
def FaultsBelow (i : Instr) (s : State) : Prop :=
  ∃ f x bus, exec i s = .next (s.raise f bus) ∧ f.kind = .addressFault ∧ f.pc = s.pc ∧ f.addr = some x ∧ x < 0 ∧
    f.bytes = encode i ∧ f.vector = none

/-- An instruction raises AddressFault for an address above 0xFFFF in its own pops, in the same way. -/
def FaultsAbove (i : Instr) (s : State) : Prop :=
  ∃ f x bus, exec i s = .next (s.raise f bus) ∧ f.kind = .addressFault ∧ f.pc = s.pc ∧ f.addr = some x ∧
    0xFFFF < x ∧ f.bytes = encode i ∧ f.vector = none

/-- R65, R66, R247: a push that would take SP below 0 and a pop that would take it past 0xFFFF raise AddressFault,
with all the bytes of the instruction; only the status changes, and what peripherals saw. That the record of INT
holds no source number is read from R241 and R247 (assumption 11). -/
def Obligations.StackOutOfRangeFaults : Prop :=
  ∀ s : State,
    (∀ c, pushFits s 1 = false → FaultsBelow (.push c) s) ∧ (pushFits s 1 = false → FaultsBelow .pushf s) ∧
    (pushFits s 18 = false → FaultsBelow .pusha s) ∧
    (∀ g : Target, operandFits s g.toOperand .w16 = true → pushFits s 1 = false → FaultsBelow (.call g) s) ∧
    (∀ n : Fin 8, pushFits s 2 = false → FaultsBelow (.int (BitVec.ofNat 8 n.val)) s) ∧
    (∀ c, popFits s 1 = false → FaultsAbove (.pop c) s) ∧ (popFits s 1 = false → FaultsAbove .popf s) ∧
    (popFits s 18 = false → FaultsAbove .popa s) ∧ (popFits s 1 = false → FaultsAbove .ret s) ∧
    (popFits s 2 = false → FaultsAbove .iret s)

/-! ## Widths, addresses and the default advance (R91, R93, R100) -/

/-- R91, R93, R100, which every statement about an instruction shares. The operation width: class A takes operand
1's own width, else operand 2's, else 8; class B takes operand 1's, else 8. The effective address of each memory
form. The PC after an instruction that does not redirect control. -/
def Obligations.WidthsAddressesAndNextPc : Prop :=
  (∀ (s : State) (a : Word) (c : Reg) (d : Byte) (i : Instr),
    effAddr s (.direct a) = a ∧ effAddr s (.indirect c) = regRead s c ∧
    effAddr s (.indexed c d) = BitVec.ofInt 16 ((regRead s c).toNat + d.toInt) ∧
    nextPc i s = s.pc + BitVec.ofNat 16 i.length) ∧
  ∀ (s : State) (n : Fin 10) (m m' : MemRef) (o : Operand) (b : Byte) (v : Word),
    widthA s (.reg (.r n)) o = .w8 ∧ widthA s (.reg (.p n)) o = .w16 ∧ widthA s (.reg (.ph n)) o = .w8 ∧
    widthA s (.reg (.pl n)) o = .w8 ∧ widthA s (.reg .vx) o = s.platform.vregWidth ∧
    widthA s (.reg .vy) o = s.platform.vregWidth ∧ widthA s (.imm8 b) o = .w8 ∧ widthA s (.imm16 v) o = .w16 ∧
    (∀ c, widthA s (.mem m) (.reg c) = regWidth s c) ∧ widthA s (.mem m) (.imm8 b) = .w8 ∧
    widthA s (.mem m) (.imm16 v) = .w16 ∧ widthA s (.mem m) (.mem m') = .w8 ∧
    (∀ c, widthB s (.reg c) = regWidth s c) ∧ widthB s (.imm8 b) = .w8 ∧ widthB s (.imm16 v) = .w16 ∧
    widthB s (.mem m) = .w8

/-! ## Data movement and arithmetic -/

/-- R120: MOV copies the source, at the class-A width, to the destination; no flag and nothing else changes. That
memory under a peripheral-owned address keeps its byte is the model's choice (assumption 5). -/
def Obligations.MovCopiesTheSource : Prop :=
  ∀ (d : Dst) (x : Operand) (s : State), Memory.wf s.mem = true →
    operandFits s d.toOperand (widthA s d.toOperand x) = true →
    operandFits s x (widthA s d.toOperand x) = true →
    ∀ W, W = widthA s d.toOperand x →
    ∃ t, exec (.mov d x) s = .next t ∧
      Wrote (.mov d x) s t (operandAddrs s x W) d W (operandIn s s x W) ∧ t.flags = s.flags

/-- R130: ADD. That memory under a peripheral-owned address keeps its byte is the model's choice (assumption 5). -/
def Obligations.AddResultAndFlags : Prop :=
  AluClaim .add (fun _ a b => a + b) (fun w a b => decide (2 ^ w ≤ a.toNat + b.toNat))
    (fun w a b => outsideSigned w (a.toInt + b.toInt))

/-- R131: SUB. That memory under a peripheral-owned address keeps its byte is the model's choice (assumption 5). -/
def Obligations.SubResultAndFlags : Prop :=
  AluClaim .sub (fun _ a b => a - b) (fun _ a b => decide (a.toNat < b.toNat))
    (fun w a b => outsideSigned w (a.toInt - b.toInt))

/-- R132: MUL keeps the low bits of the product; C and V say whether the unsigned and the signed product fit. That
memory under a peripheral-owned address keeps its byte is the model's choice (assumption 5). -/
def Obligations.MulResultAndFlags : Prop :=
  AluClaim .mul (fun w a b => BitVec.ofNat w (a.toNat * b.toNat)) (fun w a b => decide (2 ^ w ≤ a.toNat * b.toNat))
    (fun w a b => outsideSigned w (a.toInt * b.toInt))

/-- R133, R245: DIV by a nonzero divisor gives the unsigned quotient and clears C and V; by a divisor that is 0 at
width W it faults, changing nothing but the status and what peripherals saw. That memory under a peripheral-owned
address keeps its byte is the model's choice (assumption 5). That the reads a peripheral saw before the fault stay
delivered is read by inference (assumption 14). -/
def Obligations.DivResultOrFault : Prop :=
  ∀ (d : Dst) (x : Operand) (s : State), Memory.wf s.mem = true →
    operandFits s d.toOperand (widthA s d.toOperand x) = true →
    operandFits s x (widthA s d.toOperand x) = true →
    ∀ W, W = widthA s d.toOperand x →
    ∀ a, a = operandIn s s d.toOperand W →
    ∀ b, b = operandIn s (seen s (operandAddrs s d.toOperand W)) x W →
    (b ≠ 0 → ∃ t, exec (.div d x) s = .next t ∧
      Wrote (.div d x) s t (operandAddrs s d.toOperand W ++ operandAddrs s x W) d W
        (BitVec.ofNat W.bits (a.toNat / b.toNat)) ∧
      ZspReport t (BitVec.ofNat W.bits (a.toNat / b.toNat)) ∧ t.flag .c = false ∧ t.flag .v = false ∧
      FlagsKept s t [.z, .s, .p, .c, .v]) ∧
    (b = 0 → exec (.div d x) s = .next (s.raise
      { kind := .divideByZero, pc := s.pc, bytes := encode (.div d x), addr := none, vector := none }
      (s.bus ++ readEvents s (operandAddrs s d.toOperand W ++ operandAddrs s x W))))

/-- R134, R135: INC adds 1 with the flags of an addition, DEC subtracts 1 with the flags of a subtraction, the carry
and the borrow in C included. That memory under a peripheral-owned address keeps its byte is the model's choice
(assumption 5). -/
def Obligations.IncAndDecResultAndFlags : Prop :=
  UnaryClaim .inc (fun w a => BitVec.ofNat w (a.toNat + 1)) (fun w a => decide (a.toNat + 1 = 2 ^ w))
    (fun w a => decide (a.toInt + 1 = (2 : Int) ^ (w - 1))) ∧
  UnaryClaim .dec (fun _ a => a - 1) (fun _ a => decide (a = 0))
    (fun w a => decide (a.toInt = -(2 : Int) ^ (w - 1)))

/-- R180: CMP writes the flags of a subtract and nothing else; Z is set exactly when the operands are equal. -/
def Obligations.CmpOnlySetsFlags : Prop :=
  ∀ (o x : Operand) (s : State), operandFits s o (widthA s o x) = true → operandFits s x (widthA s o x) = true →
    ∀ W, W = widthA s o x →
    ∀ a, a = operandIn s s o W →
    ∀ b, b = operandIn s (seen s (operandAddrs s o W)) x W →
    ∃ t, exec (.cmp o x) s = .next t ∧ WroteNothing s t (operandAddrs s o W ++ operandAddrs s x W) ∧
      t.pc = nextPc (.cmp o x) s ∧ ZspReport t (a - b) ∧ t.flag .z = decide (a = b) ∧
      t.flag .c = decide (a.toNat < b.toNat) ∧ t.flag .v = outsideSigned W.bits (a.toInt - b.toInt) ∧
      FlagsKept s t [.z, .s, .p, .c, .v]

/-! ## Logic, shifts and bits -/

/-- R150 to R152: AND, OR and XOR; C and V are cleared. That memory under a peripheral-owned address keeps its byte is
the model's choice (assumption 5). -/
def Obligations.LogicResultAndFlags : Prop :=
  AluClaim .and (fun _ a b => a &&& b) (fun _ _ _ => false) (fun _ _ _ => false) ∧
  AluClaim .or (fun _ a b => a ||| b) (fun _ _ _ => false) (fun _ _ _ => false) ∧
  AluClaim .xor (fun _ a b => a ^^^ b) (fun _ _ _ => false) (fun _ _ _ => false)

/-- R153: NOT gives (2^W - 1) - a; C and V are cleared. That memory under a peripheral-owned address keeps its byte is
the model's choice (assumption 5). -/
def Obligations.NotResultAndFlags : Prop :=
  UnaryClaim .not (fun w a => BitVec.ofNat w (2 ^ w - 1 - a.toNat)) (fun _ _ => false) (fun _ _ => false)

/-- R160, R161: SHL and SHR by k > 0: zeros enter, SHR is logical, C is the last bit shifted out, a[W - k] for SHL and
a[k - 1] for SHR. That memory under a peripheral-owned address keeps its byte is the model's choice (assumption 5). -/
def Obligations.ShiftResultAndFlags : Prop :=
  ShiftClaim .shl (fun w a k => BitVec.ofNat w (a.toNat * 2 ^ k)) (fun w a k => a.getLsbD (w - k)) ∧
  ShiftClaim .shr (fun w a k => BitVec.ofNat w (a.toNat / 2 ^ k)) (fun _ a k => a.getLsbD (k - 1))

/-- R162, R163: ROL and ROR by k > 0 rotate left and right; C is a[W - k] for ROL and a[k - 1] for ROR. That memory
under a peripheral-owned address keeps its byte is the model's choice (assumption 5). -/
def Obligations.RotateResultAndFlags : Prop :=
  ShiftClaim .rol (fun _ a k => a.rotateLeft k) (fun w a k => a.getLsbD (w - k)) ∧
  ShiftClaim .ror (fun _ a k => a.rotateRight k) (fun _ a k => a.getLsbD (k - 1))

/-- 43_shift_rotate.md, D19: by an effective amount of 0, SHL, SHR, ROL and ROR change nothing but the PC (and what
peripherals saw). -/
def Obligations.ShiftByZeroChangesOnlyThePc : Prop :=
  ∀ mk ∈ [Instr.shl, Instr.shr, Instr.rol, Instr.ror], ∀ (d : Dst) (x : Operand) (s : State),
    operandFits s d.toOperand (widthB s d.toOperand) = true → indexFits s x = true →
    countIn s (seen s (operandAddrs s d.toOperand (widthB s d.toOperand))) x (widthB s d.toOperand) = 0 →
    exec (mk d x) s = .next ((seen s (operandAddrs s d.toOperand (widthB s d.toOperand) ++ countAddrs s x)).withPc
      (nextPc (mk d x) s))

/-- R170: BTST sets Z where the tested bit is 0 and changes nothing else; an immediate operand 1 is legal. -/
def Obligations.BtstOnlySetsZero : Prop :=
  ∀ (o x : Operand) (s : State), operandFits s o (widthB s o) = true → indexFits s x = true →
    ∀ W, W = widthB s o →
    ∀ v, v = operandIn s s o W →
    ∀ k, k = countIn s (seen s (operandAddrs s o W)) x W →
    ∃ t, exec (.btst o x) s = .next t ∧ WroteNothing s t (operandAddrs s o W ++ countAddrs s x) ∧
      t.pc = nextPc (.btst o x) s ∧ t.flag .z = !v.getLsbD k ∧ FlagsKept s t [.z]

/-- R171 to R173: BSET, BCLR and BFLIP change bit k alone; Z reports the new bit: 0 set, 1 clear, the old bit. That
memory under a peripheral-owned address keeps its byte is the model's choice (assumption 5). -/
def Obligations.BitInstructionsChangeOneBit : Prop :=
  BitClaim .bset (fun w v k => v ||| BitVec.twoPow w k) (fun _ _ _ => false) ∧
  BitClaim .bclr (fun w v k => v &&& ~~~ BitVec.twoPow w k) (fun _ _ _ => true) ∧
  BitClaim .bflip (fun w v k => v ^^^ BitVec.twoPow w k) (fun _ v k => v.getLsbD k)

/-! ## Control flow -/

/-- R185: JMP goes to its target; nothing else changes but what peripherals saw. -/
def Obligations.JmpGoesToItsTarget : Prop :=
  ∀ (t : Target) (s : State), operandFits s t.toOperand .w16 = true →
    exec (.jmp t) s = .next ((seen s (operandAddrs s t.toOperand .w16)).withPc (targetIn s t))

/-- R186 to R193: a conditional jump goes to its target exactly when its flag has its value; otherwise the PC
advances, whatever the target: an AddressFault comes from the target only when the jump is taken (D16; that this
holds of an indexed address too is assumption 10). -/
def Obligations.ConditionalJumpsTestTheirFlag : Prop :=
  ∀ e ∈ conditionalJumps, ∀ (t : Target) (s : State),
    (s.flag e.2.1 = e.2.2 → operandFits s t.toOperand .w16 = true →
      exec (e.1 t) s = .next ((seen s (operandAddrs s t.toOperand .w16)).withPc (targetIn s t))) ∧
    (s.flag e.2.1 ≠ e.2.2 → exec (e.1 t) s = .next (s.withPc (nextPc (e.1 t) s)))

/-- R194: CALL reads its target first, pushes the address after the instruction and goes to the target. At a
peripheral-owned address, that memory keeps its byte is the model's choice (assumption 5), and that stack accesses go
to the peripheral is read by inference (assumption 9). -/
def Obligations.CallPushesTheReturnAddress : Prop :=
  ∀ (g : Target) (s : State), Memory.wf s.mem = true → operandFits s g.toOperand .w16 = true →
    pushFits s 1 = true →
    ∃ t, exec (.call g) s = .next t ∧ t.pc = targetIn s g ∧
      PushedWord (seen s (operandAddrs s g.toOperand .w16)) t (nextPc (.call g) s)

/-- R195: RET pops the PC; nothing else changes but SP and what peripherals saw. That stack accesses at a
peripheral-owned address go to the peripheral is read by inference (assumption 9). -/
def Obligations.RetPopsThePc : Prop :=
  ∀ s : State, popFits s 1 = true →
    exec .ret s = .next ((setSp (seen s [s.sp, s.sp + 1]) (s.sp + 2)).withPc (wordIn s s.sp))

/-! ## The stack -/

/-- R200: PUSH pushes the register's value before SP changes, zero-extended. At a peripheral-owned address, that
memory keeps its byte is the model's choice (assumption 5), and that stack accesses go to the peripheral is read by
inference (assumption 9). -/
def Obligations.PushStoresTheRegister : Prop :=
  ∀ (c : Reg) (s : State), Memory.wf s.mem = true → pushFits s 1 = true →
    ∃ t, exec (.push c) s = .next t ∧ PushedWord s t (regRead s c) ∧ t.pc = nextPc (.push c) s

/-- R201: POP adds 2 to SP and then writes the register with the slot's word, cut to its width. That stack accesses at
a peripheral-owned address go to the peripheral is read by inference (assumption 9). -/
def Obligations.PopLoadsTheRegister : Prop :=
  ∀ (c : Reg) (s : State), popFits s 1 = true →
    ∃ t, exec (.pop c) s = .next t ∧
      regRead t c = ((wordIn s s.sp).setWidth (regWidth s c).bits).setWidth 16 ∧
      (overlaps .sp c = false → t.sp = s.sp + 2) ∧ RegsKept s t [.sp, c] ∧
      (c = .ph 8 → t.sp = (wordIn s s.sp).extractLsb' 0 8 ++ (s.sp + 2).extractLsb' 0 8) ∧
      (c = .pl 8 → t.sp = (s.sp + 2).extractLsb' 8 8 ++ (wordIn s s.sp).extractLsb' 0 8) ∧
      t.mem = s.mem ∧ t.flags = s.flags ∧ t.pc = nextPc (.pop c) s ∧ ControlKept s t ∧
      t.bus = s.bus ++ readEvents s [s.sp, s.sp + 1]

/-- R202: PUSHA pushes R0 to R9, then P0 to P7, one slot each. At a peripheral-owned address, that memory keeps its
byte is the model's choice (assumption 5), and that stack accesses go to the peripheral is read by inference
(assumption 9). -/
def Obligations.PushaStoresEighteenSlots : Prop :=
  ∀ s : State, Memory.wf s.mem = true → pushFits s 18 = true →
    ∃ t, exec .pusha s = .next t ∧ t.sp = s.sp - 36 ∧ RegsKept s t [.sp] ∧ MemStored s t (pushaBytes s) ∧
      t.bus = s.bus ++ storeEvents s (pushaBytes s) ∧ t.flags = s.flags ∧ t.pc = s.pc + 1 ∧ ControlKept s t

/-- R203: POPA pops P7 to P0, then R9 to R0; SP ends 36 higher; FP, VX and VY are not loaded. That stack accesses at a
peripheral-owned address go to the peripheral is read by inference (assumption 9). -/
def Obligations.PopaLoadsEighteenSlots : Prop :=
  ∀ s : State, popFits s 18 = true →
    ∃ t, exec .popa s = .next t ∧ t.sp = s.sp + 36 ∧
      (∀ n : Fin 8, getP t (n.castLE (by decide)) = poppedWord s (7 - n.val)) ∧
      (∀ n : Fin 10, getR t n = (poppedWord s (17 - n.val)).extractLsb' 0 8) ∧
      RegsKept s t (.sp :: savedRegs) ∧ t.mem = s.mem ∧ t.flags = s.flags ∧
      t.pc = s.pc + 1 ∧ ControlKept s t ∧ t.bus = s.bus ++ readEvents s (popAddrs s 18)

/-- R203 (the source's property): PUSHA then POPA restores R0 to R9, P0 to P7 and SP, whatever happened to the
registers in between, as long as SP and the stack's bytes are the same and no peripheral owns them. -/
def Obligations.PopaRestoresWhatPushaSaved : Prop :=
  ∀ s : State, Memory.wf s.mem = true → pushFits s 18 = true →
    (∀ e ∈ pushaBytes s, isMmio s e.1 = false) →
    ∃ t, exec .pusha s = .next t ∧
      ∀ t' : State, t'.sp = t.sp → t'.platform = t.platform →
        (∀ e ∈ pushaBytes s, t'.mem.read e.1.toNat = t.mem.read e.1.toNat) →
        ∃ u, exec .popa t' = .next u ∧ u.sp = s.sp ∧ (∀ n, getR u n = getR s n) ∧
          ∀ n : Fin 10, n.val < 8 → getP u n = getP s n

/-- R204, R205: PUSHF pushes all 12 flags with bits 15..12 of the slot 0; POPF loads all 12 from the slot's low 12
bits. At a peripheral-owned address, that memory keeps its byte is the model's choice (assumption 5), and that stack
accesses go to the peripheral is read by inference (assumption 9). -/
def Obligations.PushfStoresAndPopfLoadsTheFlags : Prop :=
  (∀ s : State, Memory.wf s.mem = true → pushFits s 1 = true →
    ∃ t, exec .pushf s = .next t ∧ PushedWord s t (BitVec.ofNat 16 s.flags.toNat) ∧ t.pc = s.pc + 1) ∧
  ∀ s : State, popFits s 1 = true →
    exec .popf s = .next (((setSp (seen s [s.sp, s.sp + 1]) (s.sp + 2)).withFlags
      ((wordIn s s.sp).extractLsb' 0 12)).withPc (s.pc + 1))

/-! ## Interrupt and flag control, halt and no-operation -/

/-- R215, R216, R219, R220: STI and CLI write I, STD and CLD write D; nothing else changes but the PC. -/
def Obligations.FlagControlWritesOneFlag : Prop :=
  ∀ e ∈ [(Instr.sti, Flag.i, true), (.cli, .i, false), (.std, .d, true), (.cld, .d, false)], ∀ s : State,
    ∃ t, exec e.1 s = .next t ∧ t.flag e.2.1 = e.2.2 ∧ FlagsKept s t [e.2.1] ∧
      t = (s.withFlags t.flags).withPc (s.pc + 1)

/-- R217, R255, R257, R96: INT n enters vector n whatever I holds, with the address after the INT as the return
address, and clears PENDING[n]; a vector above 7 is BadVector. At a peripheral-owned address, that memory keeps its
byte is the model's choice (assumption 5), and that stack accesses go to the peripheral is read by inference
(assumption 9). The clause for a vector above 7 is about a term decode never gives, the model's choice (assumption
20). -/
def Obligations.IntEntersItsVector : Prop :=
  (∀ (n : Fin 8) (s : State), Memory.wf s.mem = true → pushFits s 2 = true →
    ∃ t, exec (.int (BitVec.ofNat 8 n.val)) s = .next t ∧ Entered s t n (s.pc + 3)) ∧
  ∀ (n : Byte) (s : State), 7 < n.toNat →
    exec (.int n) s = .next (s.withStatus (.faulted
      { kind := .decodeFault .badVector, pc := s.pc, bytes := [0x3C, 0x01, n], addr := none, vector := none }))

/-- R218: IRET pops FLAGS, then the PC; nothing else changes but SP and what peripherals saw. That stack accesses at a
peripheral-owned address go to the peripheral is read by inference (assumption 9). -/
def Obligations.IretPopsFlagsThenPc : Prop :=
  ∀ s : State, popFits s 2 = true →
    exec .iret s = .next (((setSp (seen s [s.sp, s.sp + 1, s.sp + 2, s.sp + 3]) (s.sp + 4)).withFlags
      ((wordIn s s.sp).extractLsb' 0 12)).withPc (wordIn (seen s [s.sp, s.sp + 1]) (s.sp + 2)))

/-- R258 (the source's property): IRET gives back the PC and FLAGS an entry saved, and SP, as long as SP and the
four bytes are the same and no peripheral owns them. -/
def Obligations.IretUndoesTheEntry : Prop :=
  ∀ (s : State) (n : Fin 8) (ret : Word), Memory.wf s.mem = true → pushFits s 2 = true →
    (∀ e ∈ entryBytes s ret, isMmio s e.1 = false) →
    ∃ t, enter s n ret = .ok () t ∧
      ∀ t' : State, t'.sp = t.sp → t'.platform = t.platform →
        (∀ e ∈ entryBytes s ret, t'.mem.read e.1.toNat = t.mem.read e.1.toNat) →
        ∃ u, exec .iret t' = .next u ∧ u.pc = ret ∧ u.flags = s.flags ∧ u.sp = s.sp

/-- R230, R231: HLT advances the PC and halts; NOP advances the PC; nothing else changes. -/
def Obligations.HltHaltsAndNopAdvances : Prop :=
  ∀ s : State, exec .hlt s = .next ((s.withPc (s.pc + 1)).withStatus .halted) ∧
    exec .nop s = .next (s.withPc (s.pc + 1))

/-! ## The host -/

/-- R280, R284: `run(n)` takes steps: its final state is reached from the first by exactly the counted number of
successive steps. It takes at most n, fewer only when the CORE has left Running, and none from a CORE that has
stopped. A safe run ends with no fault to report. -/
def Obligations.RunStepsUntilTheCoreStops : Prop :=
  ∀ (n : Nat) (s : State), Steps (hostRun n s).1 s (hostRun n s).2 ∧ (hostRun n s).1 ≤ n ∧
    ((hostRun n s).1 < n → (hostRun n s).2.status ≠ .running) ∧
    (s.status ≠ .running → hostRun n s = (0, s)) ∧
    (SafeRun n s → NotFaulted (hostRun n s).2)
end

