-- ==== Sys2Proof/Laws/State.lean ====
section
/-! SUPPORT. One lemma for each field of State after each field update. -/

namespace Sys2Proof.Machine

@[simp] theorem State.withR_r (s : State) (v : Vector Byte 10) : (s.withR v).r = v := rfl
@[simp] theorem State.withR_p (s : State) (v : Vector Byte 10) : (s.withR v).p = s.p := rfl
@[simp] theorem State.withR_vx (s : State) (v : Vector Byte 10) : (s.withR v).vx = s.vx := rfl
@[simp] theorem State.withR_vy (s : State) (v : Vector Byte 10) : (s.withR v).vy = s.vy := rfl
@[simp] theorem State.withR_pc (s : State) (v : Vector Byte 10) : (s.withR v).pc = s.pc := rfl
@[simp] theorem State.withR_flags (s : State) (v : Vector Byte 10) : (s.withR v).flags = s.flags := rfl
@[simp] theorem State.withR_pending (s : State) (v : Vector Byte 10) : (s.withR v).pending = s.pending := rfl
@[simp] theorem State.withR_status (s : State) (v : Vector Byte 10) : (s.withR v).status = s.status := rfl
@[simp] theorem State.withR_mem (s : State) (v : Vector Byte 10) : (s.withR v).mem = s.mem := rfl
@[simp] theorem State.withR_platform (s : State) (v : Vector Byte 10) : (s.withR v).platform = s.platform := rfl
@[simp] theorem State.withR_bus (s : State) (v : Vector Byte 10) : (s.withR v).bus = s.bus := rfl
@[simp] theorem State.withP_r (s : State) (v : Vector Word 10) : (s.withP v).r = s.r := rfl
@[simp] theorem State.withP_p (s : State) (v : Vector Word 10) : (s.withP v).p = v := rfl
@[simp] theorem State.withP_vx (s : State) (v : Vector Word 10) : (s.withP v).vx = s.vx := rfl
@[simp] theorem State.withP_vy (s : State) (v : Vector Word 10) : (s.withP v).vy = s.vy := rfl
@[simp] theorem State.withP_pc (s : State) (v : Vector Word 10) : (s.withP v).pc = s.pc := rfl
@[simp] theorem State.withP_flags (s : State) (v : Vector Word 10) : (s.withP v).flags = s.flags := rfl
@[simp] theorem State.withP_pending (s : State) (v : Vector Word 10) : (s.withP v).pending = s.pending := rfl
@[simp] theorem State.withP_status (s : State) (v : Vector Word 10) : (s.withP v).status = s.status := rfl
@[simp] theorem State.withP_mem (s : State) (v : Vector Word 10) : (s.withP v).mem = s.mem := rfl
@[simp] theorem State.withP_platform (s : State) (v : Vector Word 10) : (s.withP v).platform = s.platform := rfl
@[simp] theorem State.withP_bus (s : State) (v : Vector Word 10) : (s.withP v).bus = s.bus := rfl
@[simp] theorem State.withVx_r (s : State) (v : Word) : (s.withVx v).r = s.r := rfl
@[simp] theorem State.withVx_p (s : State) (v : Word) : (s.withVx v).p = s.p := rfl
@[simp] theorem State.withVx_vx (s : State) (v : Word) : (s.withVx v).vx = v := rfl
@[simp] theorem State.withVx_vy (s : State) (v : Word) : (s.withVx v).vy = s.vy := rfl
@[simp] theorem State.withVx_pc (s : State) (v : Word) : (s.withVx v).pc = s.pc := rfl
@[simp] theorem State.withVx_flags (s : State) (v : Word) : (s.withVx v).flags = s.flags := rfl
@[simp] theorem State.withVx_pending (s : State) (v : Word) : (s.withVx v).pending = s.pending := rfl
@[simp] theorem State.withVx_status (s : State) (v : Word) : (s.withVx v).status = s.status := rfl
@[simp] theorem State.withVx_mem (s : State) (v : Word) : (s.withVx v).mem = s.mem := rfl
@[simp] theorem State.withVx_platform (s : State) (v : Word) : (s.withVx v).platform = s.platform := rfl
@[simp] theorem State.withVx_bus (s : State) (v : Word) : (s.withVx v).bus = s.bus := rfl
@[simp] theorem State.withVy_r (s : State) (v : Word) : (s.withVy v).r = s.r := rfl
@[simp] theorem State.withVy_p (s : State) (v : Word) : (s.withVy v).p = s.p := rfl
@[simp] theorem State.withVy_vx (s : State) (v : Word) : (s.withVy v).vx = s.vx := rfl
@[simp] theorem State.withVy_vy (s : State) (v : Word) : (s.withVy v).vy = v := rfl
@[simp] theorem State.withVy_pc (s : State) (v : Word) : (s.withVy v).pc = s.pc := rfl
@[simp] theorem State.withVy_flags (s : State) (v : Word) : (s.withVy v).flags = s.flags := rfl
@[simp] theorem State.withVy_pending (s : State) (v : Word) : (s.withVy v).pending = s.pending := rfl
@[simp] theorem State.withVy_status (s : State) (v : Word) : (s.withVy v).status = s.status := rfl
@[simp] theorem State.withVy_mem (s : State) (v : Word) : (s.withVy v).mem = s.mem := rfl
@[simp] theorem State.withVy_platform (s : State) (v : Word) : (s.withVy v).platform = s.platform := rfl
@[simp] theorem State.withVy_bus (s : State) (v : Word) : (s.withVy v).bus = s.bus := rfl
@[simp] theorem State.withPc_r (s : State) (v : Word) : (s.withPc v).r = s.r := rfl
@[simp] theorem State.withPc_p (s : State) (v : Word) : (s.withPc v).p = s.p := rfl
@[simp] theorem State.withPc_vx (s : State) (v : Word) : (s.withPc v).vx = s.vx := rfl
@[simp] theorem State.withPc_vy (s : State) (v : Word) : (s.withPc v).vy = s.vy := rfl
@[simp] theorem State.withPc_pc (s : State) (v : Word) : (s.withPc v).pc = v := rfl
@[simp] theorem State.withPc_flags (s : State) (v : Word) : (s.withPc v).flags = s.flags := rfl
@[simp] theorem State.withPc_pending (s : State) (v : Word) : (s.withPc v).pending = s.pending := rfl
@[simp] theorem State.withPc_status (s : State) (v : Word) : (s.withPc v).status = s.status := rfl
@[simp] theorem State.withPc_mem (s : State) (v : Word) : (s.withPc v).mem = s.mem := rfl
@[simp] theorem State.withPc_platform (s : State) (v : Word) : (s.withPc v).platform = s.platform := rfl
@[simp] theorem State.withPc_bus (s : State) (v : Word) : (s.withPc v).bus = s.bus := rfl
@[simp] theorem State.withFlags_r (s : State) (v : FlagWord) : (s.withFlags v).r = s.r := rfl
@[simp] theorem State.withFlags_p (s : State) (v : FlagWord) : (s.withFlags v).p = s.p := rfl
@[simp] theorem State.withFlags_vx (s : State) (v : FlagWord) : (s.withFlags v).vx = s.vx := rfl
@[simp] theorem State.withFlags_vy (s : State) (v : FlagWord) : (s.withFlags v).vy = s.vy := rfl
@[simp] theorem State.withFlags_pc (s : State) (v : FlagWord) : (s.withFlags v).pc = s.pc := rfl
@[simp] theorem State.withFlags_flags (s : State) (v : FlagWord) : (s.withFlags v).flags = v := rfl
@[simp] theorem State.withFlags_pending (s : State) (v : FlagWord) : (s.withFlags v).pending = s.pending := rfl
@[simp] theorem State.withFlags_status (s : State) (v : FlagWord) : (s.withFlags v).status = s.status := rfl
@[simp] theorem State.withFlags_mem (s : State) (v : FlagWord) : (s.withFlags v).mem = s.mem := rfl
@[simp] theorem State.withFlags_platform (s : State) (v : FlagWord) : (s.withFlags v).platform = s.platform := rfl
@[simp] theorem State.withFlags_bus (s : State) (v : FlagWord) : (s.withFlags v).bus = s.bus := rfl
@[simp] theorem State.withPending_r (s : State) (v : Vector Bool 8) : (s.withPending v).r = s.r := rfl
@[simp] theorem State.withPending_p (s : State) (v : Vector Bool 8) : (s.withPending v).p = s.p := rfl
@[simp] theorem State.withPending_vx (s : State) (v : Vector Bool 8) : (s.withPending v).vx = s.vx := rfl
@[simp] theorem State.withPending_vy (s : State) (v : Vector Bool 8) : (s.withPending v).vy = s.vy := rfl
@[simp] theorem State.withPending_pc (s : State) (v : Vector Bool 8) : (s.withPending v).pc = s.pc := rfl
@[simp] theorem State.withPending_flags (s : State) (v : Vector Bool 8) : (s.withPending v).flags = s.flags := rfl
@[simp] theorem State.withPending_pending (s : State) (v : Vector Bool 8) : (s.withPending v).pending = v := rfl
@[simp] theorem State.withPending_status (s : State) (v : Vector Bool 8) : (s.withPending v).status = s.status := rfl
@[simp] theorem State.withPending_mem (s : State) (v : Vector Bool 8) : (s.withPending v).mem = s.mem := rfl
@[simp] theorem State.withPending_platform (s : State) (v : Vector Bool 8) : (s.withPending v).platform = s.platform := rfl
@[simp] theorem State.withPending_bus (s : State) (v : Vector Bool 8) : (s.withPending v).bus = s.bus := rfl
@[simp] theorem State.withStatus_r (s : State) (v : RunStatus) : (s.withStatus v).r = s.r := rfl
@[simp] theorem State.withStatus_p (s : State) (v : RunStatus) : (s.withStatus v).p = s.p := rfl
@[simp] theorem State.withStatus_vx (s : State) (v : RunStatus) : (s.withStatus v).vx = s.vx := rfl
@[simp] theorem State.withStatus_vy (s : State) (v : RunStatus) : (s.withStatus v).vy = s.vy := rfl
@[simp] theorem State.withStatus_pc (s : State) (v : RunStatus) : (s.withStatus v).pc = s.pc := rfl
@[simp] theorem State.withStatus_flags (s : State) (v : RunStatus) : (s.withStatus v).flags = s.flags := rfl
@[simp] theorem State.withStatus_pending (s : State) (v : RunStatus) : (s.withStatus v).pending = s.pending := rfl
@[simp] theorem State.withStatus_status (s : State) (v : RunStatus) : (s.withStatus v).status = v := rfl
@[simp] theorem State.withStatus_mem (s : State) (v : RunStatus) : (s.withStatus v).mem = s.mem := rfl
@[simp] theorem State.withStatus_platform (s : State) (v : RunStatus) : (s.withStatus v).platform = s.platform := rfl
@[simp] theorem State.withStatus_bus (s : State) (v : RunStatus) : (s.withStatus v).bus = s.bus := rfl
@[simp] theorem State.withMem_r (s : State) (v : Memory) : (s.withMem v).r = s.r := rfl
@[simp] theorem State.withMem_p (s : State) (v : Memory) : (s.withMem v).p = s.p := rfl
@[simp] theorem State.withMem_vx (s : State) (v : Memory) : (s.withMem v).vx = s.vx := rfl
@[simp] theorem State.withMem_vy (s : State) (v : Memory) : (s.withMem v).vy = s.vy := rfl
@[simp] theorem State.withMem_pc (s : State) (v : Memory) : (s.withMem v).pc = s.pc := rfl
@[simp] theorem State.withMem_flags (s : State) (v : Memory) : (s.withMem v).flags = s.flags := rfl
@[simp] theorem State.withMem_pending (s : State) (v : Memory) : (s.withMem v).pending = s.pending := rfl
@[simp] theorem State.withMem_status (s : State) (v : Memory) : (s.withMem v).status = s.status := rfl
@[simp] theorem State.withMem_mem (s : State) (v : Memory) : (s.withMem v).mem = v := rfl
@[simp] theorem State.withMem_platform (s : State) (v : Memory) : (s.withMem v).platform = s.platform := rfl
@[simp] theorem State.withMem_bus (s : State) (v : Memory) : (s.withMem v).bus = s.bus := rfl
@[simp] theorem State.withBus_r (s : State) (v : List BusEvent) : (s.withBus v).r = s.r := rfl
@[simp] theorem State.withBus_p (s : State) (v : List BusEvent) : (s.withBus v).p = s.p := rfl
@[simp] theorem State.withBus_vx (s : State) (v : List BusEvent) : (s.withBus v).vx = s.vx := rfl
@[simp] theorem State.withBus_vy (s : State) (v : List BusEvent) : (s.withBus v).vy = s.vy := rfl
@[simp] theorem State.withBus_pc (s : State) (v : List BusEvent) : (s.withBus v).pc = s.pc := rfl
@[simp] theorem State.withBus_flags (s : State) (v : List BusEvent) : (s.withBus v).flags = s.flags := rfl
@[simp] theorem State.withBus_pending (s : State) (v : List BusEvent) : (s.withBus v).pending = s.pending := rfl
@[simp] theorem State.withBus_status (s : State) (v : List BusEvent) : (s.withBus v).status = s.status := rfl
@[simp] theorem State.withBus_mem (s : State) (v : List BusEvent) : (s.withBus v).mem = s.mem := rfl
@[simp] theorem State.withBus_platform (s : State) (v : List BusEvent) : (s.withBus v).platform = s.platform := rfl
@[simp] theorem State.withBus_bus (s : State) (v : List BusEvent) : (s.withBus v).bus = v := rfl

/-- Two states with equal fields are equal. -/
theorem State.ext_fields {s t : State} (h1 : s.r = t.r) (h2 : s.p = t.p) (h3 : s.vx = t.vx) (h4 : s.vy = t.vy)
    (h5 : s.pc = t.pc) (h6 : s.flags = t.flags) (h7 : s.pending = t.pending) (h8 : s.status = t.status)
    (h9 : s.mem = t.mem) (h10 : s.platform = t.platform) (h11 : s.bus = t.bus) : s = t := by
  cases s; cases t; simp_all

@[simp] theorem State.withR_self (s : State) : s.withR s.r = s := rfl
@[simp] theorem State.withR_twice (s : State) (v w : Vector Byte 10) : (s.withR v).withR w = s.withR w := rfl
@[simp] theorem State.withP_self (s : State) : s.withP s.p = s := rfl
@[simp] theorem State.withP_twice (s : State) (v w : Vector Word 10) : (s.withP v).withP w = s.withP w := rfl
@[simp] theorem State.withVx_self (s : State) : s.withVx s.vx = s := rfl
@[simp] theorem State.withVx_twice (s : State) (v w : Word) : (s.withVx v).withVx w = s.withVx w := rfl
@[simp] theorem State.withVy_self (s : State) : s.withVy s.vy = s := rfl
@[simp] theorem State.withVy_twice (s : State) (v w : Word) : (s.withVy v).withVy w = s.withVy w := rfl
@[simp] theorem State.withPc_self (s : State) : s.withPc s.pc = s := rfl
@[simp] theorem State.withPc_twice (s : State) (v w : Word) : (s.withPc v).withPc w = s.withPc w := rfl
@[simp] theorem State.withFlags_self (s : State) : s.withFlags s.flags = s := rfl
@[simp] theorem State.withFlags_twice (s : State) (v w : FlagWord) : (s.withFlags v).withFlags w = s.withFlags w := rfl
@[simp] theorem State.withPending_self (s : State) : s.withPending s.pending = s := rfl
@[simp] theorem State.withPending_twice (s : State) (v w : Vector Bool 8) : (s.withPending v).withPending w = s.withPending w := rfl
@[simp] theorem State.withStatus_self (s : State) : s.withStatus s.status = s := rfl
@[simp] theorem State.withStatus_twice (s : State) (v w : RunStatus) : (s.withStatus v).withStatus w = s.withStatus w := rfl
@[simp] theorem State.withMem_self (s : State) : s.withMem s.mem = s := rfl
@[simp] theorem State.withMem_twice (s : State) (v w : Memory) : (s.withMem v).withMem w = s.withMem w := rfl
@[simp] theorem State.withBus_self (s : State) : s.withBus s.bus = s := rfl
@[simp] theorem State.withBus_twice (s : State) (v w : List BusEvent) : (s.withBus v).withBus w = s.withBus w := rfl

end Sys2Proof.Machine
end

