-- ==== Sys2Proof/Laws/Memory.lean ====
section
/-! SUPPORT. Memory: a read after a write, every other address, and the canonical form (spec 20_memory.md rules
R61, R62). -/

namespace Sys2Proof.Machine

theorem Memory.wfFrom_cons {lo a : Nat} {v : Byte} {m : Memory} :
    Memory.wfFrom lo ((a, v) :: m) = true ↔
      lo ≤ a ∧ a < 0x10000 ∧ v ≠ 0 ∧ Memory.wfFrom (a + 1) m = true := by
  simp [Memory.wfFrom, and_assoc]

theorem Memory.wfFrom_mono {m : Memory} {lo hi : Nat} (h : lo ≤ hi) (w : Memory.wfFrom hi m = true) :
    Memory.wfFrom lo m = true := by
  cases m with
  | nil => rfl
  | cons e m => obtain ⟨a, v⟩ := e; rw [Memory.wfFrom_cons] at *; exact ⟨by omega, w.2⟩

/-- Below the first listed address everything reads 0x00. -/
theorem Memory.read_below {m : Memory} {lo a : Nat} (w : Memory.wfFrom lo m = true) (h : a < lo) :
    m.read a = 0 := by
  induction m generalizing lo with
  | nil => rfl
  | cons e m ih =>
    obtain ⟨b, v⟩ := e
    rw [Memory.wfFrom_cons] at w
    rw [Memory.read, if_neg (by omega)]
    exact ih w.2.2.2 (by omega)

/-- What a write does, case by case. -/
theorem Memory.write_cases (m : Memory) (a : Nat) (v : Byte) :
    (m = [] ∧ v = 0 ∧ m.write a v = []) ∨
    (m = [] ∧ v ≠ 0 ∧ m.write a v = [(a, v)]) ∨
    ∃ c u l, m = (c, u) :: l ∧
      ((a < c ∧ v = 0 ∧ m.write a v = (c, u) :: l) ∨
       (a < c ∧ v ≠ 0 ∧ m.write a v = (a, v) :: (c, u) :: l) ∨
       (a = c ∧ v = 0 ∧ m.write a v = l) ∨
       (a = c ∧ v ≠ 0 ∧ m.write a v = (a, v) :: l) ∨
       (c < a ∧ m.write a v = (c, u) :: Memory.write l a v)) := by
  cases m with
  | nil => by_cases hv : v = 0 <;> simp only [Memory.write, hv] <;> simp_all
  | cons e l =>
    obtain ⟨c, u⟩ := e
    refine .inr (.inr ⟨c, u, l, rfl, ?_⟩)
    rcases Nat.lt_trichotomy a c with h | h | h
    · by_cases hv : v = 0
      · exact .inl ⟨h, hv, by rw [Memory.write, if_pos h, if_pos hv]⟩
      · exact .inr (.inl ⟨h, hv, by rw [Memory.write, if_pos h, if_neg hv]⟩)
    · by_cases hv : v = 0
      · exact .inr (.inr (.inl ⟨h, hv, by rw [Memory.write, if_neg (by omega), if_pos h, if_pos hv]⟩))
      · exact .inr (.inr (.inr (.inl ⟨h, hv, by rw [Memory.write, if_neg (by omega), if_pos h, if_neg hv]⟩)))
    · exact .inr (.inr (.inr (.inr ⟨h, by rw [Memory.write, if_neg (by omega), if_neg (by omega)]⟩)))

/-- Every other address reads as before. -/
theorem Memory.read_write_other {m : Memory} {a b : Nat} (v : Byte) (h : b ≠ a) :
    (m.write a v).read b = m.read b := by
  induction m with
  | nil =>
    rcases Memory.write_cases [] a v with ⟨-, -, e⟩ | ⟨-, -, e⟩ | ⟨c, u, l, hm, -⟩
    · rw [e]
    · rw [e]; show (if b = a then v else Memory.read [] b) = _; rw [if_neg h]
    · cases hm
  | cons x m ih =>
    rcases Memory.write_cases (x :: m) a v with ⟨hm, -⟩ | ⟨hm, -⟩ | ⟨c, u, l, hm, hc⟩
    · cases hm
    · cases hm
    · cases hm
      rcases hc with ⟨-, -, e⟩ | ⟨-, -, e⟩ | ⟨k, -, e⟩ | ⟨k, -, e⟩ | ⟨-, e⟩ <;> rw [e]
      · rw [Memory.read, if_neg h]
      · rw [Memory.read, if_neg (by omega)]
      · rw [Memory.read, Memory.read, if_neg h, if_neg (by omega)]
      · rw [Memory.read, Memory.read, ih]

/-- In a canonical memory a read after a write to the same address gives the value written. -/
theorem Memory.read_write_same {m : Memory} {lo a : Nat} (v : Byte) (w : Memory.wfFrom lo m = true) :
    (m.write a v).read a = v := by
  induction m generalizing lo with
  | nil =>
    rcases Memory.write_cases [] a v with ⟨-, k, e⟩ | ⟨-, -, e⟩ | ⟨c, u, l, hm, -⟩
    · rw [e, k]; rfl
    · rw [e, Memory.read, if_pos rfl]
    · cases hm
  | cons x m ih =>
    rcases Memory.write_cases (x :: m) a v with ⟨hm, -⟩ | ⟨hm, -⟩ | ⟨c, u, l, hm, hc⟩
    · cases hm
    · cases hm
    · cases hm
      rw [Memory.wfFrom_cons] at w
      rcases hc with ⟨k, hv, e⟩ | ⟨-, -, e⟩ | ⟨k, hv, e⟩ | ⟨-, -, e⟩ | ⟨k, e⟩ <;> rw [e]
      · rw [Memory.read, if_neg (by omega), hv]; exact Memory.read_below w.2.2.2 (by omega)
      · rw [Memory.read, if_pos rfl]
      · rw [hv]; exact Memory.read_below w.2.2.2 (by omega)
      · rw [Memory.read, if_pos rfl]
      · rw [Memory.read, if_neg (by omega)]; exact ih w.2.2.2

theorem Memory.wfFrom_write {m : Memory} {lo a : Nat} (v : Byte) (hl : lo ≤ a) (ha : a < 0x10000)
    (w : Memory.wfFrom lo m = true) : Memory.wfFrom lo (m.write a v) = true := by
  induction m generalizing lo with
  | nil =>
    rcases Memory.write_cases [] a v with ⟨-, -, e⟩ | ⟨-, k, e⟩ | ⟨c, u, l, hm, -⟩
    · rw [e]; rfl
    · rw [e, Memory.wfFrom_cons]; exact ⟨hl, ha, k, rfl⟩
    · cases hm
  | cons x m ih =>
    rcases Memory.write_cases (x :: m) a v with ⟨hm, -⟩ | ⟨hm, -⟩ | ⟨c, u, l, hm, hc⟩
    · cases hm
    · cases hm
    · cases hm
      have w' := w
      rw [Memory.wfFrom_cons] at w
      rcases hc with ⟨-, -, e⟩ | ⟨k, hv, e⟩ | ⟨-, -, e⟩ | ⟨k, hv, e⟩ | ⟨k, e⟩ <;> rw [e]
      · exact w'
      · rw [Memory.wfFrom_cons, Memory.wfFrom_cons]; exact ⟨hl, ha, hv, by omega, w.2⟩
      · exact Memory.wfFrom_mono (by omega) w.2.2.2
      · rw [Memory.wfFrom_cons]; exact ⟨hl, ha, hv, by rw [k]; exact w.2.2.2⟩
      · rw [Memory.wfFrom_cons]; exact ⟨w.1, w.2.1, w.2.2.1, ih (by omega) w.2.2.2⟩

/-- A write of a byte keeps the canonical form. -/
theorem Memory.wf_write {m : Memory} (a : Word) (v : Byte) (w : Memory.wf m = true) :
    Memory.wf (m.write a.toNat v) = true :=
  Memory.wfFrom_write v (Nat.zero_le _) a.isLt w

/-- The memory after reset is in canonical form. -/
theorem Memory.wf_reset : Memory.wf State.reset.mem = true := by decide

end Sys2Proof.Machine
end

