-- ==== Sys2Proof/Laws/Encoding.lean ====
section
/-! SUPPORT. Facts about register codes, operand fields, mode bytes and the opcode map (spec 30_encoding.md). -/

namespace Sys2Proof

/-! ## Lengths (R99) -/

theorem Operand.fieldLen_le (o : Operand) : o.fieldLen ≤ 2 := by
  cases o with
  | mem m => cases m <;> simp [Operand.fieldLen]
  | reg c => simp [Operand.fieldLen]
  | imm8 b => simp [Operand.fieldLen]
  | imm16 v => simp [Operand.fieldLen]

theorem Operand.field_length (o : Operand) : o.field.length = o.fieldLen := by
  cases o with
  | mem m => cases m <;> rfl
  | reg c => rfl
  | imm8 b => rfl
  | imm16 v => rfl

theorem encode_length (i : Instr) : (encode i).length = i.length := by
  unfold encode Instr.length
  cases i.operands with
  | nil => rfl
  | cons o os =>
    have : (fun o => (Operand.field o).length) = Operand.fieldLen := funext Operand.field_length
    simp only [List.length_cons, List.length_flatMap, this]
    omega

theorem Instr.operands_length (i : Instr) : i.operands.length ≤ 2 := by
  cases i <;> simp [Instr.operands]

theorem Instr.length_le (i : Instr) : i.length ≤ maxLength := by
  have h := i.operands_length
  unfold Instr.length maxLength
  match i.operands, h with
  | [], _ => simp
  | [o], _ => have := o.fieldLen_le; simp; omega
  | [o, o'], _ => have := o.fieldLen_le; have := o'.fieldLen_le; simp; omega
  | _ :: _ :: _ :: _, h => simp at h

/-! ## Register codes (R86) and the opcode map (R102) -/

theorem Reg.ofCode_code (c : Reg) : Reg.ofCode c.code = some c := by
  cases c with
  | r n => revert n; decide
  | p n => revert n; decide
  | ph n => revert n; decide
  | pl n => revert n; decide
  | vx => rfl
  | vy => rfl

/-- A byte 0x40 above a register code is no register code, so the two register-based memory forms differ (R90). -/
theorem Reg.ofCode_indexed (c : Reg) : Reg.ofCode (c.code + 0x40) = none := by
  cases c with
  | r n => revert n; decide
  | p n => revert n; decide
  | ph n => revert n; decide
  | pl n => revert n; decide
  | vx => rfl
  | vy => rfl

set_option maxRecDepth 100000 in
theorem Reg.code_check : ∀ n : Fin 256,
    (match Reg.ofCode (BitVec.ofFin n) with
     | some c => c.code == BitVec.ofFin n
     | none => true) = true := by decide

/-- A register code names one register (R86). -/
theorem Reg.code_of_ofCode {b : Byte} {c : Reg} (h : Reg.ofCode b = some c) : c.code = b := by
  have := Reg.code_check b.toFin
  rw [show BitVec.ofFin b.toFin = b from rfl, h] at this
  simpa using this

theorem mnemonicOf_opcodeOf (m : Mnemonic) : mnemonicOf (opcodeOf m) = some m := by
  cases m <;> rfl

set_option maxRecDepth 100000 in
theorem opcode_check : ∀ n : Fin 256,
    (match mnemonicOf (BitVec.ofFin n) with
     | some m => opcodeOf m == BitVec.ofFin n
     | none => true) = true := by decide

/-- An opcode byte has one mnemonic (R102). -/
theorem opcodeOf_of_mnemonicOf {b : Byte} {m : Mnemonic} (h : mnemonicOf b = some m) : opcodeOf m = b := by
  have := opcode_check b.toFin
  rw [show BitVec.ofFin b.toFin = b from rfl, h] at this
  simpa using this

/-! ## Mode bytes (R82 to R85) -/

theorem modeByte_one (o : Operand) : modeM2 (modeByte [o]) = 0 ∧ modeM3 (modeByte [o]) = 0 ∧
    modeX2 (modeByte [o]) = false ∧ kindOf (modeM1 (modeByte [o])) (modeX1 (modeByte [o])) = some o.kind := by
  simp only [modeByte]
  cases o.kind <;> decide

theorem modeByte_two (o1 o2 : Operand) : modeM3 (modeByte [o1, o2]) = 0 ∧
    kindOf (modeM1 (modeByte [o1, o2])) (modeX1 (modeByte [o1, o2])) = some o1.kind ∧
    kindOf (modeM2 (modeByte [o1, o2])) (modeX2 (modeByte [o1, o2])) = some o2.kind := by
  simp only [modeByte]
  cases o1.kind <;> cases o2.kind <;> decide

set_option maxRecDepth 100000 in
theorem mode_check : ∀ n : Fin 256,
    (match kindOf (modeM1 (BitVec.ofFin n)) (modeX1 (BitVec.ofFin n)),
        kindOf (modeM2 (BitVec.ofFin n)) (modeX2 (BitVec.ofFin n)) with
     | some k1, some k2 => modeM3 (BitVec.ofFin n) != 0 || BitVec.ofFin n ==
        (k1.mode ||| (k2.mode <<< 2) ||| (k1.form <<< 6) ||| (k2.form <<< 7))
     | some _, none => true
     | none, _ => true) = true := by decide

/-- A legal mode byte of two operands is the one their kinds make (R82 to R85). -/
theorem mode_of_kinds {b : Byte} {k1 k2 : Kind} (h3 : modeM3 b = 0) (h1 : kindOf (modeM1 b) (modeX1 b) = some k1)
    (h2 : kindOf (modeM2 b) (modeX2 b) = some k2) :
    b = k1.mode ||| (k2.mode <<< 2) ||| (k1.form <<< 6) ||| (k2.form <<< 7) := by
  have := mode_check b.toFin
  rw [show BitVec.ofFin b.toFin = b from rfl, h1, h2, h3] at this
  simpa using this

/-- A legal mode byte of one operand is the one its kind makes (R82 to R85). -/
theorem mode_of_kind {b : Byte} {k : Kind} (h3 : modeM3 b = 0) (h2 : modeM2 b = 0) (hx : modeX2 b = false)
    (h1 : kindOf (modeM1 b) (modeX1 b) = some k) : b = k.mode ||| (k.form <<< 6) := by
  have h2' : kindOf (modeM2 b) (modeX2 b) = some .reg := by rw [h2, hx]; rfl
  have := mode_of_kinds h3 h1 h2'
  simpa [Kind.mode, Kind.form] using this

/-! ## Fields (R87 to R90) -/

@[simp] theorem hiByte_append_loByte (v : Word) : (hiByte v ++ loByte v : Word) = v := by
  apply BitVec.eq_of_getLsbD_eq; intro k hk
  rw [BitVec.getLsbD_append, hiByte, loByte, BitVec.getLsbD_extractLsb', BitVec.getLsbD_extractLsb']
  by_cases h : k < 8
  · simp [h]
  · simp [h, show k - 8 < 8 by omega, show 8 + (k - 8) = k by omega]

@[simp] theorem hiByte_append (a b : Byte) : hiByte (a ++ b) = a := by
  apply BitVec.eq_of_getLsbD_eq; intro k hk
  rw [hiByte, BitVec.getLsbD_extractLsb', BitVec.getLsbD_append]; simp [hk]

@[simp] theorem loByte_append (a b : Byte) : loByte (a ++ b) = b := by
  apply BitVec.eq_of_getLsbD_eq; intro k hk
  rw [loByte, BitVec.getLsbD_extractLsb', BitVec.getLsbD_append]; simp [hk]

/-- Reading the field of an operand gives the operand and its length. -/
theorem readField_field {o : Operand} {b : Nat → Byte} {off : Nat}
    (h : ∀ k, k < o.fieldLen → b (off + k) = o.field.getD k 0) : readField o.kind b off = .ok o o.fieldLen := by
  cases o with
  | reg c =>
    have h0 := h 0 (by simp [Operand.fieldLen])
    simp only [Operand.field, Nat.add_zero, List.getD_cons_zero] at h0
    simp only [readField, Operand.kind, h0, Reg.ofCode_code]; rfl
  | imm8 v =>
    have h0 := h 0 (by simp [Operand.fieldLen])
    simp only [Operand.field, Nat.add_zero, List.getD_cons_zero] at h0
    simp only [readField, Operand.kind, h0]; rfl
  | imm16 v =>
    have h0 := h 0 (by simp [Operand.fieldLen])
    have h1 := h 1 (by simp [Operand.fieldLen])
    simp only [Operand.field, Nat.add_zero, List.getD_cons_zero, List.getD_cons_succ] at h0 h1
    simp only [readField, Operand.kind, h0, h1, hiByte_append_loByte]; rfl
  | mem m =>
    cases m with
    | direct a =>
      have h0 := h 0 (by simp [Operand.fieldLen])
      have h1 := h 1 (by simp [Operand.fieldLen])
      simp only [Operand.field, Nat.add_zero, List.getD_cons_zero, List.getD_cons_succ] at h0 h1
      simp only [readField, Operand.kind, h0, h1, hiByte_append_loByte]; rfl
    | indirect c =>
      have h0 := h 0 (by simp [Operand.fieldLen])
      simp only [Operand.field, Nat.add_zero, List.getD_cons_zero] at h0
      simp only [readField, Operand.kind, h0, Reg.ofCode_code]; rfl
    | indexed c d =>
      have h0 := h 0 (by simp [Operand.fieldLen])
      have h1 := h 1 (by simp [Operand.fieldLen])
      simp only [Operand.field, Nat.add_zero, List.getD_cons_zero, List.getD_cons_succ] at h0 h1
      have e : c.code + 0x40 - 0x40 = c.code := by simp
      simp only [readField, Operand.kind, h0, h1, Reg.ofCode_indexed, e, Reg.ofCode_code]; rfl

/-- What a field reads as is its own field's bytes (R87 to R90). -/
theorem field_of_readField {k : Kind} {b : Nat → Byte} {off : Nat} {o : Operand} {n : Nat}
    (h : readField k b off = .ok o n) :
    o.kind = k ∧ n = o.fieldLen ∧ o.field = (List.range n).map fun j => b (off + j) := by
  cases k with
  | reg =>
    simp only [readField] at h
    split at h
    · rename_i c hc
      cases h
      exact ⟨rfl, rfl, by simp [Operand.field, Reg.code_of_ofCode hc]⟩
    · cases h
  | imm8 =>
    simp only [readField] at h
    cases h
    exact ⟨rfl, rfl, by simp [Operand.field]⟩
  | imm16 =>
    simp only [readField] at h
    cases h
    exact ⟨rfl, rfl, by simp [Operand.field, hiByte_append, loByte_append, List.range_succ]⟩
  | direct =>
    simp only [readField] at h
    cases h
    exact ⟨rfl, rfl, by simp [Operand.field, hiByte_append, loByte_append, List.range_succ]⟩
  | byReg =>
    simp only [readField] at h
    split at h
    · rename_i c hc
      cases h
      exact ⟨rfl, rfl, by simp [Operand.field, Reg.code_of_ofCode hc]⟩
    · split at h
      · rename_i c hc
        cases h
        refine ⟨rfl, rfl, ?_⟩
        have := Reg.code_of_ofCode hc
        simp [Operand.field, this, List.range_succ]
      · cases h

/-! ## Decoding the operands (R105) -/

/-- Decoding the operand of a one-operand instruction from the bytes that encode it. -/
theorem decodeOne_eq {b : Nat → Byte} {legal : Kind → Bool} {mk : Operand → Except DecodeSub Instr} {o : Operand}
    (hm : b 1 = modeByte [o]) (hl : legal o.kind = true)
    (hf : ∀ k, k < o.fieldLen → b (2 + k) = o.field.getD k 0) :
    decodeOne b legal mk = match mk o with
      | .ok i => .ok i (2 + o.fieldLen)
      | .error e => .bad e (2 + o.fieldLen) [o] := by
  obtain ⟨h2, h3, hx, h1⟩ := modeByte_one o
  unfold decodeOne
  rw [hm, if_neg (by simp [h2, h3, hx]), h1]
  simp only [hl, if_true, readField_field hf]
  all_goals cases mk o <;> rfl

/-- Decoding the operands of a two-operand instruction from the bytes that encode them. -/
theorem decodeTwo_eq {b : Nat → Byte} {legal1 legal2 : Kind → Bool}
    {mk : Operand → Operand → Except DecodeSub Instr} {o1 o2 : Operand} (hm : b 1 = modeByte [o1, o2])
    (hl : legal1 o1.kind = true) (hl' : legal2 o2.kind = true)
    (hf : ∀ k, k < o1.fieldLen → b (2 + k) = o1.field.getD k 0)
    (hf' : ∀ k, k < o2.fieldLen → b (2 + o1.fieldLen + k) = o2.field.getD k 0) :
    decodeTwo b legal1 legal2 mk = match mk o1 o2 with
      | .ok i => .ok i (2 + o1.fieldLen + o2.fieldLen)
      | .error e => .bad e (2 + o1.fieldLen + o2.fieldLen) [o1, o2] := by
  obtain ⟨h3, h1, h2⟩ := modeByte_two o1 o2
  unfold decodeTwo
  rw [hm, if_neg (by simp [h3]), h1, h2]
  simp only [hl, hl', Bool.and_self, if_true, readField_field hf, readField_field hf']
  all_goals cases mk o1 o2 <;> rfl

/-- What decodes as a one-operand instruction is the operand whose mode byte and field were read. -/
theorem decodeOne_inv {b : Nat → Byte} {legal : Kind → Bool} {mk : Operand → Except DecodeSub Instr} {i : Instr}
    {len : Nat} (h : decodeOne b legal mk = .ok i len) :
    ∃ o, mk o = .ok i ∧ legal o.kind = true ∧ len = 2 + o.fieldLen ∧ b 1 = modeByte [o] ∧
      o.field = (List.range o.fieldLen).map fun j => b (2 + j) := by
  unfold decodeOne at h
  split at h
  · cases h
  · rename_i hc
    simp only [not_or, ne_eq, not_not, Bool.not_eq_true] at hc
    split at h
    · cases h
    · rename_i k hk
      split at h
      · rename_i hl
        split at h
        · cases h
        · rename_i o n hr
          obtain ⟨hkind, hn, hfield⟩ := field_of_readField hr
          split at h
          · rename_i i' hi
            cases h
            refine ⟨o, hi, by rw [hkind]; exact hl, by rw [hn], ?_, by rw [hfield, hn]⟩
            rw [mode_of_kind hc.2.1 hc.1 hc.2.2 hk, modeByte, hkind]
          · cases h
      · cases h

/-- What decodes as a two-operand instruction is the operands whose mode byte and fields were read. -/
theorem decodeTwo_inv {b : Nat → Byte} {legal1 legal2 : Kind → Bool}
    {mk : Operand → Operand → Except DecodeSub Instr} {i : Instr} {len : Nat}
    (h : decodeTwo b legal1 legal2 mk = .ok i len) :
    ∃ o1 o2, mk o1 o2 = .ok i ∧ legal1 o1.kind = true ∧ legal2 o2.kind = true ∧
      len = 2 + o1.fieldLen + o2.fieldLen ∧ b 1 = modeByte [o1, o2] ∧
      o1.field = ((List.range o1.fieldLen).map fun j => b (2 + j)) ∧
      o2.field = (List.range o2.fieldLen).map fun j => b (2 + o1.fieldLen + j) := by
  unfold decodeTwo at h
  split at h
  · cases h
  · rename_i h3
    rw [ne_eq, not_not] at h3
    split at h
    · rename_i k1 k2 hk1 hk2
      split at h
      · rename_i hl
        rw [Bool.and_eq_true] at hl
        split at h
        · cases h
        · rename_i o1 n1 hr1
          obtain ⟨hkind1, hn1, hfield1⟩ := field_of_readField hr1
          split at h
          · cases h
          · rename_i o2 n2 hr2
            obtain ⟨hkind2, hn2, hfield2⟩ := field_of_readField hr2
            split at h
            · rename_i i' hi
              cases h
              subst hn1 hn2
              refine ⟨o1, o2, hi, by rw [hkind1]; exact hl.1, by rw [hkind2]; exact hl.2, rfl, ?_, hfield1, hfield2⟩
              rw [mode_of_kinds h3 hk1 hk2, modeByte, hkind1, hkind2]
            · cases h
      · cases h
    · cases h

/-- A decode fault has fetched at most six bytes and read at most two operands (R99, R105). -/
theorem decode_bad {b : Nat → Byte} {sub : DecodeSub} {len : Nat} {before : List Operand}
    (h : decode b = .bad sub len before) : len ≤ maxLength ∧ before.length ≤ 2 := by
  have field_le : ∀ {k off o n}, readField k b off = .ok o n → n ≤ 2 := fun h => by
    rw [(field_of_readField h).2.1]; exact Operand.fieldLen_le _
  have one : ∀ {legal mk}, decodeOne b legal mk = .bad sub len before → len ≤ maxLength ∧ before.length ≤ 2 := by
    intro legal mk h
    unfold decodeOne at h
    split at h
    · cases h; simp [maxLength]
    · split at h
      · cases h; simp [maxLength]
      · split at h
        · split at h
          · cases h; simp [maxLength]
          · rename_i hr
            have := field_le hr
            split at h
            · cases h
            · cases h; simp [maxLength]; omega
        · cases h; simp [maxLength]
  have two : ∀ {l1 l2 mk}, decodeTwo b l1 l2 mk = .bad sub len before → len ≤ maxLength ∧ before.length ≤ 2 := by
    intro l1 l2 mk h
    unfold decodeTwo at h
    split at h
    · cases h; simp [maxLength]
    · split at h
      · split at h
        · split at h
          · cases h; simp [maxLength]
          · rename_i hr
            have := field_le hr
            split at h
            · cases h; simp [maxLength]; omega
            · rename_i hr'
              have := field_le hr'
              split at h
              · cases h
              · cases h; simp [maxLength]; omega
        · cases h; simp [maxLength]
      · cases h; simp [maxLength]
  unfold decode at h
  split at h
  · cases h; simp [maxLength]
  · split at h
    · cases h
    · exact one h
    · exact one h
    · exact one h
    · exact one h
    · exact two h
    · exact two h

end Sys2Proof
end

