-- ==== Sys2Proof/Laws/Registers.lean ====
section
/-! SUPPORT. Register reads after register writes (spec 10_state.md rules R20 to R27). -/

namespace Sys2Proof.Machine

theorem setWidth_append_lo (a b : Byte) : (a ++ b : Word).setWidth 8 = b := by
  apply BitVec.eq_of_getLsbD_eq; intro k hk
  rw [BitVec.getLsbD_setWidth, BitVec.getLsbD_append]; simp [hk]

theorem loByte_eq_setWidth (v : Word) : loByte v = v.setWidth 8 := by
  apply BitVec.eq_of_getLsbD_eq; intro k hk
  rw [loByte, BitVec.getLsbD_extractLsb', BitVec.getLsbD_setWidth]; simp [hk]

@[simp] theorem getR_setR (s : State) (n m : Fin 10) (v : Byte) :
    getR (setR s n v) m = if m = n then v else getR s m := by
  by_cases h : m = n
  · subst h; simp [getR, setR]
  · have : n.val ≠ m.val := fun e => h (Fin.ext e.symm)
    simp [getR, setR, h, Vector.getElem_set_ne, this]

@[simp] theorem getP_setP (s : State) (n m : Fin 10) (v : Word) :
    getP (setP s n v) m = if m = n then v else getP s m := by
  by_cases h : m = n
  · subst h; simp [getP, setP]
  · have : n.val ≠ m.val := fun e => h (Fin.ext e.symm)
    simp [getP, setP, h, Vector.getElem_set_ne, this]

@[simp] theorem getP_setR (s : State) (n m : Fin 10) (v : Byte) : getP (setR s n v) m = getP s m := rfl
@[simp] theorem getR_setP (s : State) (n m : Fin 10) (v : Word) : getR (setP s n v) m = getR s m := rfl

@[simp] theorem setR_vx (s : State) (n : Fin 10) (v : Byte) : (setR s n v).vx = s.vx := rfl
@[simp] theorem setP_vx (s : State) (n : Fin 10) (v : Word) : (setP s n v).vx = s.vx := rfl
@[simp] theorem setSp_vx (s : State) (v : Word) : (setSp s v).vx = s.vx := rfl
@[simp] theorem setR_vy (s : State) (n : Fin 10) (v : Byte) : (setR s n v).vy = s.vy := rfl
@[simp] theorem setP_vy (s : State) (n : Fin 10) (v : Word) : (setP s n v).vy = s.vy := rfl
@[simp] theorem setSp_vy (s : State) (v : Word) : (setSp s v).vy = s.vy := rfl
@[simp] theorem setR_pc (s : State) (n : Fin 10) (v : Byte) : (setR s n v).pc = s.pc := rfl
@[simp] theorem setP_pc (s : State) (n : Fin 10) (v : Word) : (setP s n v).pc = s.pc := rfl
@[simp] theorem setSp_pc (s : State) (v : Word) : (setSp s v).pc = s.pc := rfl
@[simp] theorem setR_flags (s : State) (n : Fin 10) (v : Byte) : (setR s n v).flags = s.flags := rfl
@[simp] theorem setP_flags (s : State) (n : Fin 10) (v : Word) : (setP s n v).flags = s.flags := rfl
@[simp] theorem setSp_flags (s : State) (v : Word) : (setSp s v).flags = s.flags := rfl
@[simp] theorem setR_pending (s : State) (n : Fin 10) (v : Byte) : (setR s n v).pending = s.pending := rfl
@[simp] theorem setP_pending (s : State) (n : Fin 10) (v : Word) : (setP s n v).pending = s.pending := rfl
@[simp] theorem setSp_pending (s : State) (v : Word) : (setSp s v).pending = s.pending := rfl
@[simp] theorem setR_status (s : State) (n : Fin 10) (v : Byte) : (setR s n v).status = s.status := rfl
@[simp] theorem setP_status (s : State) (n : Fin 10) (v : Word) : (setP s n v).status = s.status := rfl
@[simp] theorem setSp_status (s : State) (v : Word) : (setSp s v).status = s.status := rfl
@[simp] theorem setR_mem (s : State) (n : Fin 10) (v : Byte) : (setR s n v).mem = s.mem := rfl
@[simp] theorem setP_mem (s : State) (n : Fin 10) (v : Word) : (setP s n v).mem = s.mem := rfl
@[simp] theorem setSp_mem (s : State) (v : Word) : (setSp s v).mem = s.mem := rfl
@[simp] theorem setR_platform (s : State) (n : Fin 10) (v : Byte) : (setR s n v).platform = s.platform := rfl
@[simp] theorem setP_platform (s : State) (n : Fin 10) (v : Word) : (setP s n v).platform = s.platform := rfl
@[simp] theorem setSp_platform (s : State) (v : Word) : (setSp s v).platform = s.platform := rfl
@[simp] theorem setR_bus (s : State) (n : Fin 10) (v : Byte) : (setR s n v).bus = s.bus := rfl
@[simp] theorem setP_bus (s : State) (n : Fin 10) (v : Word) : (setP s n v).bus = s.bus := rfl
@[simp] theorem setSp_bus (s : State) (v : Word) : (setSp s v).bus = s.bus := rfl
@[simp] theorem setSp_sp (s : State) (v : Word) : (setSp s v).sp = v := by simp [setSp, State.sp]

@[simp] theorem regWrite_pc (s : State) (c : Reg) (v : Word) : (regWrite s c v).pc = s.pc := by
  cases c <;> rfl
@[simp] theorem regWrite_flags (s : State) (c : Reg) (v : Word) : (regWrite s c v).flags = s.flags := by
  cases c <;> rfl
@[simp] theorem regWrite_pending (s : State) (c : Reg) (v : Word) : (regWrite s c v).pending = s.pending := by
  cases c <;> rfl
@[simp] theorem regWrite_status (s : State) (c : Reg) (v : Word) : (regWrite s c v).status = s.status := by
  cases c <;> rfl
@[simp] theorem regWrite_mem (s : State) (c : Reg) (v : Word) : (regWrite s c v).mem = s.mem := by
  cases c <;> rfl
@[simp] theorem regWrite_platform (s : State) (c : Reg) (v : Word) : (regWrite s c v).platform = s.platform := by
  cases c <;> rfl
@[simp] theorem regWrite_bus (s : State) (c : Reg) (v : Word) : (regWrite s c v).bus = s.bus := by
  cases c <;> rfl

@[simp] theorem vregValue_idem (W : Width) (v : Word) : vregValue W (vregValue W v) = vregValue W v := by
  cases W
  · simp only [vregValue]; apply BitVec.eq_of_toNat_eq; simp
  · rfl

/-- The value VX or VY keeps is the written one cut to `vreg_width` (R25). -/
theorem vregValue_eq (W : Width) (v : Word) : vregValue W v = (v.setWidth W.bits).setWidth 16 := by
  cases W
  · rfl
  · simp [vregValue]

@[simp] theorem getR_withVx (s : State) (v : Word) (n : Fin 10) : getR (s.withVx v) n = getR s n := rfl
@[simp] theorem getR_withVy (s : State) (v : Word) (n : Fin 10) : getR (s.withVy v) n = getR s n := rfl
@[simp] theorem getP_withVx (s : State) (v : Word) (n : Fin 10) : getP (s.withVx v) n = getP s n := rfl
@[simp] theorem getP_withVy (s : State) (v : Word) (n : Fin 10) : getP (s.withVy v) n = getP s n := rfl

/-- A register reads as the written value cut to its width (R26, R27). -/
theorem regRead_regWrite_same (s : State) (c : Reg) (v : Word) :
    regRead (regWrite s c v) c = (v.setWidth (regWidth s c).bits).setWidth 16 := by
  cases c with
  | r n => simp [regRead, regWrite, regWidth]
  | p n => simp [regRead, regWrite, regWidth]
  | vx =>
    simp only [regRead, regWrite, regWidth, State.withVx_vx, State.withVx_platform, vregValue_idem]
    exact vregValue_eq _ _
  | vy =>
    simp only [regRead, regWrite, regWidth, State.withVy_vy, State.withVy_platform, vregValue_idem]
    exact vregValue_eq _ _
  | ph n => simp [regRead, regWrite, regWidth, loByte_eq_setWidth]
  | pl n => simp [regRead, regWrite, regWidth]; rw [loByte_eq_setWidth v]

/-- A register that does not overlap the written one reads as before (R20 to R25). -/
theorem regRead_regWrite_other (s : State) (c d : Reg) (v : Word) (h : overlaps d c = false) :
    regRead (regWrite s c v) d = regRead s d := by
  cases c <;> cases d <;> simp_all [regRead, regWrite, overlaps] <;> split <;> simp_all

/-- Only the register vectors, VX and VY matter to a register read. -/
theorem regRead_congr {s t : State} (c : Reg) (h1 : t.r = s.r) (h2 : t.p = s.p) (h3 : t.vx = s.vx)
    (h4 : t.vy = s.vy) (h5 : t.platform = s.platform) : regRead t c = regRead s c := by
  cases c <;> simp [regRead, getR, getP, h1, h2, h3, h4, h5]

@[simp] theorem regRead_withPc (s : State) (v : Word) (c : Reg) : regRead (s.withPc v) c = regRead s c :=
  regRead_congr c rfl rfl rfl rfl rfl
@[simp] theorem sp_withPc (s : State) (v : Word) : (s.withPc v).sp = s.sp := rfl
@[simp] theorem regRead_withFlags (s : State) (v : FlagWord) (c : Reg) : regRead (s.withFlags v) c = regRead s c :=
  regRead_congr c rfl rfl rfl rfl rfl
@[simp] theorem sp_withFlags (s : State) (v : FlagWord) : (s.withFlags v).sp = s.sp := rfl
@[simp] theorem regRead_withPending (s : State) (v : Vector Bool 8) (c : Reg) : regRead (s.withPending v) c = regRead s c :=
  regRead_congr c rfl rfl rfl rfl rfl
@[simp] theorem sp_withPending (s : State) (v : Vector Bool 8) : (s.withPending v).sp = s.sp := rfl
@[simp] theorem regRead_withStatus (s : State) (v : RunStatus) (c : Reg) : regRead (s.withStatus v) c = regRead s c :=
  regRead_congr c rfl rfl rfl rfl rfl
@[simp] theorem sp_withStatus (s : State) (v : RunStatus) : (s.withStatus v).sp = s.sp := rfl
@[simp] theorem regRead_withMem (s : State) (v : Memory) (c : Reg) : regRead (s.withMem v) c = regRead s c :=
  regRead_congr c rfl rfl rfl rfl rfl
@[simp] theorem sp_withMem (s : State) (v : Memory) : (s.withMem v).sp = s.sp := rfl
@[simp] theorem regRead_withBus (s : State) (v : List BusEvent) (c : Reg) : regRead (s.withBus v) c = regRead s c :=
  regRead_congr c rfl rfl rfl rfl rfl
@[simp] theorem sp_withBus (s : State) (v : List BusEvent) : (s.withBus v).sp = s.sp := rfl

/-- A write through the register file moves SP only where it names P8 or one of its bytes (R22). -/
theorem sp_regWrite_other (s : State) (c : Reg) (v : Word) (h : overlaps .sp c = false) :
    (regWrite s c v).sp = s.sp := by
  have := regRead_regWrite_other s c .sp v h
  simpa [regRead, State.sp, Reg.sp] using this

end Sys2Proof.Machine
end

