-- ==== Sys2Proof/Laws/Access.lean ====
section
/-! SUPPORT. What each memory and stack operation does: one lemma each, for an access that stays inside the
address space and for one that does not (spec 20_memory.md rules R61 to R67, R72). -/

namespace Sys2Proof.Machine

/-! ## Reading -/

@[simp] theorem isMmio_withBus (s : State) (l : List BusEvent) (a : Word) : isMmio (s.withBus l) a = isMmio s a := rfl
@[simp] theorem isMmio_withMem (s : State) (m : Memory) (a : Word) : isMmio (s.withMem m) a = isMmio s a := rfl
@[simp] theorem isMmio_setSp (s : State) (v a : Word) : isMmio (setSp s v) a = isMmio s a := rfl

theorem isMmio_congr {s t : State} (h : t.platform = s.platform) (a : Word) : isMmio t a = isMmio s a := by
  simp [isMmio, h]

theorem readEvents_congr {s t : State} (h : t.platform = s.platform) (l : List Word) :
    readEvents t l = readEvents s l := by
  simp [readEvents, isMmio_congr h]

theorem storeEvents_congr {s t : State} (h : t.platform = s.platform) (l : List (Word × Byte)) :
    storeEvents t l = storeEvents s l := by
  simp [storeEvents, isMmio_congr h]

theorem readEvents_append (s : State) (l k : List Word) :
    readEvents s (l ++ k) = readEvents s l ++ readEvents s k := by
  simp [readEvents, List.filterMap_append]

theorem storeEvents_append (s : State) (l k : List (Word × Byte)) :
    storeEvents s (l ++ k) = storeEvents s l ++ storeEvents s k := by
  simp [storeEvents, List.filterMap_append]

@[simp] theorem readEvents_nil (s : State) : readEvents s [] = [] := rfl
@[simp] theorem storeEvents_nil (s : State) : storeEvents s [] = [] := rfl

@[simp] theorem seen_nil (s : State) : seen s [] = s := by simp [seen]
@[simp] theorem seen_bus (s : State) (l : List Word) : (seen s l).bus = s.bus ++ readEvents s l := rfl
@[simp] theorem seen_mem (s : State) (l : List Word) : (seen s l).mem = s.mem := rfl
@[simp] theorem seen_flags (s : State) (l : List Word) : (seen s l).flags = s.flags := rfl
@[simp] theorem seen_pc (s : State) (l : List Word) : (seen s l).pc = s.pc := rfl
@[simp] theorem seen_status (s : State) (l : List Word) : (seen s l).status = s.status := rfl
@[simp] theorem seen_pending (s : State) (l : List Word) : (seen s l).pending = s.pending := rfl
@[simp] theorem seen_platform (s : State) (l : List Word) : (seen s l).platform = s.platform := rfl
@[simp] theorem seen_sp (s : State) (l : List Word) : (seen s l).sp = s.sp := rfl
@[simp] theorem isMmio_seen (s : State) (l : List Word) (a : Word) : isMmio (seen s l) a = isMmio s a := rfl
@[simp] theorem regRead_seen (s : State) (l : List Word) (c : Reg) : regRead (seen s l) c = regRead s c := by
  simp [seen]
@[simp] theorem readEvents_seen (s : State) (l k : List Word) : readEvents (seen s l) k = readEvents s k := rfl
@[simp] theorem storeEvents_seen (s : State) (l : List Word) (k : List (Word × Byte)) :
    storeEvents (seen s l) k = storeEvents s k := rfl

@[simp] theorem seen_seen (s : State) (l k : List Word) : seen (seen s l) k = seen s (l ++ k) := by
  have : readEvents (seen s l) k = readEvents s k := rfl
  rw [seen, this, seen_bus, seen, seen, readEvents_append, State.withBus_twice, List.append_assoc]

/-- A byte read gives the byte, and only a peripheral can tell (R61, R72). -/
theorem readByte_eq (s : State) (a : Word) : readByte s a = (byteIn s a, seen s [a]) := by
  by_cases h : isMmio s a = true <;> simp [readByte, byteIn, seen, readEvents, h]

theorem ofInt_succ (a : Word) : BitVec.ofInt 16 ((a.toNat : Int) + 1) = a + 1 := by
  apply BitVec.eq_of_toNat_eq; simp [BitVec.toNat_ofInt, BitVec.toNat_add]; omega

theorem accessFits_word {s : State} {a : Word} :
    accessFits s a .w16 = true ↔ s.platform.addrPolicy = .wrap ∨ a ≠ 0xFFFF := by
  simp [accessFits, wraps]

theorem inSpace_iff {x : Int} : inSpace x = true ↔ 0 ≤ x ∧ x ≤ 0xFFFF := by
  cases x with
  | ofNat n => simp only [inSpace, decide_eq_true_eq, Int.ofNat_eq_natCast]; omega
  | negSucc n => simp only [inSpace, Bool.false_eq_true, false_iff]; omega

/-- The address check passes inside the space, and always under `addr_policy = wrap` (R67). -/
theorem addrCheck_some {p : AddrPolicy} {x : Int} (h : p = .wrap ∨ (0 ≤ x ∧ x ≤ 0xFFFF)) :
    addrCheck p x = some (BitVec.ofInt 16 x) := by
  unfold addrCheck
  rw [if_pos]
  rcases h with h | h
  · simp [h]
  · simp [inSpace_iff.mpr h]

/-- Outside the space the address check fails under `addr_policy = fault` (R67). -/
theorem addrCheck_none {p : AddrPolicy} {x : Int} (h : p ≠ .wrap) (h' : x < 0 ∨ 0xFFFF < x) :
    addrCheck p x = none := by
  unfold addrCheck
  rw [if_neg]
  simp only [Bool.or_eq_true, inSpace_iff, beq_iff_eq, h, or_false]
  omega

/-- The second byte of a 2-byte access is at `a + 1`, or out of range (R67). -/
theorem secondByte_eq (s : State) (a : Word) :
    secondByte s a = if accessFits s a .w16 then some (a + 1) else none := by
  have hlt := a.isLt
  unfold secondByte
  by_cases h : accessFits s a .w16 = true
  · rw [if_pos h, addrCheck_some, ofInt_succ]
    rcases accessFits_word.mp h with h | h
    · exact .inl h
    · refine .inr ⟨by omega, ?_⟩
      have : a.toNat ≠ 0xFFFF := fun e => h (BitVec.eq_of_toNat_eq e)
      omega
  · rw [if_neg h]
    rw [accessFits_word, not_or] at h
    have : a.toNat = 0xFFFF := by
      have := not_not.mp h.2
      rw [this]; rfl
    exact addrCheck_none h.1 (by omega)

@[simp] theorem accessFits_seen (s : State) (l : List Word) (a : Word) (W : Width) :
    accessFits (seen s l) a W = accessFits s a W := by
  cases W <;> rfl

/-- A word read that stays inside the address space (R63). -/
theorem readWord_ok {s : State} {a : Word} (h : accessFits s a .w16 = true) :
    readWord s a = .ok (wordIn s a) (seen s [a, a + 1]) := by
  unfold readWord
  rw [secondByte_eq, if_pos h]
  simp only [readByte_eq, seen_seen]
  rfl

/-- A word read at 0xFFFF under `addr_policy = fault` (R67). -/
theorem readWord_fault {s : State} {a : Word} (h : accessFits s a .w16 = false) :
    readWord s a = .fault .addressFault (some ((a.toNat : Int) + 1)) (seen s [a]).bus := by
  unfold readWord
  rw [secondByte_eq, h, if_neg Bool.false_ne_true, readByte_eq]

/-- A read of `W / 8` bytes that stays inside the address space (R63, R94). -/
theorem memRead_ok {s : State} {a : Word} {W : Width} (h : accessFits s a W = true) :
    memRead s a W = .ok (memIn s a W) (seen s (accessAddrs a W)) := by
  cases W
  · simp [memRead, readByte_eq, memIn, accessAddrs]
  · exact readWord_ok h

/-! ## Writing -/

/-- What a store of a list of bytes leaves: memory and the peripherals' log, and nothing else. -/
structure Stored (s t : State) (l : List (Word × Byte)) : Prop where
  mem   : MemStored s t l
  bus   : t.bus = s.bus ++ storeEvents s l
  wf    : Memory.wf t.mem = true
  frame : t = (s.withMem t.mem).withBus t.bus

theorem Stored.platform {s t : State} {l} (h : Stored s t l) : t.platform = s.platform := by rw [h.frame]; rfl
theorem Stored.flags {s t : State} {l} (h : Stored s t l) : t.flags = s.flags := by rw [h.frame]; rfl
theorem Stored.pc {s t : State} {l} (h : Stored s t l) : t.pc = s.pc := by rw [h.frame]; rfl
theorem Stored.status {s t : State} {l} (h : Stored s t l) : t.status = s.status := by rw [h.frame]; rfl
theorem Stored.pending {s t : State} {l} (h : Stored s t l) : t.pending = s.pending := by rw [h.frame]; rfl
theorem Stored.sp {s t : State} {l} (h : Stored s t l) : t.sp = s.sp := by rw [h.frame]; rfl
theorem Stored.regRead {s t : State} {l} (h : Stored s t l) (c : Reg) :
    Machine.regRead t c = Machine.regRead s c := by rw [h.frame]; simp

/-- One byte stored (R62, R72). -/
theorem writeByte_stored {s : State} (a : Word) (v : Byte) (w : Memory.wf s.mem = true) :
    Stored s (writeByte s a v) [(a, v)] := by
  by_cases h : isMmio s a = true
  · simp only [writeByte, h, if_true]
    refine ⟨⟨?_, ?_⟩, ?_, w, rfl⟩
    · simp [h]
    · intro b _; rfl
    · simp [storeEvents, h]
  · simp only [writeByte, h]
    refine ⟨⟨?_, ?_⟩, ?_, Memory.wf_write a v w, rfl⟩
    · simp [h]; exact Memory.read_write_same v w
    · intro b hb
      exact Memory.read_write_other v (by have := hb (a, v) (by simp); simpa using this.symm)
    · simp [storeEvents, h]

/-- Stores at distinct addresses add up. -/
theorem Stored.append {s t u : State} {l k : List (Word × Byte)} (h1 : Stored s t l) (h2 : Stored t u k)
    (hd : ∀ e ∈ l, ∀ e' ∈ k, e.1 ≠ e'.1) : Stored s u (l ++ k) := by
  have hp := h1.platform
  refine ⟨⟨?_, ?_⟩, ?_, h2.wf, ?_⟩
  · intro e he
    rcases List.mem_append.mp he with h | h
    · rw [h2.mem.2 e.1.toNat (fun e' he' q => hd e h e' he' (BitVec.eq_of_toNat_eq q.symm))]
      exact h1.mem.1 e h
    · rw [h2.mem.1 e h, isMmio_congr hp]
      rw [h1.mem.2 e.1.toNat (fun e' he' q => hd e' he' e h (BitVec.eq_of_toNat_eq q))]
  · intro a ha
    rw [h2.mem.2 a (fun e he => ha e (List.mem_append.mpr (.inr he))),
      h1.mem.2 a (fun e he => ha e (List.mem_append.mpr (.inl he)))]
  · rw [h2.bus, h1.bus, storeEvents_congr hp, storeEvents_append, List.append_assoc]
  · conv => lhs; rw [h2.frame, h1.frame]
    rfl

theorem word_ne_succ (a : Word) : a ≠ a + 1 := by
  intro h; have := congrArg (· - a) h; simp at this

/-- A word store that stays inside the address space (R64). -/
theorem writeWord_ok {s : State} {a : Word} (v : Word) (w : Memory.wf s.mem = true)
    (h : accessFits s a .w16 = true) :
    ∃ t, writeWord s a v = .ok () t ∧ Stored s t (slotBytes a v) := by
  have h1 := writeByte_stored (s := s) a (hiByte v) w
  have h2 := writeByte_stored (s := writeByte s a (hiByte v)) (a + 1) (loByte v) h1.wf
  refine ⟨_, ?_, h1.append h2 (by simp)⟩
  unfold writeWord
  rw [secondByte_eq, if_pos h]

/-- A word store at 0xFFFF under `addr_policy = fault` (R67). -/
theorem writeWord_fault {s : State} {a : Word} (v : Word) (h : accessFits s a .w16 = false) :
    writeWord s a v = .fault .addressFault (some ((a.toNat : Int) + 1)) (writeByte s a (hiByte v)).bus := by
  unfold writeWord
  rw [secondByte_eq, h, if_neg Bool.false_ne_true]

/-- A store of `W / 8` bytes that stays inside the address space (R64, R95). -/
theorem memWrite_ok {s : State} {a : Word} {W : Width} (v : Value W) (w : Memory.wf s.mem = true)
    (h : accessFits s a W = true) : ∃ t, memWrite s a W v = .ok () t ∧ Stored s t (storedBytes a W v) := by
  cases W
  · exact ⟨_, rfl, writeByte_stored a v w⟩
  · exact writeWord_ok v w h

/-! ## The stack -/

theorem ofInt_sub_two (a : Word) : BitVec.ofInt 16 ((a.toNat : Int) - 2) = a - 2 := by
  have := a.isLt
  apply BitVec.eq_of_toNat_eq; simp [BitVec.toNat_ofInt, BitVec.toNat_sub]; omega

theorem ofInt_add_two (a : Word) : BitVec.ofInt 16 ((a.toNat : Int) + 2) = a + 2 := by
  apply BitVec.eq_of_toNat_eq; simp [BitVec.toNat_ofInt, BitVec.toNat_add]; omega

/-- A push that stays inside the address space (R65). -/
theorem push16_ok {s : State} (v : Word) (w : Memory.wf s.mem = true) (h : pushFits s 1 = true) :
    ∃ t, push16 s v = .ok () t ∧ Stored (setSp s (s.sp - 2)) t (slotBytes (s.sp - 2) v) := by
  have hlt := s.sp.isLt
  have h' : s.platform.addrPolicy = .wrap ∨ 2 ≤ s.sp.toNat := by simpa [pushFits, wraps] using h
  have hc : addrCheck s.platform.addrPolicy ((s.sp.toNat : Int) - 2) = some (s.sp - 2) := by
    rw [addrCheck_some (h'.imp id fun h => by omega), ofInt_sub_two]
  have hf : accessFits (setSp s (s.sp - 2)) (s.sp - 2) .w16 = true := by
    rw [accessFits_word]
    rcases h' with h' | h'
    · left; exact h'
    · right; intro e
      have := congrArg BitVec.toNat e
      simp [BitVec.toNat_sub] at this; omega
  obtain ⟨t, ht, hs⟩ := writeWord_ok (s := setSp s (s.sp - 2)) v w hf
  exact ⟨t, by unfold push16; rw [hc]; exact ht, hs⟩

/-- A push that would take SP below 0 under `addr_policy = fault` (R65, R67). -/
theorem push16_fault {s : State} (v : Word) (h : pushFits s 1 = false) :
    push16 s v = .fault .addressFault (some ((s.sp.toNat : Int) - 2)) s.bus := by
  have h' : s.platform.addrPolicy ≠ .wrap ∧ s.sp.toNat < 2 := by simpa [pushFits, wraps] using h
  have hc : addrCheck s.platform.addrPolicy ((s.sp.toNat : Int) - 2) = none :=
    addrCheck_none h'.1 (by omega)
  unfold push16; rw [hc]

/-- A pop that stays inside the address space (R66). -/
theorem pop16_ok {s : State} (h : popFits s 1 = true) :
    pop16 s = .ok (wordIn s s.sp) (setSp (seen s [s.sp, s.sp + 1]) (s.sp + 2)) := by
  have h' : s.platform.addrPolicy = .wrap ∨ s.sp.toNat + 2 ≤ 0xFFFF := by simpa [popFits, wraps] using h
  have hf : accessFits s s.sp .w16 = true := by
    rw [accessFits_word]
    rcases h' with h' | h'
    · left; exact h'
    · right; intro e; rw [e] at h'; simp at h'
  have hc : addrCheck s.platform.addrPolicy ((s.sp.toNat : Int) + 2) = some (s.sp + 2) := by
    rw [addrCheck_some (h'.imp id fun h => by omega), ofInt_add_two]
  unfold pop16; rw [readWord_ok hf]; simp only [Res.bind, seen_platform]; rw [hc]

/-- A pop that would take SP past 0xFFFF under `addr_policy = fault` (R66, R67). -/
theorem pop16_fault {s : State} (h : popFits s 1 = false) :
    ∃ x bus, pop16 s = .fault .addressFault (some x) bus ∧ 0xFFFF < x := by
  have h' : s.platform.addrPolicy ≠ .wrap ∧ 0xFFFF < s.sp.toNat + 2 := by
    simp only [popFits, wraps, Bool.or_eq_false_iff, beq_eq_false_iff_ne, decide_eq_false_iff_not] at h
    exact ⟨h.1, by omega⟩
  by_cases hf : accessFits s s.sp .w16 = true
  · have hc : addrCheck s.platform.addrPolicy ((s.sp.toNat : Int) + 2) = none :=
      addrCheck_none h'.1 (by omega)
    refine ⟨(s.sp.toNat : Int) + 2, (seen s [s.sp, s.sp + 1]).bus, ?_, by omega⟩
    unfold pop16; rw [readWord_ok hf]; simp only [Res.bind, seen_platform]; rw [hc]
  · have hf' : accessFits s s.sp .w16 = false := by simpa using hf
    have he : s.sp.toNat = 0xFFFF := by
      by_contra e
      refine hf (accessFits_word.mpr (.inr fun e' => e ?_))
      rw [e']; rfl
    refine ⟨(s.sp.toNat : Int) + 1, (seen s [s.sp]).bus, ?_, by omega⟩
    unfold pop16; rw [readWord_fault hf']; rfl

end Sys2Proof.Machine
end

