-- ==== Sys2Proof/Laws/Flags.lean ====
section
/-! SUPPORT. The FLAGS bits: writing one flag, and what each flag computation leaves (spec 10_state.md rules R29
to R34). -/

namespace Sys2Proof.Machine

theorem Flag.bit_lt (x : Flag) : x.bit < 12 := by cases x <;> decide

theorem Flag.bit_inj {x y : Flag} : x.bit = y.bit ↔ x = y := by
  constructor
  · cases x <;> cases y <;> simp [Flag.bit]
  · rintro rfl; rfl

/-- One flag after another was written (R31). -/
@[simp] theorem flagGet_flagPut (f : FlagWord) (x y : Flag) (on : Bool) :
    flagGet (flagPut f x on) y = if y = x then on else flagGet f y := by
  have hx := x.bit_lt
  have hy := y.bit_lt
  have hi : (y = x) ↔ (x.bit = y.bit) := by rw [Flag.bit_inj]; exact eq_comm
  unfold flagGet flagPut flagMask
  by_cases h : y = x
  · subst h
    cases on <;> simp [hy]
  · have h' : ¬ y.bit = x.bit := fun e => h (hi.mpr e.symm)
    cases on <;> simp [h, h', hy]

/-- FLAGS words that agree on every flag are equal. -/
theorem flags_ext {f g : FlagWord} (h : ∀ x, flagGet f x = flagGet g x) : f = g := by
  apply BitVec.eq_of_getLsbD_eq
  intro k hk
  have hx : ∃ x : Flag, x.bit = k := by
    match k, hk with
    | 0, _ => exact ⟨.t, rfl⟩
    | 1, _ => exact ⟨.s, rfl⟩
    | 2, _ => exact ⟨.v, rfl⟩
    | 3, _ => exact ⟨.b, rfl⟩
    | 4, _ => exact ⟨.d, rfl⟩
    | 5, _ => exact ⟨.i, rfl⟩
    | 6, _ => exact ⟨.c, rfl⟩
    | 7, _ => exact ⟨.z, rfl⟩
    | 8, _ => exact ⟨.p, rfl⟩
    | 9, _ => exact ⟨.dir, rfl⟩
    | 10, _ => exact ⟨.h, rfl⟩
    | 11, _ => exact ⟨.e, rfl⟩
  obtain ⟨x, rfl⟩ := hx
  exact h x

/-- Every flag after SetZSP (R32). -/
theorem flagGet_setZSP {w : Nat} (r : BitVec w) (f : FlagWord) (y : Flag) :
    flagGet (setZSP r f) y =
      if y = .p then parityEven r else if y = .s then r.msb else if y = .z then (r == 0) else flagGet f y := by
  simp [setZSP]

/-- Every flag after C and V are written. -/
theorem flagGet_setCV (c v : Bool) (f : FlagWord) (y : Flag) :
    flagGet (setCV c v f) y = if y = .v then v else if y = .c then c else flagGet f y := by
  simp [setCV]

/-- Every flag after a shift or rotate by a nonzero amount. -/
theorem flagGet_shiftFlags {w : Nat} (carry : Bool) (r : BitVec w) (f : FlagWord) (y : Flag) :
    flagGet (shiftFlags carry r f) y =
      if y = .p then parityEven r else if y = .s then r.msb else if y = .z then (r == 0)
      else if y = .c then carry else flagGet f y := by
  simp [shiftFlags, setZSP]

/-- Every flag after a bit instruction. -/
theorem flagGet_bitFlags {w : Nat} (v : BitVec w) (k : Nat) (f : FlagWord) (y : Flag) :
    flagGet (bitFlags v k f) y = if y = .z then !v.getLsbD k else flagGet f y := by
  simp [bitFlags]

end Sys2Proof.Machine
end

