-- ==== Sys2Proof/Laws/Operands.lean ====
section
/-! SUPPORT. What reading and writing an operand does, for every operand form, and what the frame of an
instruction answers (spec 30_encoding.md rules R89 to R95, R108, R109). -/

namespace Sys2Proof.Machine

/-! ## Reading -/

theorem formFits_seen (s : State) (l : List Word) (m : MemRef) : formFits (seen s l) m = formFits s m := by
  cases m <;> simp [formFits, wraps, indexSum]

/-- Reading an operand that fits, after the addresses of `l` were read (R94). -/
theorem readOp_ok {s : State} {o : Operand} {W : Width} (l : List Word) (h : operandFits s o W = true) :
    readOp (seen s l) (locate s o) W = .ok (operandIn s (seen s l) o W) (seen s (l ++ operandAddrs s o W)) := by
  cases o with
  | reg c => simp [readOp, locate, operandIn, operandAddrs]
  | imm8 b => simp [readOp, locate, operandIn, operandAddrs]
  | imm16 v => simp [readOp, locate, operandIn, operandAddrs]
  | mem m =>
    simp only [operandFits, Bool.and_eq_true] at h
    simp only [readOp, locate, operandIn, operandAddrs]
    rw [memRead_ok (by rw [accessFits_seen]; exact h.2), seen_seen]

/-- Reading a shift amount or bit position, after the addresses of `l` were read (R108). -/
theorem readCount_ok {s : State} {o : Operand} {W : Width} (l : List Word) :
    readCount (seen s l) (locate s o) W = .ok (countIn s (seen s l) o W) (seen s (l ++ countAddrs s o)) := by
  cases o with
  | reg c => simp [readCount, locate, countIn, countAddrs, operandAddrs]
  | imm8 b => simp [readCount, locate, countIn, countAddrs, operandAddrs]
  | imm16 v => simp [readCount, locate, countIn, countAddrs, operandAddrs]
  | mem m => simp [readCount, locate, countIn, countAddrs, operandAddrs, accessAddrs, readByte_eq]

/-- Reading a target that fits (R109). -/
theorem readTarget_ok {s : State} {t : Target} (h : operandFits s t.toOperand .w16 = true) :
    readTarget s (locate s t.toOperand) =
      .ok (targetIn s t) (seen s (operandAddrs s t.toOperand .w16)) := by
  cases t with
  | reg c => simp [readTarget, locate, targetIn, operandAddrs, Target.toOperand]
  | imm16 v => simp [readTarget, locate, targetIn, operandAddrs, Target.toOperand]
  | mem m =>
    simp only [Target.toOperand, operandFits, Bool.and_eq_true] at h
    simp only [readTarget, locate, targetIn, operandAddrs, Target.toOperand, accessAddrs]
    exact readWord_ok h.2

/-! ## Writing -/

/-- What an instruction has done once its destination is written: FLAGS apart, only the destination and the
peripherals' log differ from `s`. -/
structure Written (s t : State) (reads : List Word) (d : Dst) (W : Width) (v : Value W) (f : FlagWord) : Prop where
  dest    : DestHolds t d W v
  regs    : RegsKept s t (destRegs d)
  mem     : MemStored s t (destBytes s d W v)
  bus     : t.bus = s.bus ++ readEvents s reads ++ storeEvents s (destBytes s d W v)
  flags   : t.flags = f
  pc      : t.pc = s.pc
  control : ControlKept s t
  wf      : Memory.wf t.mem = true

theorem MemStored.nil (s t : State) (h : t.mem = s.mem) : MemStored s t [] :=
  ⟨by simp, by simp [h]⟩

theorem MemStored.congr {s s' t : State} {l : List (Word × Byte)} (h : MemStored s t l) (hm : s.mem = s'.mem)
    (hp : s.platform = s'.platform) : MemStored s' t l := by
  refine ⟨fun e he => ?_, fun a ha => ?_⟩
  · rw [h.1 e he, hm, isMmio_congr hp]
  · rw [h.2 a ha, hm]

/-- Writing a destination that fits, after the addresses of `l` were read and FLAGS was written (R95). A register
destination is written at its own width. -/
theorem writeOp_ok {s : State} {d : Dst} {W : Width} (l : List Word) (f : FlagWord) (v : Value W)
    (w : Memory.wf s.mem = true) (h : operandFits s d.toOperand W = true)
    (hW : ∀ c, d = .reg c → W = regWidth s c) :
    ∃ t, writeOp ((seen s l).withFlags f) (locate s d.toOperand) W v = .ok () t ∧ Written s t l d W v f := by
  cases d with
  | reg c =>
    refine ⟨_, rfl, ?_, ?_, MemStored.nil _ _ ?_, ?_, ?_, ?_, ?_, ?_⟩
    · have hw := hW c rfl
      subst hw
      simp only [DestHolds, regRead_regWrite_same]
      have : regWidth ((seen s l).withFlags f) c = regWidth s c := by cases c <;> rfl
      rw [this]
      apply BitVec.eq_of_getLsbD_eq; intro k hk
      simp only [BitVec.getLsbD_setWidth]
      by_cases hb : k < (regWidth s c).bits
      · simp [hk, hb]
      · simp [hk, hb, BitVec.getLsbD_of_ge v k (by omega)]
    · intro c' hc
      rw [regRead_regWrite_other _ _ _ _ (hc c (by simp [destRegs]))]; simp
    · simp
    · simp [destBytes]
    · simp
    · simp
    · simp [ControlKept]
    · simpa using w
  | mem m =>
    simp only [Dst.toOperand, operandFits, Bool.and_eq_true] at h
    have hf : accessFits ((seen s l).withFlags f) (effAddr s m) W = true := by
      rw [← h.2]; cases W <;> rfl
    obtain ⟨t, ht, hs⟩ := memWrite_ok (s := (seen s l).withFlags f) v (by simpa using w) hf
    refine ⟨t, ht, trivial, ?_, ?_, ?_, ?_, ?_, ?_, hs.wf⟩
    · intro c _; rw [hs.regRead]; simp
    · exact hs.mem.congr rfl rfl
    · rw [hs.bus, storeEvents_congr (s := s) rfl]; rfl
    · rw [hs.flags]; rfl
    · rw [hs.pc]; rfl
    · exact ⟨by rw [hs.pending]; rfl, by rw [hs.status]; rfl, by rw [hs.platform]; rfl⟩

theorem Written.wrote {s t : State} {i : Instr} {l : List Word} {d : Dst} {W : Width} {v : Value W} {f : FlagWord}
    (h : Written s t l d W v f) : Wrote i s (t.withPc (nextPc i s)) l d W v := by
  refine ⟨?_, ?_, h.mem, h.bus, rfl, h.control⟩
  · have := h.dest; cases d <;> simp_all [DestHolds]
  · intro c hc; rw [regRead_withPc]; exact h.regs c hc

/-! ## A word at 0xFFFF (R67) -/

/-- An operand whose address can be computed and that does not fit is a word at 0xFFFF under `addr_policy = fault`. -/
theorem word_at_top {s : State} {o : Operand} {W : Width} (h : indexFits s o = true)
    (h' : operandFits s o W = false) :
    ∃ m, o = .mem m ∧ W = .w16 ∧ effAddr s m = 0xFFFF ∧ s.platform.addrPolicy = .fault := by
  cases o with
  | mem m =>
    simp only [indexFits] at h
    simp only [operandFits, h, Bool.true_and] at h'
    cases W with
    | w8 => simp [accessFits] at h'
    | w16 =>
      simp only [accessFits, Bool.or_eq_false_iff, decide_eq_false_iff_not, not_not, wraps] at h'
      refine ⟨m, rfl, rfl, h'.2, ?_⟩
      cases hp : s.platform.addrPolicy with
      | fault => rfl
      | wrap => rw [hp] at h'; cases h'.1
  | reg c => cases h'
  | imm8 b => cases h'
  | imm16 v => cases h'

/-- In every state with the same OPEN parameters the word does not fit. -/
theorem accessFits_top {s u : State} {a : Word} (ha : a = 0xFFFF) (hp : s.platform.addrPolicy = .fault)
    (hu : u.platform = s.platform) : accessFits u a .w16 = false := by
  simp [accessFits, wraps, hu, hp, ha]

/-- Reading an operand that does not fit raises AddressFault for 0x10000 (R63). -/
theorem readOp_fault {s u : State} {o : Operand} {W : Width} (h : indexFits s o = true)
    (h' : operandFits s o W = false) (hu : u.platform = s.platform) :
    ∃ bus, readOp u (locate s o) W = .fault .addressFault (some 0x10000) bus := by
  obtain ⟨m, rfl, rfl, ha, hp⟩ := word_at_top h h'
  exact ⟨_, (readWord_fault (accessFits_top ha hp hu)).trans (by rw [ha]; rfl)⟩

/-- Writing a destination that does not fit raises AddressFault for 0x10000 (R64). -/
theorem writeOp_fault {s u : State} {o : Operand} {W : Width} (v : Value W) (h : indexFits s o = true)
    (h' : operandFits s o W = false) (hu : u.platform = s.platform) :
    ∃ bus, writeOp u (locate s o) W v = .fault .addressFault (some 0x10000) bus := by
  obtain ⟨m, rfl, rfl, ha, hp⟩ := word_at_top h h'
  exact ⟨_, (writeWord_fault v (accessFits_top ha hp hu)).trans (by rw [ha]; rfl)⟩

/-- Reading a target that does not fit raises AddressFault for 0x10000 (R109). -/
theorem readTarget_fault {s : State} {t : Target} (h : indexFits s t.toOperand = true)
    (h' : operandFits s t.toOperand .w16 = false) :
    ∃ bus, readTarget s (locate s t.toOperand) = .fault .addressFault (some 0x10000) bus := by
  obtain ⟨m, e, -, ha, hp⟩ := word_at_top h h'
  rw [e]
  exact ⟨_, (readWord_fault (accessFits_top ha hp rfl)).trans (by rw [ha]; rfl)⟩

/-! ## The frame of an instruction -/

theorem indexError_none {s : State} {o : Operand} (h : indexFits s o = true) : indexError s o = none := by
  cases o with
  | mem m =>
    cases m with
    | indexed c d =>
      have : s.platform.addrPolicy = .wrap ∨ inSpace (indexSum s c d) = true := by
        simpa [indexFits, formFits, wraps] using h
      simp only [indexError]
      rw [addrCheck_some (this.imp id inSpace_iff.mp)]
      simp
    | direct a => rfl
    | indirect c => rfl
  | reg c => rfl
  | imm8 b => rfl
  | imm16 v => rfl

theorem indexError_some {s : State} {c : Reg} {d : Byte} (h : formFits s (.indexed c d) = false) :
    indexError s (.mem (.indexed c d)) = some (indexSum s c d) := by
  have : s.platform.addrPolicy ≠ .wrap ∧ ¬ inSpace (indexSum s c d) = true := by
    simpa [formFits, wraps] using h
  have hx : indexSum s c d < 0 ∨ 0xFFFF < indexSum s c d := by
    by_contra e; exact this.2 (inSpace_iff.mpr (by omega))
  simp only [indexError]
  rw [addrCheck_none this.1 hx]
  simp

theorem indexFits_of_operandFits {s : State} {o : Operand} {W : Width} (h : operandFits s o W = true) :
    indexFits s o = true := by
  cases o <;> simp_all [operandFits, indexFits]

/-- No operand's decode raises AddressFault when every address can be computed. -/
theorem indexFault_none {s : State} {os : List Operand} (off : Nat) (h : ∀ o ∈ os, indexFits s o = true) :
    indexFault s os off = none := by
  induction os generalizing off with
  | nil => rfl
  | cons o os ih =>
    simp only [indexFault]
    rw [indexError_none (h o (by simp))]
    exact ih _ fun o' ho => h o' (by simp [ho])

/-- An instruction whose operand addresses can be computed runs its rule's effects. -/
theorem runInstr_eq {i : Instr} {s : State} {body : State → Res Unit}
    (h : ∀ o ∈ i.operands, indexFits s o = true) : runInstr i s body = finish i s (body s) := by
  rw [runInstr, indexFault_none 2 h]

/-- The two ways an instruction ends: with the state its effects give, or with a fault that keeps everything
but the status and what peripherals saw. -/
theorem runInstr_cases {i : Instr} {s t : State} {body : State → Res Unit} (h : runInstr i s body = .next t) :
    (body s = .ok () t) ∨ ∃ f bus, f.pc = s.pc ∧ f.vector = none ∧ t = s.raise f bus := by
  unfold runInstr at h
  split at h
  · cases h; exact .inr ⟨_, _, rfl, rfl, rfl⟩
  · unfold finish at h
    split at h
    · rename_i t' hb; cases h; exact .inl hb
    · cases h; exact .inr ⟨_, _, rfl, rfl, rfl⟩

end Sys2Proof.Machine
end

