-- ==== Sys2Proof/Laws/Run.lean ====
section
/-! SUPPORT. What each shared way of running an instruction does when every address stays inside the address
space: one lemma each (spec 30_encoding.md rules R93 to R109, 60_exceptions.md rule R255). -/

namespace Sys2Proof.Machine

@[simp] theorem Res.bind_ok {α β : Type} (a : α) (s : State) (k : α → State → Res β) :
    (Res.ok a s).bind k = k a s := rfl
@[simp] theorem Res.bind_fault {α β : Type} (f : Fault) (x : Option Int) (bus : List BusEvent)
    (k : α → State → Res β) : (Res.fault f x bus).bind k = .fault f x bus := rfl
@[simp] theorem finish_ok (i : Instr) (s t : State) : finish i s (.ok () t) = .next t := rfl

theorem widthA_dst {s : State} {d : Dst} {x : Operand} (c : Reg) (h : d = .reg c) :
    widthA s d.toOperand x = regWidth s c := by subst h; rfl

theorem widthB_dst {s : State} {d : Dst} (c : Reg) (h : d = .reg c) :
    widthB s d.toOperand = regWidth s c := by subst h; rfl

theorem readOp_ok_start {s : State} {o : Operand} {W : Width} (h : operandFits s o W = true) :
    readOp s (locate s o) W = .ok (operandIn s s o W) (seen s (operandAddrs s o W)) := by
  simpa using readOp_ok (s := s) [] h

@[simp] theorem locate_seen (s : State) (l : List Word) (o : Operand) : locate (seen s l) o = locate s o := by
  cases o with
  | mem m => cases m <;> simp [locate, effAddr, indexSum]
  | reg c => rfl
  | imm8 b => rfl
  | imm16 v => rfl

/-! ## Instructions that write a destination -/

/-- A two-operand instruction whose operands fit (R93 to R95). -/
theorem runAlu_ok {i : Instr} {d : Dst} {x : Operand} {s : State} {result : {w : Nat} → BitVec w → BitVec w → BitVec w}
    {flags : {w : Nat} → BitVec w → BitVec w → FlagWord → FlagWord} (hi : i.operands = [d.toOperand, x])
    (w : Memory.wf s.mem = true) (h1 : operandFits s d.toOperand (widthA s d.toOperand x) = true)
    (h2 : operandFits s x (widthA s d.toOperand x) = true) {W : Width} (hW : W = widthA s d.toOperand x)
    {a b : Value W} (ha : a = operandIn s s d.toOperand W)
    (hb : b = operandIn s (seen s (operandAddrs s d.toOperand W)) x W) :
    ∃ t, runAlu i d.toOperand x s result flags = .next t ∧
      Wrote i s t (operandAddrs s d.toOperand W ++ operandAddrs s x W) d W (result a b) ∧
      t.flags = flags a b s.flags ∧ Memory.wf t.mem = true := by
  subst hW ha hb
  obtain ⟨t, ht, hw⟩ := writeOp_ok (operandAddrs s d.toOperand (widthA s d.toOperand x) ++
    operandAddrs s x (widthA s d.toOperand x)) (flags _ _ s.flags) (result _ _) w h1 (fun c h => widthA_dst c h)
  refine ⟨t.withPc (nextPc i s), ?_, hw.wrote, hw.flags, hw.wf⟩
  rw [runAlu, runInstr_eq (by
    rw [hi]; simp only [List.mem_cons, List.not_mem_nil, or_false]
    rintro o (rfl | rfl)
    · exact indexFits_of_operandFits h1
    · exact indexFits_of_operandFits h2)]
  rw [readOp_ok_start h1, Res.bind_ok, readOp_ok _ h2, Res.bind_ok, seen_flags, ht]
  rfl

/-- A one-operand instruction whose operand fits (R93 to R95). -/
theorem runUnary_ok {i : Instr} {d : Dst} {s : State} {result : {w : Nat} → BitVec w → BitVec w}
    {flags : {w : Nat} → BitVec w → FlagWord → FlagWord} (hi : i.operands = [d.toOperand])
    (w : Memory.wf s.mem = true) (h1 : operandFits s d.toOperand (widthB s d.toOperand) = true)
    {W : Width} (hW : W = widthB s d.toOperand) {a : Value W} (ha : a = operandIn s s d.toOperand W) :
    ∃ t, runUnary i d.toOperand s result flags = .next t ∧
      Wrote i s t (operandAddrs s d.toOperand W) d W (result a) ∧
      t.flags = flags a s.flags ∧ Memory.wf t.mem = true := by
  subst hW ha
  obtain ⟨t, ht, hw⟩ := writeOp_ok (operandAddrs s d.toOperand (widthB s d.toOperand)) (flags _ s.flags)
    (result _) w h1 (fun c h => widthB_dst c h)
  refine ⟨t.withPc (nextPc i s), ?_, hw.wrote, hw.flags, hw.wf⟩
  rw [runUnary, runInstr_eq (by
    rw [hi]; simp only [List.mem_cons, List.not_mem_nil, or_false]
    rintro o rfl
    exact indexFits_of_operandFits h1)]
  rw [readOp_ok_start h1, Res.bind_ok, seen_flags, ht]
  rfl

theorem shiftOperands_fit {i : Instr} {o x : Operand} {s : State} {W : Width} (hi : i.operands = [o, x])
    (h1 : operandFits s o W = true) (h2 : indexFits s x = true) : ∀ o' ∈ i.operands, indexFits s o' = true := by
  rw [hi]; simp only [List.mem_cons, List.not_mem_nil, or_false]
  rintro o' (rfl | rfl)
  · exact indexFits_of_operandFits h1
  · exact h2

/-- A shift or rotate by a nonzero amount whose operands fit (R107, R108, R160 to R163). -/
theorem runShift_ok {i : Instr} {d : Dst} {x : Operand} {s : State} {result : {w : Nat} → BitVec w → Nat → BitVec w}
    {carry : {w : Nat} → BitVec w → Nat → Bool} (hi : i.operands = [d.toOperand, x])
    (w : Memory.wf s.mem = true) (h1 : operandFits s d.toOperand (widthB s d.toOperand) = true)
    (h2 : indexFits s x = true) {W : Width} (hW : W = widthB s d.toOperand) {a : Value W}
    (ha : a = operandIn s s d.toOperand W) {k : Nat}
    (hk : k = countIn s (seen s (operandAddrs s d.toOperand W)) x W) (hk0 : k ≠ 0) :
    ∃ t, runShift i d.toOperand x s result carry = .next t ∧
      Wrote i s t (operandAddrs s d.toOperand W ++ countAddrs s x) d W (result a k) ∧
      t.flags = shiftFlags (carry a k) (result a k) s.flags ∧ Memory.wf t.mem = true := by
  subst hW ha hk
  obtain ⟨t, ht, hw⟩ := writeOp_ok (operandAddrs s d.toOperand (widthB s d.toOperand) ++ countAddrs s x)
    (shiftFlags (carry _ _) (result _ _) s.flags) (result _ _) w h1 (fun c h => widthB_dst c h)
  refine ⟨t.withPc (nextPc i s), ?_, hw.wrote, hw.flags, hw.wf⟩
  rw [runShift, runInstr_eq (shiftOperands_fit hi h1 h2)]
  rw [readOp_ok_start h1, Res.bind_ok, readCount_ok, Res.bind_ok, if_neg hk0, seen_flags, ht]
  rfl

/-- A shift or rotate by an amount of 0 only advances the PC (D19). -/
theorem runShift_zero {i : Instr} {o x : Operand} {s : State} {result : {w : Nat} → BitVec w → Nat → BitVec w}
    {carry : {w : Nat} → BitVec w → Nat → Bool} (hi : i.operands = [o, x])
    (h1 : operandFits s o (widthB s o) = true) (h2 : indexFits s x = true)
    (hk : countIn s (seen s (operandAddrs s o (widthB s o))) x (widthB s o) = 0) :
    runShift i o x s result carry =
      .next ((seen s (operandAddrs s o (widthB s o) ++ countAddrs s x)).withPc (nextPc i s)) := by
  rw [runShift, runInstr_eq (shiftOperands_fit hi h1 h2)]
  rw [readOp_ok_start h1, Res.bind_ok, readCount_ok, Res.bind_ok, if_pos hk]
  rfl

/-- A bit instruction that writes its operand, whose operands fit (R107, R108, R171 to R173). -/
theorem runBit_ok {i : Instr} {d : Dst} {x : Operand} {s : State} {result : {w : Nat} → BitVec w → Nat → BitVec w}
    (hi : i.operands = [d.toOperand, x]) (w : Memory.wf s.mem = true)
    (h1 : operandFits s d.toOperand (widthB s d.toOperand) = true) (h2 : indexFits s x = true)
    {W : Width} (hW : W = widthB s d.toOperand) {v : Value W} (hv : v = operandIn s s d.toOperand W) {k : Nat}
    (hk : k = countIn s (seen s (operandAddrs s d.toOperand W)) x W) :
    ∃ t, runBit i d.toOperand x s result = .next t ∧
      Wrote i s t (operandAddrs s d.toOperand W ++ countAddrs s x) d W (result v k) ∧
      t.flags = bitFlags (result v k) k s.flags ∧ Memory.wf t.mem = true := by
  subst hW hv hk
  obtain ⟨t, ht, hw⟩ := writeOp_ok (operandAddrs s d.toOperand (widthB s d.toOperand) ++ countAddrs s x)
    (bitFlags (result _ _) _ s.flags) (result _ _) w h1 (fun c h => widthB_dst c h)
  refine ⟨t.withPc (nextPc i s), ?_, hw.wrote, hw.flags, hw.wf⟩
  rw [runBit, runInstr_eq (shiftOperands_fit hi h1 h2)]
  rw [readOp_ok_start h1, Res.bind_ok, readCount_ok, Res.bind_ok, seen_flags, ht]
  rfl

/-- The amount of a shift and the position of a bit instruction are below the width (R107). -/
theorem countIn_lt (s u : State) (x : Operand) (W : Width) : countIn s u x W < W.bits := by
  have : 0 < W.bits := by cases W <;> decide
  cases x <;> exact Nat.mod_lt _ this

/-! ## Jumps -/

/-- A jump that is taken goes to its target (R109, R185). -/
theorem runJump_taken {i : Instr} {g : Target} {s : State} (hi : i.operands = [g.toOperand])
    (h : operandFits s g.toOperand .w16 = true) :
    runJump i g true s = .next ((seen s (operandAddrs s g.toOperand .w16)).withPc (targetIn s g)) := by
  rw [runJump, if_pos rfl, runInstr_eq (by rw [hi]; simpa using indexFits_of_operandFits h), readTarget_ok h]
  rfl

/-- A jump that is not taken only advances the PC, whatever its target (R186, D16). -/
theorem runJump_not_taken {i : Instr} {g : Target} {s : State} :
    runJump i g false s = .next (s.withPc (nextPc i s)) := rfl

/-- An instruction that writes one FLAGS bit (R215, R216, R219, R220). -/
theorem runFlag_eq {i : Instr} {x : Flag} {on : Bool} {s : State} (hi : i.operands = []) :
    runFlag i x on s = .next ((s.withFlags (flagPut s.flags x on)).withPc (nextPc i s)) := by
  rw [runFlag, runInstr_eq (by rw [hi]; simp)]
  rfl

end Sys2Proof.Machine
end

