-- ==== Sys2Proof/Laws/Slots.lean ====
section
/-! SUPPORT. What pushing and popping several slots does, and taking and leaving an interrupt (spec 20_memory.md
rules R65, R66, 47_stack.md rules R202, R203, 60_exceptions.md rules R255, R258). -/

namespace Sys2Proof.Machine

/-! ## Congruence of reads -/

theorem byteIn_congr {s t : State} (hm : t.mem = s.mem) (hp : t.platform = s.platform) (hb : t.bus = s.bus)
    (a : Word) : byteIn t a = byteIn s a := by
  simp [byteIn, isMmio_congr hp, hm, hb]

theorem wordIn_congr {s t : State} (hm : t.mem = s.mem) (hp : t.platform = s.platform) (hb : t.bus = s.bus)
    (a : Word) : wordIn t a = wordIn s a := by
  have h : byteIn (seen t [a]) (a + 1) = byteIn (seen s [a]) (a + 1) :=
    byteIn_congr (by simpa using hm) (by simpa using hp) (by simp [hb, readEvents_congr hp]) _
  rw [wordIn, wordIn, h, byteIn_congr hm hp hb]

/-- Where no peripheral owns a byte, a read gives what is in memory. -/
theorem byteIn_mem {s : State} {a : Word} (h : isMmio s a = false) : byteIn s a = s.mem.read a.toNat := by
  simp [byteIn, h]

theorem wordIn_mem {s : State} {a : Word} (h : isMmio s a = false) (h' : isMmio s (a + 1) = false) :
    wordIn s a = s.mem.read a.toNat ++ s.mem.read (a + 1).toNat := by
  rw [wordIn, byteIn_mem h, byteIn_mem (by simpa using h')]; rfl

/-- The byte stored at an address no peripheral owns. -/
theorem MemStored.read {s t : State} {l : List (Word × Byte)} (h : MemStored s t l) {a : Word} {v : Byte}
    (he : (a, v) ∈ l) (hm : isMmio s a = false) : t.mem.read a.toNat = v := by
  have := h.1 _ he
  simpa [hm] using this

/-! ## Room on the stack -/

theorem pushFits_wrap {s : State} {n : Nat} : pushFits s n = true ↔
    s.platform.addrPolicy = .wrap ∨ 2 * n ≤ s.sp.toNat := by simp [pushFits, wraps]

theorem popFits_wrap {s : State} {n : Nat} : popFits s n = true ↔
    s.platform.addrPolicy = .wrap ∨ s.sp.toNat + 2 * n ≤ 0xFFFF := by simp [popFits, wraps]

theorem pushFits_first {s : State} {n : Nat} (h : pushFits s (n + 1) = true) : pushFits s 1 = true := by
  rw [pushFits_wrap] at *; exact h.imp id fun h => by omega

theorem pushFits_rest {s t : State} {n : Nat} (h : pushFits s (n + 1) = true) (hp : t.platform = s.platform)
    (hs : t.sp = s.sp - 2) : pushFits t n = true := by
  rw [pushFits_wrap] at *
  rw [hp, hs]
  refine h.imp id fun h => ?_
  have := s.sp.isLt
  simp [BitVec.toNat_sub]; omega

theorem popFits_first {s : State} {n : Nat} (h : popFits s (n + 1) = true) : popFits s 1 = true := by
  rw [popFits_wrap] at *; exact h.imp id fun h => by omega

theorem popFits_rest {s t : State} {n : Nat} (h : popFits s (n + 1) = true) (hp : t.platform = s.platform)
    (hs : t.sp = s.sp + 2) : popFits t n = true := by
  rw [popFits_wrap] at *
  rw [hp, hs]
  refine h.imp id fun h => ?_
  have := s.sp.isLt
  simp [BitVec.toNat_add]; omega

/-! ## Pushing several words -/

/-- The bytes that pushing the words of a list stores, from the SP before the first push. -/
def pushBytes (sp : Word) : List Word → List (Word × Byte)
  | [] => []
  | v :: vs => slotBytes (sp - 2) v ++ pushBytes (sp - 2) vs

theorem slotBytes_eq (a v : Word) : slotBytes a v = [(a, hiByte v), (a + 1, loByte v)] := rfl

theorem pushBytes_addr {sp : Word} {vs : List Word} {e : Word × Byte} (h : e ∈ pushBytes sp vs) :
    ∃ j, 1 ≤ j ∧ j ≤ 2 * vs.length ∧ e.1 = sp - BitVec.ofNat 16 j := by
  induction vs generalizing sp with
  | nil => simp [pushBytes] at h
  | cons v vs ih =>
    simp only [pushBytes, slotBytes_eq, List.cons_append, List.nil_append, List.mem_cons] at h
    rcases h with rfl | rfl | h
    · exact ⟨2, by omega, by simp, rfl⟩
    · refine ⟨1, by omega, by simp; omega, ?_⟩
      apply BitVec.eq_of_toNat_eq; simp [BitVec.toNat_sub, BitVec.toNat_add]; omega
    · obtain ⟨j, h1, h2, h3⟩ := ih h
      refine ⟨j + 2, by omega, by simp; omega, ?_⟩
      rw [h3]; apply BitVec.eq_of_toNat_eq; simp [BitVec.toNat_sub]; omega

theorem pushBytes_eq (sp : Word) (vs : List Word) :
    pushBytes sp vs = (List.range vs.length).flatMap fun k =>
      slotBytes (sp - BitVec.ofNat 16 (2 * (k + 1))) (vs.getD k 0) := by
  induction vs generalizing sp with
  | nil => rfl
  | cons v vs ih =>
    rw [pushBytes, ih, List.length_cons, List.range_succ_eq_map, List.flatMap_cons, List.flatMap_map]
    congr 1
    refine congrArg (fun f => List.flatMap f (List.range vs.length)) (funext fun k => ?_)
    show slotBytes _ _ = slotBytes _ (vs.getD k 0)
    congr 1
    apply BitVec.eq_of_toNat_eq; simp [BitVec.toNat_sub]; omega

/-- A store after SP moved, seen from the state before. -/
theorem Stored.slot_append {s t u : State} {a b : Word} {l k : List (Word × Byte)}
    (h1 : Stored (setSp s a) t l) (h2 : Stored (setSp t b) u k) (hd : ∀ e ∈ l, ∀ e' ∈ k, e.1 ≠ e'.1) :
    Stored (setSp s b) u (l ++ k) := by
  have h1' : Stored (setSp s b) (setSp t b) l := by
    refine ⟨h1.mem.congr rfl rfl, by rw [setSp_bus, h1.bus]; rfl, by simpa using h1.wf, ?_⟩
    conv => lhs; rw [h1.frame]
    simp only [setSp, setP, State.withP, State.withMem, State.withBus]
    congr 1
    exact Vector.set_set ..
  exact h1'.append h2 hd

theorem regRead_setSp {c : Reg} (s : State) (v : Word) (h : overlaps c .sp = false) :
    regRead (setSp s v) c = regRead s c :=
  regRead_regWrite_other s .sp c v h

/-- Pushing registers that share no storage with SP (R202). -/
theorem pushRegs_ok {s : State} (cs : List Reg) (hc : ∀ c ∈ cs, overlaps c .sp = false)
    (hn : 2 * cs.length ≤ 0x10000) (w : Memory.wf s.mem = true) (h : pushFits s cs.length = true) :
    ∃ t, pushRegs s cs = .ok () t ∧
      Stored (setSp s (s.sp - BitVec.ofNat 16 (2 * cs.length))) t (pushBytes s.sp (cs.map (regRead s))) := by
  induction cs generalizing s with
  | nil =>
    refine ⟨s, rfl, ?_⟩
    have : setSp s (s.sp - BitVec.ofNat 16 (2 * ([] : List Reg).length)) = s := by
      simp [setSp, setP, State.sp, getP, State.withP]
    rw [this]
    exact ⟨MemStored.nil _ _ rfl, by simp [pushBytes], w, rfl⟩
  | cons c cs ih =>
    obtain ⟨t, ht, hs⟩ := push16_ok (regRead s c) w (pushFits_first h)
    have hsp : t.sp = s.sp - 2 := by rw [hs.sp]; simp
    have hreg : ∀ c' ∈ cs, regRead t c' = regRead s c' := fun c' hc' => by
      rw [hs.regRead, regRead_setSp _ _ (hc c' (by simp [hc']))]
    obtain ⟨u, hu, hs'⟩ := ih (s := t) (fun c' hc' => hc c' (by simp [hc'])) (by simp at hn; omega) hs.wf
      (pushFits_rest h hs.platform hsp)
    refine ⟨u, by rw [pushRegs, ht, Res.bind_ok, hu], ?_⟩
    have hmap : cs.map (regRead t) = cs.map (regRead s) := List.map_congr_left hreg
    have hfin : s.sp - 2 - BitVec.ofNat 16 (2 * cs.length) = s.sp - BitVec.ofNat 16 (2 * (c :: cs).length) := by
      apply BitVec.eq_of_toNat_eq; simp [BitVec.toNat_sub]; omega
    rw [hsp, hfin, hmap] at hs'
    refine hs.slot_append hs' ?_
    intro e he e' he' heq
    obtain ⟨j, h1, h2, h3⟩ := pushBytes_addr he'
    simp only [List.length_map, List.length_cons] at h2 hn
    have := s.sp.isLt
    rw [h3] at heq
    simp only [slotBytes_eq, List.mem_cons, List.not_mem_nil, or_false] at he
    rcases he with rfl | rfl
    · have := congrArg BitVec.toNat heq
      simp [BitVec.toNat_sub] at this; omega
    · have := congrArg BitVec.toNat heq
      simp [BitVec.toNat_sub, BitVec.toNat_add] at this; omega

/-! ## Popping several words -/

/-- The addresses that `k` pops read, from the SP before the first. -/
def popAddrsFrom (sp : Word) : Nat → List Word
  | 0 => []
  | k + 1 => sp :: (sp + 1) :: popAddrsFrom (sp + 2) k

theorem popAddrs_eq (s : State) (k : Nat) : popAddrs s k = popAddrsFrom s.sp k := by
  unfold popAddrs
  generalize s.sp = sp
  induction k generalizing sp with
  | zero => rfl
  | succ k ih =>
    rw [List.range_succ_eq_map, List.flatMap_cons, List.flatMap_map, popAddrsFrom, ← ih (sp + 2)]
    have : (sp + BitVec.ofNat 16 (2 * 0)) = sp := by simp
    rw [this, List.cons_append, List.cons_append, List.nil_append]
    congr 2
    refine congrArg (fun f => List.flatMap f (List.range k)) (funext fun j => ?_)
    have e : sp + BitVec.ofNat 16 (2 * (j + 1)) = sp + 2 + BitVec.ofNat 16 (2 * j) := by
      apply BitVec.eq_of_toNat_eq; simp [BitVec.toNat_add]; omega
    simp [e]

theorem popAddrs_succ {s t : State} (k : Nat) (hs : t.sp = s.sp + 2) :
    popAddrs s (k + 1) = [s.sp, s.sp + 1] ++ popAddrs t k := by
  rw [popAddrs_eq, popAddrs_eq, hs]; rfl

/-- The word of a later pop, seen from the state after the first. -/
theorem poppedWord_succ {s t : State} (k : Nat) (hs : t.sp = s.sp + 2) (hm : t.mem = s.mem)
    (hp : t.platform = s.platform) (hb : t.bus = s.bus ++ readEvents s [s.sp, s.sp + 1]) :
    poppedWord s (k + 1) = poppedWord t k := by
  have e : s.sp + BitVec.ofNat 16 (2 * (k + 1)) = t.sp + BitVec.ofNat 16 (2 * k) := by
    rw [hs]; apply BitVec.eq_of_toNat_eq; simp [BitVec.toNat_add]; omega
  rw [poppedWord, poppedWord, e]
  refine (wordIn_congr ?_ ?_ ?_ _).symm
  · simpa using hm
  · simpa using hp
  · rw [seen_bus, seen_bus, popAddrs_succ k hs, readEvents_append, hb, readEvents_congr hp, List.append_assoc]

/-- Popping registers that share no storage with SP or with one another (R203). -/
theorem popRegs_ok {s : State} (cs : List Reg) (hc : ∀ c ∈ cs, overlaps c .sp = false ∧ overlaps .sp c = false)
    (hd : cs.Pairwise fun a b => overlaps a b = false) (h : popFits s cs.length = true) :
    ∃ t, popRegs s cs = .ok () t ∧ t.sp = s.sp + BitVec.ofNat 16 (2 * cs.length) ∧ t.mem = s.mem ∧
      t.flags = s.flags ∧ t.pc = s.pc ∧ ControlKept s t ∧
      t.bus = s.bus ++ readEvents s (popAddrs s cs.length) ∧ RegsKept s t (.sp :: cs) ∧
      ∀ k (hk : k < cs.length), regRead t cs[k] =
        ((poppedWord s k).setWidth (regWidth s cs[k]).bits).setWidth 16 := by
  induction cs generalizing s with
  | nil =>
    refine ⟨s, rfl, by simp, rfl, rfl, rfl, ⟨rfl, rfl, rfl⟩, by simp [popAddrs], fun c _ => rfl, ?_⟩
    intro k hk; simp at hk
  | cons c cs ih =>
    have hpop := pop16_ok (popFits_first h)
    obtain ⟨u, hu⟩ : ∃ u, u = regWrite (setSp (seen s [s.sp, s.sp + 1]) (s.sp + 2)) c (wordIn s s.sp) := ⟨_, rfl⟩
    have usp : u.sp = s.sp + 2 := by rw [hu, sp_regWrite_other _ _ _ (hc c (by simp)).2, setSp_sp]
    have umem : u.mem = s.mem := by simp [hu]
    have uplat : u.platform = s.platform := by simp [hu]
    have ubus : u.bus = s.bus ++ readEvents s [s.sp, s.sp + 1] := by simp [hu]
    have uctl : ControlKept s u := by simp [hu, ControlKept]
    have uflags : u.flags = s.flags := by simp [hu]
    have upc : u.pc = s.pc := by simp [hu]
    have uwidth : ∀ c', regWidth u c' = regWidth s c' := by intro c'; cases c' <;> simp [regWidth, uplat]
    have ureg : ∀ c', overlaps c' .sp = false → overlaps c' c = false → regRead u c' = regRead s c' := by
      intro c' h1 h2
      rw [hu, regRead_regWrite_other _ _ _ _ h2, regRead_setSp _ _ h1, regRead_seen]
    rw [List.pairwise_cons] at hd
    obtain ⟨t, ht, tsp, tmem, tflags, tpc, tctl, tbus, tregs, tvals⟩ :=
      ih (s := u) (fun c' hc' => hc c' (by simp [hc'])) hd.2 (popFits_rest h uplat usp)
    refine ⟨t, ?_, ?_, tmem.trans umem, tflags.trans uflags, tpc.trans upc, ?_, ?_, ?_, ?_⟩
    · rw [popRegs, hpop, Res.bind_ok, ← hu, ht]
    · rw [tsp, usp]; apply BitVec.eq_of_toNat_eq; simp [BitVec.toNat_add]; omega
    · exact ⟨tctl.1.trans uctl.1, tctl.2.1.trans uctl.2.1, tctl.2.2.trans uctl.2.2⟩
    · rw [tbus, ubus, List.length_cons, popAddrs_succ _ usp, readEvents_append, readEvents_congr uplat,
        List.append_assoc]
    · intro c' hc'
      rw [tregs c' (fun w hw => hc' w (by simp at hw ⊢; tauto)), ureg c' (hc' _ (by simp)) (hc' _ (by simp))]
    · intro k hk
      cases k with
      | zero =>
        have e1 : overlaps c .sp = false := (hc c (by simp)).1
        rw [List.getElem_cons_zero, tregs c (by
          intro w hw
          simp only [List.mem_cons] at hw
          rcases hw with rfl | hw
          · exact e1
          · exact hd.1 w hw)]
        rw [hu, regRead_regWrite_same]
        have : regWidth (setSp (seen s [s.sp, s.sp + 1]) (s.sp + 2)) c = regWidth s c := by cases c <;> rfl
        rw [this]
        congr 2
        rw [poppedWord]
        simp [popAddrs]
      | succ k =>
        rw [List.getElem_cons_succ, tvals k (by simpa using hk), uwidth, ← poppedWord_succ k usp umem uplat ubus]

/-! ## Taking and leaving an interrupt -/

theorem accessFits_handlerSlot (s : State) (n : Fin 8) : accessFits s (handlerSlot n) .w16 = true := by
  rw [accessFits_word]; right; revert n; decide

theorem vectorAddr_eq (n : Fin 8) : vectorAddr n = handlerSlot n := rfl

@[simp] theorem getPending_setPending (s : State) (n k : Fin 8) (on : Bool) :
    getPending (setPending s n on) k = if k = n then on else getPending s k := by
  by_cases h : k = n
  · subst h; simp [getPending, setPending]
  · have : n.val ≠ k.val := fun e => h (Fin.ext e.symm)
    simp [getPending, setPending, this, h]

theorem flag_withFlags (s : State) (f : FlagWord) (x : Flag) : (s.withFlags f).flag x = flagGet f x := rfl

/-- Taking an interrupt that has room for its two slots (R255). -/
theorem enter_ok {s : State} (n : Fin 8) (ret : Word) (w : Memory.wf s.mem = true) (h : pushFits s 2 = true) :
    ∃ t, enter s n ret = .ok () t ∧ Entered s t n ret ∧ Memory.wf t.mem = true := by
  obtain ⟨s1, h1, e1⟩ := push16_ok ret w (pushFits_first h)
  have sp1 : s1.sp = s.sp - 2 := by rw [e1.sp]; simp
  have fl1 : s1.flags = s.flags := by rw [e1.flags]; rfl
  obtain ⟨s2, h2, e2⟩ := push16_ok (flagsSlot s1.flags) e1.wf (pushFits_rest h e1.platform sp1)
  have spe : s1.sp - 2 = s.sp - 4 := by
    rw [sp1]; apply BitVec.eq_of_toNat_eq; simp [BitVec.toNat_sub]; omega
  rw [spe] at e2
  have e3 := e1.slot_append e2 (by
    intro e he e' he' heq
    simp only [slotBytes_eq, List.mem_cons, List.not_mem_nil, or_false] at he he'
    have := s.sp.isLt
    rcases he with rfl | rfl <;> rcases he' with rfl | rfl <;> have := congrArg BitVec.toNat heq <;>
      simp [BitVec.toNat_sub, BitVec.toNat_add] at this <;> omega)
  have el : slotBytes (s.sp - 2) ret ++ slotBytes (s.sp - 4) (flagsSlot s1.flags) = entryBytes s ret := by
    rw [fl1]; rfl
  rw [el] at e3
  obtain ⟨s3, hs3⟩ : ∃ s3, s3 = s2.withFlags (flagPut s2.flags .i false) := ⟨_, rfl⟩
  have b3 : s2.bus = s.bus ++ storeEvents s (entryBytes s ret) := e3.bus
  have p3 : s2.platform = s.platform := e3.platform
  have hr := readWord_ok (accessFits_handlerSlot s3 n)
  refine ⟨setPending ((seen s3 [handlerSlot n, handlerSlot n + 1]).withPc (wordIn s3 (handlerSlot n))) n false,
    ?_, ?_, ?_⟩
  · rw [enter, h1, Res.bind_ok, h2, Res.bind_ok, ← hs3, vectorAddr_eq, hr]; rfl
  · have p3' : s3.platform = s.platform := by rw [hs3]; exact p3
    have b3' : s3.bus = s.bus ++ storeEvents s (entryBytes s ret) := by rw [hs3]; exact b3
    have f3 : s2.flags = s.flags := by rw [e3.flags]; rfl
    refine ⟨?_, ?_, ?_, ?_, ?_, ?_, ?_, ?_, ?_, ?_⟩
    · show s3.sp = _
      rw [hs3, sp_withFlags, e3.sp]; simp
    · intro c hc
      have : regRead (setPending ((seen s3 [handlerSlot n, handlerSlot n + 1]).withPc
          (wordIn s3 (handlerSlot n))) n false) c = regRead s2 c := by
        rw [hs3]; simp [setPending]
      rw [this, e3.regRead, regRead_setSp _ _ (hc .sp (by simp))]
    · refine MemStored.congr (s := setSp s (s.sp - 4)) ?_ rfl rfl
      have : (setPending ((seen s3 [handlerSlot n, handlerSlot n + 1]).withPc
          (wordIn s3 (handlerSlot n))) n false).mem = s2.mem := by rw [hs3]; rfl
      refine ⟨fun e he => ?_, fun a ha => ?_⟩
      · rw [this]; exact e3.mem.1 e he
      · rw [this]; exact e3.mem.2 a ha
    · show flagGet s3.flags .i = false
      rw [hs3]; simp
    · intro x hx
      show flagGet s3.flags x = flagGet s.flags x
      rw [hs3]; simp at hx; simp [hx, f3]
    · show wordIn s3 (handlerSlot n) = _
      refine wordIn_congr (s := (setPending ((seen s3 [handlerSlot n, handlerSlot n + 1]).withPc
        (wordIn s3 (handlerSlot n))) n false).withBus (s.bus ++ storeEvents s (entryBytes s ret))) ?_ ?_ b3' _
      · rfl
      · rfl
    · show s3.bus ++ readEvents s3 _ = _
      rw [b3', readEvents_congr p3']
    · intro k
      rw [getPending_setPending]
      split
      · rfl
      · show s3.pending[k.val] = s.pending[k.val]
        have : s3.pending = s.pending := by rw [hs3]; exact e3.pending
        rw [this]
    · show s3.status = s.status
      rw [hs3]; exact e3.status
    · exact p3'
  · show Memory.wf s3.mem = true
    rw [hs3]; exact e3.wf

/-- Leaving an interrupt (R218). -/
theorem leave_ok {s : State} (h : popFits s 2 = true) :
    leave s = .ok () (((setSp (seen s [s.sp, s.sp + 1, s.sp + 2, s.sp + 3]) (s.sp + 4)).withFlags
      ((wordIn s s.sp).setWidth 12)).withPc (wordIn (seen s [s.sp, s.sp + 1]) (s.sp + 2))) := by
  obtain ⟨u, hu⟩ : ∃ u, u = (setSp (seen s [s.sp, s.sp + 1]) (s.sp + 2)).withFlags (slotFlags (wordIn s s.sp)) :=
    ⟨_, rfl⟩
  have usp : u.sp = s.sp + 2 := by rw [hu]; simp
  have upl : u.platform = s.platform := by rw [hu]; simp
  rw [leave, pop16_ok (popFits_first h), Res.bind_ok, ← hu, pop16_ok (popFits_rest h upl usp), Res.bind_ok, usp]
  have e3 : s.sp + 2 + 1 = s.sp + 3 := by
    apply BitVec.eq_of_toNat_eq; simp [BitVec.toNat_add]; try omega
  have e4 : s.sp + 2 + 2 = s.sp + 4 := by
    apply BitVec.eq_of_toNat_eq; simp [BitVec.toNat_add]; try omega
  have ew : wordIn u (s.sp + 2) = wordIn (seen s [s.sp, s.sp + 1]) (s.sp + 2) :=
    wordIn_congr (by rw [hu]; rfl) (by rw [hu]; rfl) (by rw [hu]; rfl) _
  rw [ew, e3, e4]
  congr 2
  rw [hu]
  simp only [setSp, setP, seen, State.withP, State.withFlags, State.withBus, slotFlags]
  congr 1
  · exact Vector.set_set ..
  · show _ ++ readEvents s _ ++ readEvents s _ = s.bus ++ readEvents s _
    rw [List.append_assoc, ← readEvents_append]; rfl

end Sys2Proof.Machine
end

