-- ==== Sys2Proof/Laws/Frame.lean ====
section
/-! SUPPORT. What every shared operation leaves alone, whether it goes on or raises a fault: the lemmas compose
along `Res.bind`, so that a statement about every instruction needs one short proof for each (spec 10_state.md
rules R28, R29, R31, 60_exceptions.md rule R242). -/

namespace Sys2Proof.Machine

/-- VX and VY hold no bit above `vreg_width` (R25, R27). -/
def VregOk (s : State) : Prop := s.platform.vregWidth = .w8 → s.vx.toNat < 256 ∧ s.vy.toNat < 256

/-- `t` comes from `s` by effects that may change only the registers of `R` and the flags of `F`, memory, the PC
and the peripherals' log, which grows. -/
structure Frame (R : List Reg) (F : List Flag) (s t : State) : Prop where
  regs    : RegsKept s t R
  flags   : FlagsKept s t F
  control : ControlKept s t
  bus     : s.bus <+: t.bus
  wf      : Memory.wf s.mem = true → Memory.wf t.mem = true
  vreg    : VregOk s → VregOk t

theorem Frame.refl (R : List Reg) (F : List Flag) (s : State) : Frame R F s s :=
  ⟨fun _ _ => rfl, fun _ _ => rfl, ⟨rfl, rfl, rfl⟩, List.prefix_rfl, id, id⟩

theorem Frame.trans {R F} {s t u : State} (h1 : Frame R F s t) (h2 : Frame R F t u) : Frame R F s u :=
  ⟨fun c hc => (h2.regs c hc).trans (h1.regs c hc), fun x hx => (h2.flags x hx).trans (h1.flags x hx),
    ⟨h2.control.1.trans h1.control.1, h2.control.2.1.trans h1.control.2.1, h2.control.2.2.trans h1.control.2.2⟩,
    h1.bus.trans h2.bus, h2.wf ∘ h1.wf, h2.vreg ∘ h1.vreg⟩

/-- A fault of R240 as an operation raises it: the log only grew, an address comes exactly with AddressFault, and
only under `addr_policy = fault` (R67, R241). -/
def FaultOk (s : State) (f : Fault) (addr : Option Int) (bus : List BusEvent) : Prop :=
  s.bus <+: bus ∧ addr.isSome = (f == .addressFault) ∧ (f = .addressFault → s.platform.addrPolicy = .fault)

/-- An operation frames its effects, or faults as `FaultOk` says. -/
def Res.Frames {α : Type} (R : List Reg) (F : List Flag) (s : State) : Res α → Prop
  | .ok _ t => Frame R F s t
  | .fault f addr bus => FaultOk s f addr bus

theorem FaultOk.of_frame {R F} {s t : State} {f addr bus} (h : Frame R F s t) (h' : FaultOk t f addr bus) :
    FaultOk s f addr bus :=
  ⟨h.bus.trans h'.1, h'.2.1, fun e => by rw [← h.control.2.2]; exact h'.2.2 e⟩

theorem Res.Frames.bind {α β : Type} {R F} {s : State} {x : Res α} {k : α → State → Res β}
    (h : x.Frames R F s) (hk : ∀ a t, Frame R F s t → (k a t).Frames R F t) : (x.bind k).Frames R F s := by
  cases x with
  | fault f addr bus => exact h
  | ok a t =>
    have h' := hk a t h
    show (k a t).Frames R F s
    cases hx : k a t with
    | ok b u => rw [hx] at h'; exact Frame.trans h h'
    | fault f addr bus => rw [hx] at h'; exact FaultOk.of_frame h h'

theorem policy_fault {p : AddrPolicy} (h : p ≠ .wrap) : p = .fault := by cases p <;> simp_all

/-! ## Updates -/

theorem frame_seen (R F) (s : State) (l : List Word) : Frame R F s (seen s l) :=
  ⟨fun c _ => by simp, fun _ _ => rfl, ⟨rfl, rfl, rfl⟩, List.prefix_append .., id, id⟩

theorem frame_withPc (R F) (s : State) (v : Word) : Frame R F s (s.withPc v) :=
  ⟨fun c _ => by simp, fun _ _ => rfl, ⟨rfl, rfl, rfl⟩, List.prefix_rfl, id, id⟩

theorem frame_withFlags (R F) (s : State) (f : FlagWord) (h : ∀ x, x ∉ F → flagGet f x = flagGet s.flags x) :
    Frame R F s (s.withFlags f) :=
  ⟨fun c _ => by simp, h, ⟨rfl, rfl, rfl⟩, List.prefix_rfl, id, id⟩

theorem regWrite_vregOk (s : State) (c : Reg) (v : Word) (h : VregOk s) : VregOk (regWrite s c v) := by
  have hlt : ∀ w : Word, (vregValue .w8 w).toNat < 256 := fun w => by
    simp only [vregValue, BitVec.toNat_setWidth]; omega
  unfold VregOk at *
  rw [regWrite_platform]
  intro e
  cases c with
  | vx => exact ⟨by rw [regWrite, e]; exact hlt v, (h e).2⟩
  | vy => exact ⟨(h e).1, by rw [regWrite, e]; exact hlt v⟩
  | r n => exact h e
  | p n => exact h e
  | ph n => exact h e
  | pl n => exact h e

theorem frame_regWrite {R : List Reg} (F) (s : State) (c : Reg) (v : Word) (hc : c ∈ R) :
    Frame R F s (regWrite s c v) :=
  ⟨fun c' hc' => regRead_regWrite_other s c c' v (hc' c hc), fun _ _ => by simp [State.flag],
    by simp [ControlKept], by simp, by simp, regWrite_vregOk s c v⟩

theorem frame_setSp {R : List Reg} (F) (s : State) (v : Word) (hc : Reg.sp ∈ R) : Frame R F s (setSp s v) :=
  frame_regWrite F s .sp v hc

theorem frame_writeByte (R F) (s : State) (a : Word) (v : Byte) : Frame R F s (writeByte s a v) := by
  by_cases h : isMmio s a = true
  · simp only [writeByte, h, if_true]
    exact ⟨fun c _ => by simp, fun _ _ => rfl, ⟨rfl, rfl, rfl⟩, List.prefix_append .., id, id⟩
  · simp only [writeByte, h]
    exact ⟨fun c _ => by simp, fun _ _ => rfl, ⟨rfl, rfl, rfl⟩, List.prefix_rfl, Memory.wf_write a v, id⟩

/-! ## Memory and the stack -/

theorem accessFits_false {s : State} {a : Word} (h : accessFits s a .w16 = false) :
    s.platform.addrPolicy = .fault := by
  apply policy_fault
  intro e
  rw [accessFits_word.mpr (.inl e)] at h
  exact Bool.false_ne_true h.symm

theorem readWord_frames (R F) (s : State) (a : Word) : (readWord s a).Frames R F s := by
  cases h : accessFits s a .w16 with
  | true => rw [readWord_ok h]; exact frame_seen R F s _
  | false =>
    rw [readWord_fault h]
    exact ⟨(frame_seen R F s [a]).bus, rfl, fun _ => accessFits_false h⟩

theorem writeWord_frames (R F) (s : State) (a v : Word) : (writeWord s a v).Frames R F s := by
  cases h : accessFits s a .w16 with
  | true =>
    unfold writeWord
    rw [secondByte_eq, if_pos h]
    exact (frame_writeByte R F s a _).trans (frame_writeByte R F _ _ _)
  | false =>
    rw [writeWord_fault v h]
    exact ⟨(frame_writeByte R F s a _).bus, rfl, fun _ => accessFits_false h⟩

theorem memRead_frames (R F) (s : State) (a : Word) (W : Width) : (memRead s a W).Frames R F s := by
  cases W
  · simp only [memRead, readByte_eq]; exact frame_seen R F s _
  · exact readWord_frames R F s a

theorem memWrite_frames (R F) (s : State) (a : Word) (W : Width) (v : Value W) :
    (memWrite s a W v).Frames R F s := by
  cases W
  · exact frame_writeByte R F s a v
  · exact writeWord_frames R F s a v

theorem push16_frames {R : List Reg} (F) (s : State) (v : Word) (hc : Reg.sp ∈ R) :
    (push16 s v).Frames R F s := by
  cases h : pushFits s 1 with
  | true =>
    unfold push16
    split
    · rename_i a _
      have h1 := frame_setSp F s a hc
      have h2 := writeWord_frames R F (setSp s a) a v
      cases hx : writeWord (setSp s a) a v with
      | ok b u => rw [hx] at h2; exact h1.trans h2
      | fault f addr bus => rw [hx] at h2; exact h2.of_frame h1
    · rename_i hn
      refine ⟨List.prefix_rfl, rfl, fun _ => policy_fault fun e => ?_⟩
      rw [addrCheck_some (.inl e)] at hn
      exact absurd hn (by simp)
  | false =>
    rw [push16_fault v h]
    refine ⟨List.prefix_rfl, rfl, fun _ => policy_fault fun e => ?_⟩
    rw [pushFits_wrap.mpr (.inl e)] at h
    exact Bool.false_ne_true h.symm

theorem pop16_frames {R : List Reg} (F) (s : State) (hc : Reg.sp ∈ R) : (pop16 s).Frames R F s := by
  unfold pop16
  refine (readWord_frames R F s s.sp).bind fun v t _ => ?_
  split
  · exact frame_setSp F t _ hc
  · rename_i hn
    refine ⟨List.prefix_rfl, rfl, fun _ => policy_fault fun e => ?_⟩
    rw [addrCheck_some (.inl e)] at hn
    exact absurd hn (by simp)

theorem pushRegs_frames {R : List Reg} (F) (cs : List Reg) (s : State) (hc : Reg.sp ∈ R) :
    (pushRegs s cs).Frames R F s := by
  induction cs generalizing s with
  | nil => exact Frame.refl R F s
  | cons c cs ih => exact (push16_frames F s _ hc).bind fun _ t _ => ih t

theorem popRegs_frames {R : List Reg} (F) (cs : List Reg) (s : State) (hc : Reg.sp ∈ R)
    (hs : ∀ c ∈ cs, c ∈ R) : (popRegs s cs).Frames R F s := by
  induction cs generalizing s with
  | nil => exact Frame.refl R F s
  | cons c cs ih =>
    refine (pop16_frames F s hc).bind fun v t _ => ?_
    have h1 := frame_regWrite F t c v (hs c (by simp))
    have h2 := ih (regWrite t c v) fun c' hc' => hs c' (by simp [hc'])
    cases hx : popRegs (regWrite t c v) cs with
    | ok b u => rw [hx] at h2; exact h1.trans h2
    | fault f addr bus => rw [hx] at h2; exact h2.of_frame h1

/-! ## Operands -/

theorem readOp_frames (R F) (s : State) (l : Loc) (W : Width) : (readOp s l W).Frames R F s := by
  cases l with
  | mem ea => exact memRead_frames R F s ea W
  | reg c => exact Frame.refl R F s
  | imm8 b => exact Frame.refl R F s
  | imm16 v => exact Frame.refl R F s

theorem readCount_frames (R F) (s : State) (l : Loc) (W : Width) : (readCount s l W).Frames R F s := by
  cases l with
  | mem ea => simp only [readCount, readByte_eq]; exact frame_seen R F s _
  | reg c => exact Frame.refl R F s
  | imm8 b => exact Frame.refl R F s
  | imm16 v => exact Frame.refl R F s

theorem readTarget_frames (R F) (s : State) (l : Loc) : (readTarget s l).Frames R F s := by
  cases l with
  | mem ea => exact readWord_frames R F s ea
  | reg c => exact Frame.refl R F s
  | imm8 b => exact Frame.refl R F s
  | imm16 v => exact Frame.refl R F s

theorem writeOp_frames (F) (s u : State) (d : Dst) (W : Width) (v : Value W) :
    (writeOp s (locate u d.toOperand) W v).Frames (destRegs d) F s := by
  cases d with
  | reg c => exact frame_regWrite F s c _ (by simp [destRegs])
  | mem m => exact memWrite_frames _ F s _ W v

/-! ## Running an instruction -/

/-- What an instruction answers: a framed state, or the faulted state of R242. -/
def Ends (R : List Reg) (F : List Flag) (s t : State) : Prop :=
  Frame R F s t ∨ ∃ f bus, FaultOk s f.kind f.addr bus ∧ f.pc = s.pc ∧ f.vector = none ∧
    f.bytes.length ≤ maxLength ∧ t = s.raise f bus

theorem indexFault_policy {s : State} {os : List Operand} {off : Nat} {e : Int × Nat}
    (h : indexFault s os off = some e) : s.platform.addrPolicy = .fault := by
  apply policy_fault
  intro hw
  rw [indexFault_none off (fun o _ => by
    cases o with
    | mem m => cases m <;> simp [indexFits, formFits, wraps, hw]
    | reg c => rfl
    | imm8 b => rfl
    | imm16 v => rfl)] at h
  exact absurd h (by simp)

/-- An instruction whose effects are framed ends as `Ends` says. -/
theorem runInstr_ends {R F} {i : Instr} {s : State} {body : State → Res Unit} (h : (body s).Frames R F s) :
    ∃ t, runInstr i s body = .next t ∧ Ends R F s t := by
  unfold runInstr
  split
  · rename_i e he
    refine ⟨_, rfl, .inr ⟨_, _, ⟨List.prefix_rfl, rfl, fun _ => indexFault_policy he⟩, rfl, rfl, ?_, rfl⟩⟩
    have := i.length_le
    simp only [List.length_take, encode_length]; omega
  · cases hx : body s with
    | ok a t => rw [hx] at h; exact ⟨t, rfl, .inl h⟩
    | fault f addr bus =>
      rw [hx] at h
      refine ⟨_, rfl, .inr ⟨⟨f, s.pc, encode i, addr, none⟩, bus, h, rfl, rfl, ?_, rfl⟩⟩
      rw [encode_length]; exact i.length_le

theorem runAlu_ends {F} {i : Instr} {d : Dst} {x : Operand} {s : State}
    {result : {w : Nat} → BitVec w → BitVec w → BitVec w}
    {flags : {w : Nat} → BitVec w → BitVec w → FlagWord → FlagWord}
    (hf : ∀ (w : Nat) (a b : BitVec w) f y, y ∉ F → flagGet (flags a b f) y = flagGet f y) :
    ∃ t, runAlu i d.toOperand x s result flags = .next t ∧ Ends (destRegs d) F s t := by
  refine runInstr_ends ?_
  refine (readOp_frames _ F s _ _).bind fun a s1 _ => ?_
  refine (readOp_frames _ F s1 _ _).bind fun b s2 _ => ?_
  refine Res.Frames.bind (x := writeOp _ _ _ _) ?_ fun _ s3 _ => frame_withPc _ F s3 _
  have h1 := frame_withFlags (destRegs d) F s2 (flags a b s2.flags) (hf _ a b s2.flags)
  have h2 := writeOp_frames F (s2.withFlags (flags a b s2.flags)) s d (widthA s d.toOperand x) (result a b)
  cases hx : writeOp (s2.withFlags (flags a b s2.flags)) (locate s d.toOperand) (widthA s d.toOperand x)
    (result a b) with
  | ok b u => rw [hx] at h2; exact h1.trans h2
  | fault f addr bus => rw [hx] at h2; exact h2.of_frame h1

theorem runUnary_ends {F} {i : Instr} {d : Dst} {s : State} {result : {w : Nat} → BitVec w → BitVec w}
    {flags : {w : Nat} → BitVec w → FlagWord → FlagWord}
    (hf : ∀ (w : Nat) (a : BitVec w) f y, y ∉ F → flagGet (flags a f) y = flagGet f y) :
    ∃ t, runUnary i d.toOperand s result flags = .next t ∧ Ends (destRegs d) F s t := by
  refine runInstr_ends ?_
  refine (readOp_frames _ F s _ _).bind fun a s1 _ => ?_
  refine Res.Frames.bind (x := writeOp _ _ _ _) ?_ fun _ s3 _ => frame_withPc _ F s3 _
  have h1 := frame_withFlags (destRegs d) F s1 (flags a s1.flags) (hf _ a s1.flags)
  have h2 := writeOp_frames F (s1.withFlags (flags a s1.flags)) s d (widthB s d.toOperand) (result a)
  cases hx : writeOp (s1.withFlags (flags a s1.flags)) (locate s d.toOperand) (widthB s d.toOperand)
    (result a) with
  | ok b u => rw [hx] at h2; exact h1.trans h2
  | fault f addr bus => rw [hx] at h2; exact h2.of_frame h1

theorem shiftFlags_kept {w : Nat} (c : Bool) (r : BitVec w) (f : FlagWord) (y : Flag)
    (h : y ∉ [Flag.z, .s, .p, .c]) : flagGet (shiftFlags c r f) y = flagGet f y := by
  simp only [List.mem_cons, List.not_mem_nil, or_false, not_or] at h
  simp [shiftFlags, setZSP, h.1, h.2.1, h.2.2.1, h.2.2.2]

theorem runShift_ends {i : Instr} {d : Dst} {x : Operand} {s : State}
    {result : {w : Nat} → BitVec w → Nat → BitVec w} {carry : {w : Nat} → BitVec w → Nat → Bool} :
    ∃ t, runShift i d.toOperand x s result carry = .next t ∧ Ends (destRegs d) [.z, .s, .p, .c] s t := by
  refine runInstr_ends ?_
  refine (readOp_frames _ _ s _ _).bind fun a s1 _ => ?_
  refine (readCount_frames _ _ s1 _ _).bind fun k s2 _ => ?_
  split
  · exact frame_withPc _ _ s2 _
  · refine Res.Frames.bind (x := writeOp _ _ _ _) ?_ fun _ s3 _ => frame_withPc _ _ s3 _
    have h1 := frame_withFlags (destRegs d) [.z, .s, .p, .c] s2 (shiftFlags (carry a k) (result a k) s2.flags)
      (shiftFlags_kept _ _ _)
    have h2 := writeOp_frames [.z, .s, .p, .c] (s2.withFlags (shiftFlags (carry a k) (result a k) s2.flags)) s d
      (widthB s d.toOperand) (result a k)
    cases hx : writeOp (s2.withFlags (shiftFlags (carry a k) (result a k) s2.flags)) (locate s d.toOperand)
      (widthB s d.toOperand) (result a k) with
    | ok b u => rw [hx] at h2; exact h1.trans h2
    | fault f addr bus => rw [hx] at h2; exact h2.of_frame h1

theorem bitFlags_kept {w : Nat} (v : BitVec w) (k : Nat) (f : FlagWord) (y : Flag) (h : y ∉ [Flag.z]) :
    flagGet (bitFlags v k f) y = flagGet f y := by
  simp only [List.mem_cons, List.not_mem_nil, or_false] at h
  simp [bitFlags, h]

theorem runBit_ends {i : Instr} {d : Dst} {x : Operand} {s : State}
    {result : {w : Nat} → BitVec w → Nat → BitVec w} :
    ∃ t, runBit i d.toOperand x s result = .next t ∧ Ends (destRegs d) [.z] s t := by
  refine runInstr_ends ?_
  refine (readOp_frames _ _ s _ _).bind fun v s1 _ => ?_
  refine (readCount_frames _ _ s1 _ _).bind fun k s2 _ => ?_
  refine Res.Frames.bind (x := writeOp _ _ _ _) ?_ fun _ s3 _ => frame_withPc _ _ s3 _
  have h1 := frame_withFlags (destRegs d) [.z] s2 (bitFlags (result v k) k s2.flags) (bitFlags_kept _ _ _)
  have h2 := writeOp_frames [.z] (s2.withFlags (bitFlags (result v k) k s2.flags)) s d
    (widthB s d.toOperand) (result v k)
  cases hx : writeOp (s2.withFlags (bitFlags (result v k) k s2.flags)) (locate s d.toOperand)
    (widthB s d.toOperand) (result v k) with
  | ok b u => rw [hx] at h2; exact h1.trans h2
  | fault f addr bus => rw [hx] at h2; exact h2.of_frame h1

theorem runJump_ends {i : Instr} {g : Target} {taken : Bool} {s : State} :
    ∃ t, runJump i g taken s = .next t ∧ Ends [] [] s t := by
  unfold runJump
  split
  · exact runInstr_ends ((readTarget_frames _ _ s _).bind fun v s1 _ => frame_withPc _ _ s1 v)
  · exact ⟨_, rfl, .inl (frame_withPc _ _ s _)⟩

theorem runFlag_ends {i : Instr} {x : Flag} {on : Bool} {s : State} :
    ∃ t, runFlag i x on s = .next t ∧ Ends [] [x] s t := by
  refine runInstr_ends ?_
  refine (frame_withFlags [] [x] s _ fun y hy => ?_).trans (frame_withPc _ _ _ _)
  simp only [List.mem_cons, List.not_mem_nil, or_false] at hy
  simp [hy]

/-! ## Taking and leaving an interrupt -/

/-- A push raises no fault but AddressFault (R65, R247). -/
theorem push16_addressFault {s : State} {v : Word} {f addr bus} (h : push16 s v = .fault f addr bus) :
    f = .addressFault := by
  unfold push16 writeWord at h
  split at h
  · split at h
    · cases h
    · cases h; rfl
  · cases h; rfl

/-- Taking an interrupt frames all but the pending latches, of which it clears its own (R255); it raises no fault
but AddressFault. -/
def EntryFrames (s : State) (n : Fin 8) : Res Unit → Prop
  | .ok _ t => ∃ u, Frame [.sp] [.i] s u ∧ t = setPending u n false
  | .fault f addr bus => FaultOk s f addr bus ∧ f = .addressFault

theorem enter_frames (s : State) (n : Fin 8) (ret : Word) : EntryFrames s n (enter s n ret) := by
  have h1 := push16_frames (R := [.sp]) [.i] s ret (by simp)
  unfold enter
  cases e1 : push16 s ret with
  | fault f addr bus => rw [e1] at h1; exact ⟨h1, push16_addressFault e1⟩
  | ok a s1 =>
    rw [e1] at h1
    rw [Res.bind_ok]
    have h2 := push16_frames (R := [.sp]) [.i] s1 (flagsSlot s1.flags) (by simp)
    cases e2 : push16 s1 (flagsSlot s1.flags) with
    | fault f addr bus => rw [e2] at h2; exact ⟨FaultOk.of_frame h1 h2, push16_addressFault e2⟩
    | ok a s2 =>
      rw [e2] at h2
      rw [Res.bind_ok, vectorAddr_eq, readWord_ok (accessFits_handlerSlot _ n), Res.bind_ok]
      refine ⟨_, (Frame.trans h1 h2).trans ((frame_withFlags [.sp] [.i] s2 (flagPut s2.flags .i false) ?_).trans
        ((frame_seen _ _ _ _).trans (frame_withPc _ _ _ _))), rfl⟩
      intro x hx
      simp only [List.mem_cons, List.not_mem_nil, or_false] at hx
      simp [hx]

theorem leave_frames {F : List Flag} (hF : ∀ x, x ∈ F) (s : State) : (leave s).Frames [.sp] F s := by
  refine (pop16_frames F s (by simp)).bind fun v s1 _ => ?_
  have h1 := frame_withFlags [.sp] F s1 (slotFlags v) fun x hx => absurd (hF x) hx
  refine Res.Frames.bind (x := pop16 _) ?_ fun r s2 _ => frame_withPc _ _ s2 r
  have h2 := pop16_frames (R := [.sp]) F (s1.withFlags (slotFlags v)) (by simp)
  cases hx : pop16 (s1.withFlags (slotFlags v)) with
  | ok b u => rw [hx] at h2; exact h1.trans h2
  | fault f addr bus => rw [hx] at h2; exact h2.of_frame h1

end Sys2Proof.Machine
end

