-- ==== Sys2Proof/Laws/PerInstr.lean ====
section
/-! SUPPORT. The per-instruction family EncodingShape: the encoding of every instruction begins with the opcode of
its mnemonic, which the opcode map of R102 reads back, has the length of R99, and is at most six bytes long. -/

namespace Sys2Proof.Laws.EncodingShape

/-- The shape of an instruction's encoding (R80, R99, R102). -/
def Statement (i : Instr) : Prop :=
  (encode i).head? = some (opcodeOf i.mnemonic) ∧ mnemonicOf (opcodeOf i.mnemonic) = some i.mnemonic ∧
    (encode i).length = i.length ∧ i.length ≤ maxLength

theorem encode_head (i : Instr) : (encode i).head? = some (opcodeOf i.mnemonic) := by
  unfold encode
  cases i.operands <;> rfl

theorem shape (i : Instr) : Statement i :=
  ⟨encode_head i, mnemonicOf_opcodeOf i.mnemonic, encode_length i, i.length_le⟩

theorem hlt : Statement .hlt := shape _
theorem nop : Statement .nop := shape _
theorem ret : Statement .ret := shape _
theorem iret : Statement .iret := shape _
theorem pusha : Statement .pusha := shape _
theorem popa : Statement .popa := shape _
theorem pushf : Statement .pushf := shape _
theorem popf : Statement .popf := shape _
theorem sti : Statement .sti := shape _
theorem cli : Statement .cli := shape _
theorem std : Statement .std := shape _
theorem cld : Statement .cld := shape _
theorem mov (d : Dst) (x : Operand) : Statement (.mov d x) := shape _
theorem add (d : Dst) (x : Operand) : Statement (.add d x) := shape _
theorem sub (d : Dst) (x : Operand) : Statement (.sub d x) := shape _
theorem mul (d : Dst) (x : Operand) : Statement (.mul d x) := shape _
theorem div (d : Dst) (x : Operand) : Statement (.div d x) := shape _
theorem inc (d : Dst) : Statement (.inc d) := shape _
theorem dec (d : Dst) : Statement (.dec d) := shape _
theorem cmp (a : Operand) (x : Operand) : Statement (.cmp a x) := shape _
theorem and (d : Dst) (x : Operand) : Statement (.and d x) := shape _
theorem or (d : Dst) (x : Operand) : Statement (.or d x) := shape _
theorem xor (d : Dst) (x : Operand) : Statement (.xor d x) := shape _
theorem not (d : Dst) : Statement (.not d) := shape _
theorem shl (d : Dst) (x : Operand) : Statement (.shl d x) := shape _
theorem shr (d : Dst) (x : Operand) : Statement (.shr d x) := shape _
theorem rol (d : Dst) (x : Operand) : Statement (.rol d x) := shape _
theorem ror (d : Dst) (x : Operand) : Statement (.ror d x) := shape _
theorem btst (a : Operand) (x : Operand) : Statement (.btst a x) := shape _
theorem bset (d : Dst) (x : Operand) : Statement (.bset d x) := shape _
theorem bclr (d : Dst) (x : Operand) : Statement (.bclr d x) := shape _
theorem bflip (d : Dst) (x : Operand) : Statement (.bflip d x) := shape _
theorem jmp (t : Target) : Statement (.jmp t) := shape _
theorem jz (t : Target) : Statement (.jz t) := shape _
theorem jnz (t : Target) : Statement (.jnz t) := shape _
theorem jc (t : Target) : Statement (.jc t) := shape _
theorem jnc (t : Target) : Statement (.jnc t) := shape _
theorem js (t : Target) : Statement (.js t) := shape _
theorem jns (t : Target) : Statement (.jns t) := shape _
theorem jo (t : Target) : Statement (.jo t) := shape _
theorem jno (t : Target) : Statement (.jno t) := shape _
theorem call (t : Target) : Statement (.call t) := shape _
theorem push (c : Reg) : Statement (.push c) := shape _
theorem pop (c : Reg) : Statement (.pop c) := shape _
theorem int (n : Byte) : Statement (.int n) := shape _

end Sys2Proof.Laws.EncodingShape
end

