-- ==== Sys2Proof/Tests/Slice0.lean ====
section
/-! SUPPORT. Tests of one step or one decode each, with the encodings and expected results of spec/95_test_vectors.md
(each theorem names its vector) or worked by hand from the rule it names; and a witness for each obligation that has
hypotheses: a state and operands, at the edge of their range where there is one, that meet them together. -/

set_option maxRecDepth 20000

namespace Sys2Proof.Tests

open Sys2Proof.Machine

/-! ## Helpers -/

/-- The reset state with code at the PC, some registers and memory bytes, and FLAGS. -/
def start (code : List Byte) (regs : List (Reg × Word)) (data : List (Word × List Byte)) (flags : FlagWord) : State :=
  regs.foldl (fun s e => regWrite s e.1 e.2) ((State.reset.withFlags flags).withMem
    (data.foldl (fun m e => storeBytes m e.1 e.2) (storeBytes [] Config.resetPc code)))

/-- The next state, or the same one where there is none. -/
def nextOf (s : State) : Host.Outcome State Fault Refusal → State
  | .next t => t
  | .fault _ => s
  | .refused _ => s

/-- The state after one step. -/
def after (s : State) : State := nextOf s (step s)

/-- A register and FLAGS of a state. -/
def holds (s : State) (c : Reg) (v : Word) (flags : FlagWord) : Bool := regRead s c == v && s.flags == flags

/-- The bytes at an address. -/
def bytesAt (s : State) (a : Nat) (n : Nat) : List Byte := (List.range n).map fun k => s.mem.read (a + k)

/-- The fault kind and address of a faulted state. -/
def faultOf (s : State) : Option (Fault × Option Int) :=
  match s.status with
  | .running => none
  | .halted => none
  | .faulted f => some (f.kind, f.addr)

/-- The bytes decode to the instruction, all of them. -/
def decodes (l : List Byte) (i : Instr) : Prop := decodeBytes l = .ok i l.length ∧ encode i = l

/-- The bytes are a decode fault. -/
def rejected (l : List Byte) (sub : DecodeSub) : Prop := ∃ before, decodeBytes l = .bad sub l.length before

/-- A platform whose addresses 0x8000 to 0x80FF belong to a peripheral. -/
def withPeripheral : Platform := { vregWidth := .w16, mmio := [{ base := 0x8000, size := 0x100 }], addrPolicy := .fault }

/-- A platform with 8-bit VX and VY and `addr_policy` = wrap. -/
def wrapping : Platform := { vregWidth := .w8, mmio := [], addrPolicy := .wrap }

/-! ## Well-formedness -/

theorem test_wf_refuses_int_8 : Instr.wf (.int 8) = false ∧ Instr.wf (.int 0xFF) = false := by decide
theorem test_wf_accepts_int_7 : Instr.wf (.int 7) = true ∧ Instr.wf (.mov (.reg .sp) (.imm8 0)) = true := by decide

/-! ## Decoding: every instruction's word, from R80 to R102 -/

theorem test_decode_operandless : decodes [0x00] .hlt ∧ decodes [0x01] .nop ∧ decodes [0x02] .ret ∧ decodes [0x03] .iret ∧
    decodes [0x04] .pusha ∧ decodes [0x05] .popa ∧ decodes [0x06] .pushf ∧ decodes [0x07] .popf ∧
    decodes [0x08] .sti ∧ decodes [0x09] .cli ∧ decodes [0x0A] .std ∧ decodes [0x0B] .cld := by
  unfold decodes; decide

/-- MOV in each operand form: the mode bytes and fields of R82 to R90 (vectors M-1, M-5, M-6, E-12, E-13, E-14, E-15). -/
theorem test_decode_mov_forms :
    decodes [0x10, 0x00, 0xA9, 0xB4] (.mov (.reg (.r 0)) (.reg (.p 1))) ∧
    decodes [0x10, 0x08, 0xB9, 0xAA, 0xBB] (.mov (.reg (.p 6)) (.imm16 0xAABB)) ∧
    decodes [0x10, 0x03, 0x30, 0x01, 0xB3] (.mov (.mem (.direct 0x3001)) (.reg (.p 0))) ∧
    decodes [0x10, 0x0F, 0x30, 0x00, 0x40, 0x00] (.mov (.mem (.direct 0x3000)) (.mem (.direct 0x4000))) ∧
    decodes [0x10, 0x8C, 0xAA, 0xF5, 0x01] (.mov (.reg (.r 1)) (.mem (.indexed (.p 2) 0x01))) ∧
    decodes [0x10, 0x8C, 0xAA, 0xB5] (.mov (.reg (.r 1)) (.mem (.indirect (.p 2)))) ∧
    decodes [0x10, 0x43, 0xB5, 0xB6] (.mov (.mem (.indirect (.p 2))) (.reg (.p 3))) ∧
    decodes [0x10, 0x47, 0xFD, 0x80, 0x7F] (.mov (.mem (.indexed .vx 0x80)) (.imm8 0x7F)) := by
  unfold decodes; decide

theorem test_decode_aliases : decodes [0x10, 0x04, 0x9D, 0x12] (.mov (.reg (.ph 8)) (.imm8 0x12)) ∧
    decodes [0x15, 0x00, 0xA0] (.inc (.reg (.pl 1))) ∧ decodes [0x16, 0x00, 0xBE] (.dec (.reg .vy)) := by
  unfold decodes; decide

theorem test_decode_arithmetic : decodes [0x11, 0x00, 0xB3, 0xAA] (.add (.reg (.p 0)) (.reg (.r 1))) ∧
    decodes [0x12, 0x04, 0xA9, 0x01] (.sub (.reg (.r 0)) (.imm8 1)) ∧
    decodes [0x13, 0x00, 0xB3, 0xB3] (.mul (.reg (.p 0)) (.reg (.p 0))) ∧
    decodes [0x14, 0x04, 0xB3, 0x07] (.div (.reg (.p 0)) (.imm8 7)) ∧
    decodes [0x15, 0x03, 0x30, 0x00] (.inc (.mem (.direct 0x3000))) ∧
    decodes [0x16, 0x00, 0xB4] (.dec (.reg (.p 1))) ∧
    decodes [0x17, 0x01, 0x07, 0xA9] (.cmp (.imm8 7) (.reg (.r 0))) := by
  unfold decodes; decide

theorem test_decode_logic : decodes [0x18, 0x08, 0xB4, 0x0F, 0xF0] (.and (.reg (.p 1)) (.imm16 0x0FF0)) ∧
    decodes [0x19, 0x04, 0xAB, 0x80] (.or (.reg (.r 2)) (.imm8 0x80)) ∧
    decodes [0x1A, 0x00, 0xB3, 0xB3] (.xor (.reg (.p 0)) (.reg (.p 0))) ∧
    decodes [0x1B, 0x00, 0xA9] (.not (.reg (.r 0))) := by
  unfold decodes; decide

theorem test_decode_shifts_and_bits : decodes [0x1C, 0x00, 0xB3, 0xB4] (.shl (.reg (.p 0)) (.reg (.p 1))) ∧
    decodes [0x1D, 0x04, 0xB3, 0x0F] (.shr (.reg (.p 0)) (.imm8 15)) ∧
    decodes [0x1E, 0x04, 0xB9, 0x11] (.rol (.reg (.p 6)) (.imm8 17)) ∧
    decodes [0x1F, 0x04, 0xA9, 0x09] (.ror (.reg (.r 0)) (.imm8 9)) ∧
    decodes [0x20, 0x05, 0xB6, 0x01] (.btst (.imm8 0xB6) (.imm8 1)) ∧
    decodes [0x21, 0x07, 0x30, 0x00, 0x09] (.bset (.mem (.direct 0x3000)) (.imm8 9)) ∧
    decodes [0x22, 0x04, 0xAA, 0x03] (.bclr (.reg (.r 1)) (.imm8 3)) ∧
    decodes [0x23, 0x04, 0xB5, 0x02] (.bflip (.reg (.p 2)) (.imm8 2)) := by
  unfold decodes; decide

theorem test_decode_control : decodes [0x30, 0x00, 0xA9] (.jmp (.reg (.r 0))) ∧
    decodes [0x31, 0x02, 0x03, 0x00] (.jz (.imm16 0x0300)) ∧ decodes [0x32, 0x02, 0x02, 0x08] (.jnz (.imm16 0x0208)) ∧
    decodes [0x33, 0x00, 0xB3] (.jc (.reg (.p 0))) ∧ decodes [0x34, 0x43, 0xB5] (.jnc (.mem (.indirect (.p 2)))) ∧
    decodes [0x35, 0x43, 0xF5, 0xFE] (.js (.mem (.indexed (.p 2) 0xFE))) ∧
    decodes [0x36, 0x02, 0x04, 0x00] (.jns (.imm16 0x0400)) ∧ decodes [0x37, 0x03, 0x30, 0x00] (.jo (.mem (.direct 0x3000))) ∧
    decodes [0x38, 0x02, 0x12, 0x34] (.jno (.imm16 0x1234)) ∧ decodes [0x39, 0x02, 0x03, 0x00] (.call (.imm16 0x0300)) ∧
    decodes [0x3A, 0x00, 0xBB] (.push .sp) ∧ decodes [0x3B, 0x00, 0xBD] (.pop .vx) ∧ decodes [0x3C, 0x01, 0x07] (.int 7) := by
  unfold decodes; decide

/-- E-1 to E-11: the decode faults of R97. -/
theorem test_decode_faults : rejected [0x0C] .unknownOpcode ∧ rejected [0xFF] .unknownOpcode ∧
    rejected [0x10, 0x30] .badModeByte ∧ rejected [0x10, 0x44] .badModeByte ∧ rejected [0x15, 0x04] .badModeByte ∧
    rejected [0x10, 0x05] .badOperandForm ∧ rejected [0x3A, 0x01] .badOperandForm ∧ rejected [0x30, 0x01] .badOperandForm ∧
    rejected [0x10, 0x00, 0xA9, 0x50] .badRegisterCode ∧ rejected [0x10, 0x8C, 0xA9, 0xC0] .badRegisterCode ∧
    rejected [0x3C, 0x01, 0x08] .badVector := by
  refine ⟨?_, ?_, ?_, ?_, ?_, ?_, ?_, ?_, ?_, ?_, ?_⟩ <;> exact ⟨_, rfl⟩

/-- The table's bit numbering: bit 0 is the least significant bit of the first byte. -/
theorem test_table_word : decodeTableWord 8 0x0B = some .cld ∧ decodeTableWord 32 0x01A90411 = some (.add (.reg (.r 0)) (.imm8 1)) ∧
    (after (State.reset.withFetchWord 32 0x01A90411)).pc = 0x0204 := by decide

/-! ## Data movement and arithmetic -/

theorem test_M2_mov_truncates : holds (after (start [0x10, 0x00, 0xA9, 0xB4] [(.p 1, 0x1234)] [] 0x1C6)) (.r 0) 0x34 0x1C6 = true := by decide
theorem test_M5_mov_stores_big_endian : bytesAt (after (start [0x10, 0x03, 0x30, 0x00, 0xB3] [(.p 0, 0x1234)] [] 0)) 0x3000 2 = [0x12, 0x34] := by decide
theorem test_A1_add_carry : holds (after (start [0x11, 0x04, 0xA9, 0x01] [(.r 0, 0xFF)] [] 0)) (.r 0) 0x00 0x1C0 = true := by decide
theorem test_A2_add_overflow : holds (after (start [0x11, 0x04, 0xB3, 0x01] [(.p 0, 0x7FFF)] [] 0)) (.p 0) 0x8000 0x106 = true := by decide
theorem test_A5_sub_borrow : holds (after (start [0x12, 0x04, 0xA9, 0x01] [] [] 0)) (.r 0) 0xFF 0x142 = true := by decide
theorem test_A6_sub_overflow : holds (after (start [0x12, 0x04, 0xB3, 0x01] [(.p 0, 0x8000)] [] 0)) (.p 0) 0x7FFF 0x104 = true := by decide
theorem test_A8_mul_high_lost : holds (after (start [0x13, 0x04, 0xA9, 0x10] [(.r 0, 0x20)] [] 0)) (.r 0) 0x00 0x1C4 = true := by decide
theorem test_A9_mul_signed_fits : holds (after (start [0x13, 0x04, 0xA9, 0xFF] [(.r 0, 0xFF)] [] 0)) (.r 0) 0x01 0x040 = true := by decide
theorem test_A11_div : holds (after (start [0x14, 0x04, 0xB3, 0x07] [(.p 0, 0x64)] [] 0x044)) (.p 0) 0x0E 0x000 = true := by decide
theorem test_A14_div_by_zero_low_byte :
    faultOf (after (start [0x14, 0x00, 0xA9, 0xB4] [(.r 0, 5), (.p 1, 0x0100)] [] 0)) = some (.divideByZero, none) := by decide
theorem test_A15_inc : holds (after (start [0x15, 0x00, 0xA9] [(.r 0, 0x7F)] [] 0)) (.r 0) 0x80 0x006 = true := by decide
theorem test_A16_inc_alias : holds (after (start [0x15, 0x00, 0xA0] [(.p 1, 0x12FF)] [] 0)) (.p 1) 0x1200 0x1C0 = true := by decide
theorem test_A17_dec : holds (after (start [0x16, 0x00, 0xB3] [] [] 0)) (.p 0) 0xFFFF 0x142 = true := by decide
theorem test_CP3_cmp_overflow : holds (after (start [0x17, 0x00, 0xB3, 0xB4] [(.p 0, 0x8000), (.p 1, 1)] [] 0)) (.p 0) 0x8000 0x104 = true := by decide
theorem test_CP4_cmp_immediate_first : holds (after (start [0x17, 0x01, 0x07, 0xA9] [(.r 0, 5)] [] 0)) (.r 0) 5 0x000 = true := by decide

/-! ## Logic, shifts and bits -/

theorem test_LG1_and : holds (after (start [0x18, 0x08, 0xB4, 0x0F, 0xF0] [(.p 1, 0xF0F0)] [] 0x044)) (.p 1) 0x00F0 0x100 = true := by decide
theorem test_LG3_or : holds (after (start [0x19, 0x04, 0xAB, 0x80] [(.r 2, 1)] [] 0)) (.r 2) 0x81 0x102 = true := by decide
theorem test_LG4_xor : holds (after (start [0x1A, 0x00, 0xB3, 0xB3] [(.p 0, 0x1234)] [] 0x044)) (.p 0) 0 0x180 = true := by decide
theorem test_LG5_not : holds (after (start [0x1B, 0x00, 0xB3] [(.p 0, 0x00FF)] [] 0)) (.p 0) 0xFF00 0x102 = true := by decide
theorem test_SH4_shl_modulo : holds (after (start [0x1C, 0x04, 0xA9, 0x09] [(.r 0, 0x81)] [] 0)) (.r 0) 0x02 0x040 = true := by decide
theorem test_SH3_shl_by_width : holds (after (start [0x1C, 0x04, 0xA9, 0x08] [(.r 0, 0x81)] [] 0x1C6)) (.r 0) 0x81 0x1C6 = true := by decide
theorem test_SH5_shr : holds (after (start [0x1D, 0x04, 0xA9, 0x01] [(.r 0, 0x81)] [] 0)) (.r 0) 0x40 0x040 = true := by decide
theorem test_SH8_rol : holds (after (start [0x1E, 0x04, 0xB9, 0x11] [(.p 6, 0xAAAA)] [] 0)) (.p 6) 0x5555 0x140 = true := by decide
theorem test_SH12_rol_no_carry : holds (after (start [0x1E, 0x04, 0xB3, 0x0F] [(.p 0, 1)] [] 0x040)) (.p 0) 0x8000 0x102 = true := by decide
theorem test_SH11_ror : holds (after (start [0x1F, 0x04, 0xA9, 0x09] [(.r 0, 1)] [] 0)) (.r 0) 0x80 0x042 = true := by decide
theorem test_B1_btst : holds (after (start [0x20, 0x04, 0xB6, 0x00] [(.p 3, 1)] [] 0x080)) (.p 3) 1 0x000 = true := by decide
theorem test_B2_btst : holds (after (start [0x20, 0x04, 0xB6, 0x01] [(.p 3, 1)] [] 0)) (.p 3) 1 0x080 = true := by decide
theorem test_B4_bset : holds (after (start [0x21, 0x04, 0xB3, 0x0F] [] [] 0x080)) (.p 0) 0x8000 0x000 = true := by decide
theorem test_B6_bclr : holds (after (start [0x22, 0x04, 0xAA, 0x03] [(.r 1, 0xFF)] [] 0)) (.r 1) 0xF7 0x080 = true := by decide
theorem test_B8_bflip : holds (after (start [0x23, 0x04, 0xB5, 0x02] [] [] 0x080)) (.p 2) 0x0004 0x000 = true := by decide

/-! ## Control transfer -/

theorem test_J13_jmp : (after (start [0x30, 0x00, 0xA9] [(.r 0, 0x40)] [] 0)).pc = 0x0040 := by decide
theorem test_J2_J3_jz : (after (start [0x31, 0x02, 0x03, 0x00] [] [] 0x080)).pc = 0x0300 ∧
    (after (start [0x31, 0x02, 0x03, 0x00] [] [] 0xF7F)).pc = 0x0204 := by decide
theorem test_J4_J5_jz_top : (after (start [0x31, 0x03, 0xFF, 0xFF] [] [] 0)).pc = 0x0204 ∧
    faultOf (after (start [0x31, 0x03, 0xFF, 0xFF] [] [] 0x080)) = some (.addressFault, some 0x10000) ∧
    (after (start [0x31, 0x43, 0xE9, 0xFF] [] [] 0)).pc = 0x0204 ∧
    faultOf (after (start [0x31, 0x43, 0xE9, 0xFF] [] [] 0x080)) = some (.addressFault, some (-1)) := by decide
theorem test_jnz : (after (start [0x32, 0x02, 0x02, 0x08] [] [] 0xF7F)).pc = 0x0208 ∧
    (after (start [0x32, 0x02, 0x02, 0x08] [] [] 0x080)).pc = 0x0204 := by decide
theorem test_J6_jc : (after (start [0x33, 0x00, 0xB3] [(.p 0, 0x1234)] [] 0x040)).pc = 0x1234 ∧
    (after (start [0x33, 0x00, 0xB3] [(.p 0, 0x1234)] [] 0xFBF)).pc = 0x0203 := by decide
theorem test_jnc : (after (start [0x34, 0x00, 0xB3] [(.p 0, 0x1234)] [] 0xFBF)).pc = 0x1234 ∧
    (after (start [0x34, 0x00, 0xB3] [(.p 0, 0x1234)] [] 0x040)).pc = 0x0203 := by decide
theorem test_js : (after (start [0x35, 0x00, 0xB3] [(.p 0, 0x1234)] [] 0x002)).pc = 0x1234 ∧
    (after (start [0x35, 0x00, 0xB3] [(.p 0, 0x1234)] [] 0xFFD)).pc = 0x0203 := by decide
theorem test_J8_jns : (after (start [0x36, 0x02, 0x04, 0x00] [] [] 0x002)).pc = 0x0204 ∧
    (after (start [0x36, 0x02, 0x04, 0x00] [] [] 0xFFD)).pc = 0x0400 := by decide
theorem test_J7_jo : (after (start [0x37, 0x03, 0x30, 0x00] [] [(0x3000, [0x05, 0x00])] 0x004)).pc = 0x0500 ∧
    (after (start [0x37, 0x03, 0x30, 0x00] [] [(0x3000, [0x05, 0x00])] 0xFFB)).pc = 0x0204 := by decide
theorem test_jno : (after (start [0x38, 0x02, 0x12, 0x34] [] [] 0xFFB)).pc = 0x1234 ∧
    (after (start [0x38, 0x02, 0x12, 0x34] [] [] 0x004)).pc = 0x0204 := by decide
theorem test_J9_call : bytesAt (after (start [0x39, 0x02, 0x03, 0x00] [] [] 0)) 0xFFFD 2 = [0x02, 0x04] ∧
    (after (start [0x39, 0x02, 0x03, 0x00] [] [] 0)).pc = 0x0300 := by decide
theorem test_J10_call_no_room :
    faultOf (after (start [0x39, 0x02, 0x03, 0x00] [(.sp, 1)] [] 0)) = some (.addressFault, some (-1)) := by decide
theorem test_J11_ret : (after (start [0x02] [(.sp, 0xFFFD)] [(0xFFFD, [0x02, 0x0E])] 0)).pc = 0x020E := by decide
theorem test_J12_ret_at_reset : faultOf (after (start [0x02] [] [] 0)) = some (.addressFault, some 0x10000) := by decide

/-! ## The stack -/

theorem test_ST3_push_sp : bytesAt (after (start [0x3A, 0x00, 0xBB] [] [] 0)) 0xFFFD 2 = [0xFF, 0xFF] := by decide
theorem test_ST2_pop : holds (after (start [0x3B, 0x00, 0xAD] [(.sp, 0xFFFD)] [(0xFFFD, [0x12, 0xAB])] 0)) (.r 4) 0xAB 0 = true := by decide
theorem test_ST4_pop_sp : (after (start [0x3B, 0x00, 0xBB] [(.sp, 0xFFFD)] [(0xFFFD, [0x12, 0x34])] 0)).sp = 0x1234 := by decide
theorem test_S86_pusha : bytesAt (after (start [0x04] [(.r 0, 0x10), (.p 7, 0x1007)] [] 0)) 0xFFFD 2 = [0x00, 0x10] ∧
    bytesAt (after (start [0x04] [(.r 0, 0x10), (.p 7, 0x1007)] [] 0)) 0xFFDB 2 = [0x10, 0x07] := by decide
theorem test_ST6_pusha_no_room : faultOf (after (start [0x04] [(.sp, 35)] [] 0)) = some (.addressFault, some (-1)) ∧
    (after (start [0x04] [(.sp, 35)] [] 0)).sp = 35 := by decide
theorem test_popa_order : (after (start [0x05] [(.sp, 0xFFDB)] [(0xFFDB, [0x10, 0x07]), (0xFFFD, [0x00, 0x10])] 0)).sp = 0xFFFF ∧
    regRead (after (start [0x05] [(.sp, 0xFFDB)] [(0xFFDB, [0x10, 0x07]), (0xFFFD, [0x00, 0x10])] 0)) (.p 7) = 0x1007 ∧
    regRead (after (start [0x05] [(.sp, 0xFFDB)] [(0xFFDB, [0x10, 0x07]), (0xFFFD, [0x00, 0x10])] 0)) (.r 0) = 0x10 := by decide
theorem test_ST7_popa_no_room : faultOf (after (start [0x05] [(.sp, 0xFFDC)] [] 0)) = some (.addressFault, some 0x10000) := by decide
theorem test_ST8_pushf : bytesAt (after (start [0x06] [] [] 0x0A1)) 0xFFFD 2 = [0x00, 0xA1] := by decide
theorem test_ST9_popf : (after (start [0x07] [(.sp, 0xFFFD)] [(0xFFFD, [0xF0, 0xA1])] 0)).flags = 0x0A1 := by decide

/-! ## Interrupt and flag control, halt -/

theorem test_I1_sti : (after (start [0x08] [] [] 0x000)).flags = 0x020 := by decide
theorem test_I2_cli : (after (start [0x09] [] [] 0xFFF)).flags = 0xFDF := by decide
theorem test_I3_std : (after (start [0x0A] [] [] 0x000)).flags = 0x010 := by decide
theorem test_I3_cld : (after (start [0x0B] [] [] 0xFFF)).flags = 0xFEF := by decide
theorem test_I4_int : bytesAt (after (start [0x3C, 0x01, 0x03] [] [(0x010C, [0x05, 0x00])] 0)) 0xFFFB 4 = [0x00, 0x00, 0x02, 0x03] ∧
    (after (start [0x3C, 0x01, 0x03] [] [(0x010C, [0x05, 0x00])] 0)).pc = 0x0500 := by decide
theorem test_I5_iret : (after (start [0x03] [(.sp, 0xFFFB)] [(0xFFFB, [0x00, 0x20, 0x02, 0x07])] 0)).pc = 0x0207 ∧
    (after (start [0x03] [(.sp, 0xFFFB)] [(0xFFFB, [0x00, 0x20, 0x02, 0x07])] 0)).flags = 0x020 := by decide
/-- I-7: the lower of two pending sources is entered and the handler's first instruction runs. -/
theorem test_I7_entry : (after (setPending (setPending (start [] [] [(0x0108, [0x04, 0x00]), (0x0400, [0x01])] 0x020) 2 true) 6 true)).pc = 0x0401 ∧
    (after (setPending (setPending (start [] [] [(0x0108, [0x04, 0x00]), (0x0400, [0x01])] 0x020) 2 true) 6 true)).pending
      = #v[false, false, false, false, false, false, true, false] := by decide
/-- I-8: no room for the second push. -/
theorem test_I8_entry_no_room : faultOf (after (setPending (start [] [(.sp, 3)] [] 0x020) 0 true)) = some (.addressFault, some (-1)) := by decide
theorem test_H1_hlt : (after (start [0x00] [] [] 0)).status = .halted ∧ (after (start [0x00] [] [] 0)).pc = 0x0201 := by decide
theorem test_H2_stopped : step (after (start [0x00] [] [] 0)) = .refused .stepWhenStopped := rfl
theorem test_E17_nop : after (start [0x01] [] [] 0) = (start [0x01] [] [] 0).withPc 0x0201 := by decide
theorem test_E16_fetch_wraps : (after ((start [] [] [(0xFFFE, [0x10, 0x04]), (0, [0xA9, 0x05])] 0).withPc 0xFFFE)).pc = 2 := by decide
/-- R25, R27: at `vreg_width` = 8 VX keeps the low byte. -/
theorem test_vx_width : regRead (regWrite (State.resetFor wrapping 0) .vx 0x1234) .vx = 0x34 := by decide
/-- R67: under `wrap` RET at SP = 0xFFFF pops the bytes at 0xFFFF and 0. -/
theorem test_wrap_ret : (nextOf State.reset (exec .ret ((State.resetFor wrapping 0).withMem (storeBytes [] 0xFFFF [0x12, 0x34])))).pc = 0x1234 := by decide
/-- R72: a store to a peripheral-owned address is delivered and leaves memory alone. -/
theorem test_mmio_store : (nextOf State.reset (exec (.mov (.mem (.direct 0x80FF)) (.imm16 0x1234)) (State.resetFor withPeripheral 0))).bus = [.write 0x80FF 0x12] ∧
    (nextOf State.reset (exec (.mov (.mem (.direct 0x80FF)) (.imm16 0x1234)) (State.resetFor withPeripheral 0))).mem = [(0x8100, 0x34)] := by decide

/-- R282: register names, and a name that is none. -/
theorem test_host_names : readReg (setSp State.reset 0x12FE) ['P', '8', 'H'] = .ok 0x12 ∧ readReg (setSp State.reset 0x12FE) ['S', 'P'] = .ok 0x12FE ∧
    readReg State.reset ['P', 'C'] = .ok 0x0200 ∧ readReg State.reset ['R', 'X'] = .error .unknownRegister := by decide

/-! ## Witnesses: each obligation's hypotheses are met together -/

/-- A state with SP, a peripheral at 0x8000 to 0x80FF and P2 = 0x3000. -/
def stack (sp : Word) (flags : FlagWord) : State :=
  (setSp (setP (State.resetFor withPeripheral 0x0200) 2 0x3000) sp).withFlags flags

/-- The same with no peripheral. -/
def bare (sp : Word) (flags : FlagWord) : State := (setSp State.reset sp).withFlags flags

/-- Operands at the edges: `[P2-128]` at width 16, and `[0xFFFE]`. -/
def low : MemRef := .indexed (.p 2) 0x80
def high : MemRef := .direct 0xFFFE
def top : MemRef := .direct 0xFFFF

/-- With I clear and a latch set, and with I set and none. -/
theorem witness_ResetLeavesTheStatedValues : (setPending (stack 4 0) 7 true).flag .i = false ∧
    ∀ n, getPending (stack 4 0x020) n = false := by decide

theorem witness_ResetPlacesTheImage :
    (List.replicate 0x10000 (0 : Byte)).length ≤ 0x10000 ∧ 0x10000 < (List.replicate 0x10001 (0 : Byte)).length := by
  rw [List.length_replicate, List.length_replicate]; omega

theorem witness_ByteStoreThenLoad : Memory.wf (stack 0 0).mem = true ∧ isMmio (stack 0 0) 0x7FFF = false ∧
    isMmio (stack 0 0) 0x8100 = false ∧ isMmio (stack 0 0) 0x8000 = true ∧ isMmio (stack 0 0) 0x80FF = true := by decide

theorem witness_WordAccessIsBigEndianAndChecked : (Memory.wf (stack 0 0).mem = true ∧
      accessFits (stack 0 0) 0xFFFE .w16 = true ∧ isMmio (stack 0 0) 0xFFFE = false ∧
      isMmio (stack 0 0) (0xFFFE + 1) = false) ∧
    (stack 0 0).platform.addrPolicy = .fault ∧ (State.resetFor wrapping 0).platform.addrPolicy = .wrap := by decide

theorem witness_PopGivesBackThePushedWord : Memory.wf (stack 2 0).mem = true ∧ pushFits (stack 2 0) 1 = true ∧
    isMmio (stack 2 0) ((stack 2 0).sp - 2) = false ∧ isMmio (stack 2 0) ((stack 2 0).sp - 1) = false := by decide

theorem witness_FlagHelpers : Flag.t ≠ .z ∧ Flag.t ≠ .s ∧ Flag.t ≠ .p ∧ Flag.e ≠ .c ∧ Flag.e ≠ .v := by decide

theorem witness_DecodeOfEncodeIsTheInstruction : Instr.wf (.int 7) = true ∧ Instr.wf (.mov (.mem low) (.mem high)) = true := by
  decide

theorem witness_EncodeOfDecodeIsTheFetchedBytes :
    decode (bytesOf [0x10, 0xCF, 0xF5, 0x80, 0xF6, 0x7F]) = .ok (.mov (.mem low) (.mem (.indexed (.p 3) 0x7F))) 6 := by decide

/-- One mode byte for each way R84 and R85 exclude. -/
theorem witness_BadModeBytesAreRejected :
    (mnemonicOf 0x10 = some .mov ∧ (∀ i, Mnemonic.shape .mov ≠ .plain i) ∧ (0x10 : Byte).extractLsb' 4 2 ≠ 0 ∧
      ((0x42 : Byte).getLsbD 6 = true ∧ (0x42 : Byte).extractLsb' 0 2 ≠ 3) ∧
      ((0x88 : Byte).getLsbD 7 = true ∧ (0x88 : Byte).extractLsb' 2 2 ≠ 3)) ∧
    mnemonicOf 0x15 = some .inc ∧ (∃ mk, Mnemonic.shape .inc = .dst mk) ∧ mnemonicOf 0x30 = some .jmp ∧
    (∃ mk, Mnemonic.shape .jmp = .target mk) ∧ mnemonicOf 0x3A = some .push ∧
    (∃ mk, Mnemonic.shape .push = .reg mk) ∧ mnemonicOf 0x3C = some .int ∧
    (∃ mk, Mnemonic.shape .int = .vector mk) ∧ (0x04 : Byte).extractLsb' 2 2 ≠ 0 ∧ (0x80 : Byte).getLsbD 7 = true := by
  refine ⟨⟨rfl, fun i h => (by cases h), by decide, by decide, by decide⟩, rfl, ⟨_, rfl⟩, rfl, ⟨_, rfl⟩, rfl, ⟨_, rfl⟩,
    rfl, ⟨_, rfl⟩, by decide, by decide⟩

/-- A six-byte instruction across the top of memory, I clear and a latch pending. -/
def atTop : State :=
  setPending ((start [] [] [(0xFFFC, [0x10, 0x0F, 0x30, 0x00, 0x40, 0x00])] 0).withPc 0xFFFC) 0 true

theorem witness_StepRunsTheDecodedInstruction : atTop.status = .running ∧ takenInterrupt atTop = none ∧
    decode (fetchByte atTop) = .ok (.mov (.mem (.direct 0x3000)) (.mem (.direct 0x4000))) 6 ∧
    (∀ o ∈ (Instr.mov (.mem (.direct 0x3000)) (.mem (.direct 0x4000))).operands, indexFits atTop o = true) ∧
    ∀ k, k < 6 → isMmio atTop (fetchAddr atTop k) = false := by decide

theorem witness_StoredEncodingRuns : Instr.wf (.mov (.mem (.direct 0x3000)) (.mem (.direct 0x4000))) = true ∧
    atTop.status = .running ∧ takenInterrupt atTop = none ∧
    ∀ k, k < (Instr.mov (.mem (.direct 0x3000)) (.mem (.direct 0x4000))).length →
      isMmio atTop (atTop.pc + BitVec.ofNat 16 k) = false ∧ atTop.mem.read (atTop.pc + BitVec.ofNat 16 k).toNat =
        (encode (.mov (.mem (.direct 0x3000)) (.mem (.direct 0x4000)))).getD k 0 := by decide

/-- A bad second register code after an indexed operand that is in range. -/
def badSecond : State := start [0x10, 0x43 ||| 0x00, 0xF5, 0x80, 0x00] [(.p 2, 0x80)] [] 0

theorem witness_DecodeFaultIsPrecise : badSecond.status = .running ∧ takenInterrupt badSecond = none ∧
    decode (fetchByte badSecond) = .bad .badRegisterCode 5 [.mem (.indexed (.p 2) 0x80)] ∧
    (∀ o ∈ [Operand.mem (.indexed (.p 2) 0x80)], indexFits badSecond o = true) ∧
    ∀ k, k < 5 → isMmio badSecond (fetchAddr badSecond k) = false := by decide

theorem witness_StoppedCoreRefusesTheStep : ((stack 0 0).withStatus .halted).status ≠ .running := by decide

theorem witness_PendingInterruptIsEnteredFirst : Memory.wf (setPending (stack 4 0x020) 7 true).mem = true ∧
    (setPending (stack 4 0x020) 7 true).status = .running ∧ (setPending (stack 4 0x020) 7 true).flag .i = true ∧
    getPending (setPending (stack 4 0x020) 7 true) 7 = true ∧
    (∀ k : Fin 8, k < 7 → getPending (setPending (stack 4 0x020) 7 true) k = false) ∧
    pushFits (setPending (stack 4 0x020) 7 true) 2 = true := by decide

theorem witness_EntryWithoutStackFaults : (setPending (stack 3 0x020) 7 true).status = .running ∧
    (setPending (stack 3 0x020) 7 true).flag .i = true ∧ getPending (setPending (stack 3 0x020) 7 true) 7 = true ∧
    (∀ k : Fin 8, k < 7 → getPending (setPending (stack 3 0x020) 7 true) k = false) ∧
    pushFits (setPending (stack 3 0x020) 7 true) 2 = false := by decide

theorem witness_EveryStepKeepsInvariant : Inv State.reset ∧ ∃ t, step State.reset = .next t := by
  refine ⟨⟨by decide, by decide, fun h => ?_⟩, _, rfl⟩
  cases h

/-- An instruction that ends, for the statements about every next state. -/
theorem witness_ExecAnswersNext : (∃ t, exec (.pop .vx) (stack 0xFFFD 0) = .next t) ∧
    ∃ t, (State.resetFor wrapping 0).platform.addrPolicy = .wrap ∧ exec .popa (State.resetFor wrapping 0) = .next t :=
  ⟨⟨_, rfl⟩, _, rfl, rfl⟩

theorem witness_LatchesFollowRequestsAndService : (7 < 8 ∧ 7 < (8 : Nat)) ∧
    ∃ t, exec (.int 7) (setPending (stack 4 0) 7 true) = .next t := ⟨by decide, _, rfl⟩

/-- Indexed sums of -1 and 0x10000, out of range at either end, in a jump that is taken; and a word at 0xFFFF as
operand 1, as operand 2, and as a target, taken and not conditional. -/
theorem witness_OperandOutOfRangeFaults :
    ((stack 0 0x080).flag .z = true ∧
      Operand.mem (.indexed (.r 0) 0xFF) ∈ (Instr.jz (.mem (.indexed (.r 0) 0xFF))).operands ∧
      indexFits (stack 0 0x080) (.mem (.indexed (.r 0) 0xFF)) = false ∧
      indexFits (stack 0xFFFF 0) (.mem (.indexed .sp 1)) = false) ∧
    indexFits (stack 0 0x080) (.mem top) = true ∧
    operandFits (stack 0 0x080) (Dst.mem top).toOperand (widthA (stack 0 0x080) (.mem top) (.imm16 1)) = false ∧
    operandFits (stack 0 0x080) (.mem top) (widthA (stack 0 0x080) (.reg (.p 0)) (.mem top)) = false ∧
    operandFits (stack 0 0x080) (Target.mem top).toOperand .w16 = false := by decide

theorem witness_StackOutOfRangeFaults : pushFits (stack 1 0) 1 = false ∧ pushFits (stack 35 0) 18 = false ∧
    pushFits (stack 3 0) 2 = false ∧ operandFits (stack 1 0) (.mem high) .w16 = true ∧
    popFits (stack 0xFFFE 0) 1 = false ∧ popFits (stack 0xFFDC 0) 18 = false ∧ popFits (stack 0xFFFC 0) 2 = false := by decide

/-- Two memory operands of an instruction of class A, read and written at width 8 (R93). -/
theorem witness_ClassA : Memory.wf (stack 0 0).mem = true ∧
    operandFits (stack 0 0) (Dst.mem low).toOperand (widthA (stack 0 0) (Dst.mem low).toOperand (.mem high)) = true ∧
    operandFits (stack 0 0) (.mem high) (widthA (stack 0 0) (Dst.mem low).toOperand (.mem high)) = true := by decide

/-- The same at width 16, with a word in the last two bytes that can hold one. -/
theorem witness_ClassAWord : Memory.wf (stack 0 0).mem = true ∧
    widthA (stack 0 0) (Dst.reg (.p 0)).toOperand (.mem high) = .w16 ∧
    operandFits (stack 0 0) (Dst.reg (.p 0)).toOperand (widthA (stack 0 0) (Dst.reg (.p 0)).toOperand (.mem high)) = true ∧
    operandFits (stack 0 0) (.mem high) (widthA (stack 0 0) (Dst.reg (.p 0)).toOperand (.mem high)) = true := by decide

/-- DIV: a divisor that is 0 at the operation width and one that is not. -/
theorem witness_DivResultOrFault : operandIn (stack 0 0) (stack 0 0) (.imm16 0x0100) .w8 = 0 ∧
    operandIn (stack 0 0) (stack 0 0) (.imm8 1) .w8 ≠ 0 ∧ widthA (stack 0 0) (Dst.reg (.r 0)).toOperand (.imm8 1) = .w8 ∧
    widthA (stack 0 0) (Dst.reg (.r 0)).toOperand (.imm16 0x0100) = .w8 ∧ Memory.wf (stack 0 0).mem = true ∧
    operandFits (stack 0 0) (Dst.reg (.r 0)).toOperand .w8 = true ∧ operandFits (stack 0 0) (.imm8 1) .w8 = true ∧
    operandFits (stack 0 0) (.imm16 0x0100) .w8 = true := by decide

/-- INC, DEC and NOT of a memory operand, at width 8. -/
theorem witness_Unary : Memory.wf (stack 0 0).mem = true ∧
    operandFits (stack 0 0) (Dst.mem low).toOperand (widthB (stack 0 0) (Dst.mem low).toOperand) = true := by decide

/-- Shifts, rotates and bit instructions: the greatest amount, 15 from an immediate of 0x1F. -/
theorem witness_ShiftsAndBits : Memory.wf (stack 0 0).mem = true ∧
    operandFits (stack 0 0) (Dst.reg (.p 2)).toOperand (widthB (stack 0 0) (Dst.reg (.p 2)).toOperand) = true ∧
    indexFits (stack 0 0) (.imm8 0x1F) = true ∧ countIn (stack 0 0) (stack 0 0) (.imm8 0x1F) .w16 = 15 := by decide

/-- An amount that is a multiple of the width, 16 for P2. -/
theorem witness_ShiftByZeroChangesOnlyThePc :
    operandFits (stack 0 0) (Dst.reg (.p 2)).toOperand (widthB (stack 0 0) (Dst.reg (.p 2)).toOperand) = true ∧
    indexFits (stack 0 0) (.imm8 16) = true ∧
    countIn (stack 0 0) (seen (stack 0 0) (operandAddrs (stack 0 0) (Dst.reg (.p 2)).toOperand
      (widthB (stack 0 0) (Dst.reg (.p 2)).toOperand))) (.imm8 16) (widthB (stack 0 0) (Dst.reg (.p 2)).toOperand) = 0 := by decide

/-- BTST of an immediate operand 1, its position a memory byte (R170). -/
theorem witness_BtstOnlySetsZero : operandFits (stack 0 0) (.imm8 5) (widthB (stack 0 0) (.imm8 5)) = true ∧
    indexFits (stack 0 0) (.mem high) = true := by decide

theorem witness_JmpGoesToItsTarget : operandFits (stack 0 0) (Target.mem high).toOperand .w16 = true := by decide

/-- Each conditional jump's flag at both values, and a target that can be read. -/
theorem witness_ConditionalJumpsTestTheirFlag :
    (∀ x ∈ [Flag.z, .c, .s, .v], (stack 0 0xFFF).flag x = true ∧ (stack 0 0).flag x = false) ∧
    operandFits (stack 0 0) (Target.mem high).toOperand .w16 = true := by decide

theorem witness_CallPushesTheReturnAddress : Memory.wf (stack 2 0).mem = true ∧
    operandFits (stack 2 0) (Target.mem high).toOperand .w16 = true ∧ pushFits (stack 2 0) 1 = true := by decide

theorem witness_PushOneSlot : Memory.wf (stack 2 0).mem = true ∧ pushFits (stack 2 0) 1 = true := by decide
theorem witness_PopOneSlot : popFits (stack 0xFFFD 0) 1 = true := by decide
theorem witness_PopLoadsTheRegister : popFits (stack 0xFFFD 0) 1 = true ∧ overlaps .sp (.r 0) = false := by decide
theorem witness_PushaStoresEighteenSlots : Memory.wf (stack 36 0).mem = true ∧ pushFits (stack 36 0) 18 = true := by decide
theorem witness_PopaLoadsEighteenSlots : popFits (stack 0xFFDB 0) 18 = true := by decide

/-- A state that differs from the one PUSHA leaves in a register. -/
def clobbered : State := regWrite (nextOf State.reset (exec .pusha (bare 36 0))) (.r 0) 0x55

theorem witness_PopaRestoresWhatPushaSaved : Memory.wf (bare 36 0).mem = true ∧ pushFits (bare 36 0) 18 = true ∧
    (∀ e ∈ pushaBytes (bare 36 0), isMmio (bare 36 0) e.1 = false) ∧
    clobbered.sp = (nextOf State.reset (exec .pusha (bare 36 0))).sp ∧
    clobbered.platform = (nextOf State.reset (exec .pusha (bare 36 0))).platform ∧
    ∀ e ∈ pushaBytes (bare 36 0), clobbered.mem.read e.1.toNat =
      (nextOf State.reset (exec .pusha (bare 36 0))).mem.read e.1.toNat :=
  ⟨by decide, by decide, fun _ _ => rfl, sp_regWrite_other _ _ _ (by decide), regWrite_platform .., fun _ _ => by
    rw [clobbered, regWrite_mem]⟩

theorem witness_IntEntersItsVector : Memory.wf (stack 4 0).mem = true ∧ pushFits (stack 4 0) 2 = true ∧
    7 < (8 : Byte).toNat := by decide
theorem witness_IretPopsFlagsThenPc : popFits (stack 0xFFFB 0) 2 = true := by decide

/-- The inner state has its FLAGS and a register changed by a handler. -/
theorem witness_IretUndoesTheEntry : Memory.wf (bare 4 0xFFF).mem = true ∧ pushFits (bare 4 0xFFF) 2 = true ∧
    (∀ e ∈ entryBytes (bare 4 0xFFF) 0x0203, isMmio (bare 4 0xFFF) e.1 = false) ∧
    ∃ t t', enter (bare 4 0xFFF) 7 0x0203 = .ok () t ∧ t' = regWrite (t.withFlags 0) (.r 0) 0x55 ∧ t'.sp = t.sp ∧
      t'.platform = t.platform ∧
      ∀ e ∈ entryBytes (bare 4 0xFFF) 0x0203, t'.mem.read e.1.toNat = t.mem.read e.1.toNat := by
  obtain ⟨t, ht, _⟩ := enter_ok (s := bare 4 0xFFF) 7 0x0203 (by decide) (by decide)
  exact ⟨by decide, by decide, fun _ _ => rfl, t, _, ht, rfl, sp_regWrite_other _ _ _ (by decide), regWrite_platform ..,
    fun _ _ => by rw [regWrite_mem]; rfl⟩

/-- From reset, a run of five steps ends after one, at the HLT that memory full of 0x00 holds. -/
theorem witness_RunStepsUntilTheCoreStops : (hostRun 5 State.reset).1 < 5 ∧
    (State.reset.withStatus .halted).status ≠ .running ∧ SafeRun 5 State.reset := by
  refine ⟨by decide, by decide, ⟨fun f h => (by cases h), .inr ⟨_, rfl, fun f h => (by cases h), .inl rfl⟩⟩⟩

end Sys2Proof.Tests
end

section
/-! How every instruction ends, said once for `exec`: the registers of R28 and the flags of R29 bound what it
writes, and only HLT and INT reach past that frame, to the run status and to a pending latch (spec 49_misc.md R230,
60_exceptions.md R242, R255). Then the obligation O23, which reads off it. -/

namespace Sys2Proof.Machine

/-! ## Frames along a composition -/

theorem Frame.status_eq {R F} {s t : State} (h : Frame R F s t) : t.status = s.status := h.control.2.1
theorem Frame.platform_eq {R F} {s t : State} (h : Frame R F s t) : t.platform = s.platform := h.control.2.2

/-- Effects that come before an operation are framed with it. -/
theorem Res.Frames.of_frame {α : Type} {R F} {s t : State} {x : Res α} (h : Frame R F s t) (hx : x.Frames R F t) :
    x.Frames R F s := by
  cases x with
  | ok a u => exact h.trans hx
  | fault f addr bus => exact FaultOk.of_frame h hx

/-- A fault that is no AddressFault, raised after framed effects. -/
theorem Res.Frames.plainFault {α : Type} (R F) (s : State) {f : Fault} (hf : f ≠ .addressFault) :
    (Res.fault (α := α) f none s.bus).Frames R F s :=
  ⟨(Frame.refl R F s).bus, by simp [hf], fun h => absurd h hf⟩

/-- A result that sets Z, S, P, C and V writes no other flag (R32 to R34). -/
theorem setCV_setZSP_kept {w : Nat} (c v : Bool) (r : BitVec w) (f : FlagWord) (y : Flag)
    (h : y ∉ [Flag.z, .s, .p, .c, .v]) : flagGet (setCV c v (setZSP r f)) y = flagGet f y := by
  simp only [List.mem_cons, List.not_mem_nil, or_false, not_or] at h
  obtain ⟨hz, hs, hp, hc, hv⟩ := h
  simp [flagGet_setCV, flagGet_setZSP, hz, hs, hp, hc, hv]

/-! ## How an instruction ends -/

/-- How the instruction `i`, begun in `s`, ends. -/
inductive ExecEnds (i : Instr) (s : State) : State → Prop where
  /-- Inside the frame of R28 and R29, or in a precise fault. -/
  | framed {t : State} (h : Ends (regsWritten i) (flagsWritten i) s t) : ExecEnds i s t
  /-- HLT (R230). -/
  | halts (hi : i = .hlt) : ExecEnds i s ((s.withPc (nextPc i s)).withStatus .halted)
  /-- INT n takes its interrupt, which clears its latch (R255, R257). -/
  | enters {u : State} (n : Fin 8) (hi : i = .int (BitVec.ofNat 8 n.val))
      (h : Frame (regsWritten i) (flagsWritten i) s u) : ExecEnds i s (setPending u n false)

/-- An outcome that ends as `Ends` says, at the registers and flags the instruction may write. -/
theorem execEnds_of_ends {i : Instr} {s : State} {o : Host.Outcome State Fault Refusal}
    (h : ∃ t, o = .next t ∧ Ends (regsWritten i) (flagsWritten i) s t) : ∃ t, o = .next t ∧ ExecEnds i s t :=
  h.imp fun _ ⟨ho, ht⟩ => ⟨ho, .framed ht⟩

/-! ## The instructions with a body of their own -/

theorem execMov_ends (d : Dst) (x : Operand) (s : State) :
    ∃ t, execMov d x s = .next t ∧ Ends (destRegs d) [] s t := by
  refine runInstr_ends ?_
  refine (readOp_frames _ _ s _ _).bind fun v s1 _ => ?_
  exact (writeOp_frames [] s1 s d _ v).bind fun _ s2 _ => frame_withPc _ _ s2 _

theorem execDiv_ends (d : Dst) (x : Operand) (s : State) :
    ∃ t, execDiv d x s = .next t ∧ Ends (destRegs d) [.z, .s, .p, .c, .v] s t := by
  refine runInstr_ends ?_
  refine (readOp_frames _ _ s _ _).bind fun a s1 _ => ?_
  refine (readOp_frames _ _ s1 _ _).bind fun b s2 _ => ?_
  split
  · exact .plainFault _ _ s2 (by decide)
  · have hflags := frame_withFlags (destRegs d) _ s2 _ (setCV_setZSP_kept false false (a / b) s2.flags)
    exact .of_frame hflags ((writeOp_frames _ _ s d _ _).bind fun _ s3 _ => frame_withPc _ _ s3 _)

theorem execCmp_ends (a x : Operand) (s : State) :
    ∃ t, execCmp a x s = .next t ∧ Ends [] [.z, .s, .p, .c, .v] s t := by
  refine runInstr_ends ?_
  refine (readOp_frames _ _ s _ _).bind fun u s1 _ => ?_
  refine (readOp_frames _ _ s1 _ _).bind fun v s2 _ => ?_
  exact (frame_withFlags _ _ s2 _ (setCV_setZSP_kept _ _ (u - v) s2.flags)).trans (frame_withPc _ _ _ _)

theorem execBtst_ends (a x : Operand) (s : State) : ∃ t, execBtst a x s = .next t ∧ Ends [] [.z] s t := by
  refine runInstr_ends ?_
  refine (readOp_frames _ _ s _ _).bind fun v s1 _ => ?_
  refine (readCount_frames _ _ s1 _ _).bind fun k s2 _ => ?_
  exact (frame_withFlags _ _ s2 _ (bitFlags_kept v k s2.flags)).trans (frame_withPc _ _ _ _)

theorem execCall_ends (g : Target) (s : State) : ∃ t, execCall g s = .next t ∧ Ends [.sp] [] s t := by
  refine runInstr_ends ?_
  refine (readTarget_frames _ _ s _).bind fun v s1 _ => ?_
  exact (push16_frames _ s1 _ (by simp)).bind fun _ s2 _ => frame_withPc _ _ s2 _

theorem execRet_ends (s : State) : ∃ t, execRet s = .next t ∧ Ends [.sp] [] s t :=
  runInstr_ends ((pop16_frames _ s (by simp)).bind fun _ s1 _ => frame_withPc _ _ s1 _)

theorem execPush_ends (c : Reg) (s : State) : ∃ t, execPush c s = .next t ∧ Ends [.sp] [] s t :=
  runInstr_ends ((push16_frames _ s _ (by simp)).bind fun _ s1 _ => frame_withPc _ _ s1 _)

theorem execPop_ends (c : Reg) (s : State) : ∃ t, execPop c s = .next t ∧ Ends [.sp, c] [] s t := by
  refine runInstr_ends ((pop16_frames _ s (by simp)).bind fun v s1 _ => ?_)
  exact (frame_regWrite _ s1 c v (by simp)).trans (frame_withPc _ _ _ _)

theorem execPusha_ends (s : State) : ∃ t, execPusha s = .next t ∧ Ends [.sp] [] s t :=
  runInstr_ends ((pushRegs_frames _ _ s (by simp)).bind fun _ s1 _ => frame_withPc _ _ s1 _)

theorem execPopa_ends (s : State) : ∃ t, execPopa s = .next t ∧ Ends (.sp :: savedRegs) [] s t :=
  runInstr_ends ((popRegs_frames _ _ s (by simp) (by simp +contextual)).bind fun _ s1 _ => frame_withPc _ _ s1 _)

theorem execPushf_ends (s : State) : ∃ t, execPushf s = .next t ∧ Ends [.sp] [] s t :=
  runInstr_ends ((push16_frames _ s _ (by simp)).bind fun _ s1 _ => frame_withPc _ _ s1 _)

/-- POPF and IRET load all twelve flags (R205, R218). -/
theorem mem_flagsWritten_popf (x : Flag) : x ∈ flagsWritten .popf := by
  cases x <;> decide

theorem execPopf_ends (s : State) : ∃ t, execPopf s = .next t ∧ Ends [.sp] (flagsWritten .popf) s t := by
  refine runInstr_ends ((pop16_frames _ s (by simp)).bind fun v s1 _ => ?_)
  refine (frame_withFlags _ _ s1 _ fun x hx => ?_).trans (frame_withPc _ _ _ _)
  exact absurd (mem_flagsWritten_popf x) hx

theorem execIret_ends (s : State) : ∃ t, execIret s = .next t ∧ Ends [.sp] (flagsWritten .popf) s t :=
  runInstr_ends (leave_frames mem_flagsWritten_popf s)

theorem execNop_ends (s : State) : ∃ t, execNop s = .next t ∧ Ends [] [] s t :=
  runInstr_ends (frame_withPc _ _ s _)

/-! ## The two that reach past the frame -/

theorem execHlt_eq (s : State) :
    execHlt s = .next ((s.withPc (nextPc .hlt s)).withStatus .halted) :=
  runInstr_eq (by simp [Instr.operands])

/-- INT enters its handler or faults in the entry; on a vector above 7 it faults (R217, R255; assumption 20). -/
theorem execInt_ends (n : Byte) (s : State) : ∃ t, execInt n s = .next t ∧ ExecEnds (.int n) s t := by
  by_cases hn : n.toNat < 8
  · have hent := enter_frames s ⟨n.toNat, hn⟩ (nextPc (.int n) s)
    cases hx : enter s ⟨n.toNat, hn⟩ (nextPc (.int n) s) with
    | ok _ t =>
      rw [hx] at hent
      obtain ⟨u, hu, rfl⟩ := hent
      refine ⟨_, ?_, .enters ⟨n.toNat, hn⟩ (by simp) hu⟩
      rw [execInt, runInstr_eq (by simp [Instr.operands, indexFits]), dif_pos hn, hx, finish_ok]
    | fault f addr bus =>
      rw [hx] at hent
      refine execEnds_of_ends (runInstr_ends ?_)
      rw [dif_pos hn, hx]
      exact hent.1
  · refine execEnds_of_ends (runInstr_ends ?_)
    rw [dif_neg hn]
    exact .plainFault _ _ s (by simp)

/-! ## Every instruction -/

/-- Every instruction answers a next state, and ends in one of the ways of `ExecEnds`. -/
theorem exec_ends (i : Instr) (s : State) : ∃ t, exec i s = .next t ∧ ExecEnds i s t := by
  unfold exec
  cases i with
  | hlt => exact ⟨_, execHlt_eq s, .halts rfl⟩
  | int n => exact execInt_ends n s
  | add d x | sub d x | mul d x | and d x | or d x | xor d x =>
    exact execEnds_of_ends (runAlu_ends fun _ _ _ => setCV_setZSP_kept _ _ _)
  | inc d | dec d | not d => exact execEnds_of_ends (runUnary_ends fun _ _ => setCV_setZSP_kept _ _ _)
  | shl d x | shr d x | rol d x | ror d x => exact execEnds_of_ends runShift_ends
  | bset d x | bclr d x | bflip d x => exact execEnds_of_ends runBit_ends
  | jmp g | jz g | jnz g | jc g | jnc g | js g | jns g | jo g | jno g => exact execEnds_of_ends runJump_ends
  | sti | cli | std | cld => exact execEnds_of_ends runFlag_ends
  | mov d x => exact execEnds_of_ends (execMov_ends d x s)
  | div d x => exact execEnds_of_ends (execDiv_ends d x s)
  | cmp a x => exact execEnds_of_ends (execCmp_ends a x s)
  | btst a x => exact execEnds_of_ends (execBtst_ends a x s)
  | call g => exact execEnds_of_ends (execCall_ends g s)
  | ret => exact execEnds_of_ends (execRet_ends s)
  | push c => exact execEnds_of_ends (execPush_ends c s)
  | pop c => exact execEnds_of_ends (execPop_ends c s)
  | pusha => exact execEnds_of_ends (execPusha_ends s)
  | popa => exact execEnds_of_ends (execPopa_ends s)
  | pushf => exact execEnds_of_ends (execPushf_ends s)
  | popf => exact execEnds_of_ends (execPopf_ends s)
  | iret => exact execEnds_of_ends (execIret_ends s)
  | nop => exact execEnds_of_ends (execNop_ends s)

/-! ## The status and the OPEN parameters -/

theorem ExecEnds.platform {i : Instr} {s t : State} (h : ExecEnds i s t) : t.platform = s.platform := by
  cases h with
  | framed h =>
    rcases h with hframe | ⟨f, bus, -, -, -, -, rfl⟩
    · exact hframe.platform_eq
    · rfl
  | halts => rfl
  | enters n _ h => exact h.platform_eq

/-- The status is kept, or HLT halts, or the fault is precise (R230, R242, R243). -/
theorem ExecEnds.status_or_fault {i : Instr} {s t : State} (h : ExecEnds i s t) :
    t.status = s.status ∨ (i = .hlt ∧ t.status = .halted) ∨
      ∃ f bus, f.pc = s.pc ∧ f.vector = none ∧ s.bus <+: bus ∧ t = s.raise f bus := by
  cases h with
  | framed h =>
    rcases h with hframe | ⟨f, bus, hfault, hpc, hvector, -, rfl⟩
    · exact .inl hframe.status_eq
    · exact .inr (.inr ⟨f, bus, hpc, hvector, hfault.1, rfl⟩)
  | halts hi => exact .inr (.inl ⟨hi, rfl⟩)
  | enters n _ h => exact .inl h.status_eq

/-- Settles O23: the ways an instruction can end (`exec_ends`), each read off for the platform and the status. -/
theorem everyInstructionEndsAndFaultsArePrecise : Obligations.EveryInstructionEndsAndFaultsArePrecise := by
  intro i s
  obtain ⟨t, ht, hends⟩ := exec_ends i s
  exact ⟨t, ht, hends.platform, hends.status_or_fault⟩

end Sys2Proof.Machine
end

section
/-! The invariant of every reachable state (R25, R27, R60, R241): each way a step can end keeps `Inv`. Then the
obligations O22 and O3. -/

namespace Sys2Proof.Machine

/-! ## How the invariant is kept -/

/-- Effects inside a frame keep the status, and the rest of the invariant by the frame's own clauses. -/
theorem Frame.inv {R F} {s t : State} (h : Frame R F s t) (hs : Inv s) : Inv t := by
  obtain ⟨hmem, hstatus, hvreg⟩ := hs
  exact ⟨h.wf hmem, h.status_eq ▸ hstatus, h.vreg hvreg⟩

/-- A fault discards all effects but the status and the log, so only its record has to be of R241's form. -/
theorem Inv.raise {s : State} {f : FaultRecord} {bus : List BusEvent} (hs : Inv s) (hf : recordOk f = true) :
    Inv (s.raise f bus) := by
  obtain ⟨hmem, -, hvreg⟩ := hs
  exact ⟨hmem, hf, hvreg⟩

/-- A latch is no part of the invariant. -/
theorem Inv.setPending {s : State} (hs : Inv s) (n : Fin 8) (on : Bool) : Inv (setPending s n on) := hs

/-- What peripherals saw is no part of the invariant. -/
theorem Inv.afterFetch {s : State} (hs : Inv s) (n : Nat) : Inv (afterFetch s n) := hs

/-- A record with no source number is of R241's form when an address comes exactly with AddressFault. -/
theorem recordOk_of_no_vector {f : FaultRecord} (haddr : f.addr.isSome = (f.kind == .addressFault))
    (hvector : f.vector = none) (hbytes : f.bytes.length ≤ maxLength) : recordOk f = true := by
  simp [recordOk, haddr, hvector, hbytes]

/-- The record of an entry that faults: AddressFault, no byte, the source number (R241, R256). -/
theorem recordOk_of_entry {f : FaultRecord} (hkind : f.kind = .addressFault) (haddr : f.addr.isSome = true)
    (hbytes : f.bytes = []) : recordOk f = true := by
  simp [recordOk, hkind, haddr, hbytes]

/-! ## Instructions -/

theorem Ends.inv {R F} {s t : State} (h : Ends R F s t) (hs : Inv s) : Inv t := by
  rcases h with hframe | ⟨f, bus, ⟨-, haddr, -⟩, -, hvector, hbytes, rfl⟩
  · exact hframe.inv hs
  · exact hs.raise (recordOk_of_no_vector haddr hvector hbytes)

theorem ExecEnds.inv {i : Instr} {s t : State} (h : ExecEnds i s t) (hs : Inv s) : Inv t := by
  cases h with
  | framed h => exact h.inv hs
  | halts =>
    obtain ⟨hmem, -, hvreg⟩ := hs
    exact ⟨hmem, rfl, hvreg⟩
  | enters n _ h => exact (h.inv hs).setPending n false

/-- The next state of an instruction is one of the ends `ExecEnds` lists. -/
theorem ExecEnds.of_exec {i : Instr} {s t : State} (h : exec i s = .next t) : ExecEnds i s t := by
  obtain ⟨u, hu, hends⟩ := exec_ends i s
  rw [hu] at h
  cases h
  exact hends

/-! ## The interrupt check -/

theorem hardwareEntry_inv {s : State} (n : Fin 8) (hs : Inv s) : Inv (hardwareEntry s n) := by
  have hent := enter_frames s n s.pc
  unfold hardwareEntry
  cases hx : enter s n s.pc with
  | ok _ t =>
    rw [hx] at hent
    obtain ⟨u, hframe, rfl⟩ := hent
    exact (hframe.inv hs).setPending n false
  | fault f addr bus =>
    rw [hx] at hent
    obtain ⟨⟨-, haddr, -⟩, rfl⟩ := hent
    exact hs.raise (recordOk_of_entry rfl haddr rfl)

theorem interruptCheck_inv {s : State} (hs : Inv s) : Inv (interruptCheck s) := by
  unfold interruptCheck
  split
  · exact hardwareEntry_inv _ hs
  · exact hs

/-! ## Fetch and decode -/

/-- An indexed operand that faults in decode does so before its field's end, two bytes for each operand (R90, R105). -/
theorem indexFault_count_le {s : State} {os : List Operand} {off : Nat} {e : Int × Nat}
    (h : indexFault s os off = some e) : e.2 ≤ off + 2 * os.length := by
  induction os generalizing off with
  | nil => cases h
  | cons o os ih =>
    have hlen := o.fieldLen_le
    rw [indexFault] at h
    split at h
    · cases h
      simp only [List.length_cons]
      omega
    · have := ih h
      simp only [List.length_cons]
      omega

@[simp] theorem fetchBytes_length (s : State) (n : Nat) : (fetchBytes s n).length = n := by
  simp [fetchBytes]

/-- At most two operands stand before the failing byte, so neither record holds more than six bytes (R105, R241). -/
theorem decodeFaultState_inv {s : State} {sub : DecodeSub} {len : Nat} {before : List Operand} (hs : Inv s)
    (hlen : len ≤ maxLength) (hbefore : before.length ≤ 2) : Inv (decodeFaultState s sub len before) := by
  unfold decodeFaultState
  split
  · rename_i e he
    have hcount := indexFault_count_le he
    refine hs.raise (recordOk_of_no_vector rfl rfl ?_)
    rw [fetchBytes_length, maxLength]
    omega
  · refine hs.raise (recordOk_of_no_vector rfl rfl ?_)
    rwa [fetchBytes_length]

theorem runAtPc_inv {s t : State} (hs : Inv s) (h : runAtPc s = .next t) : Inv t := by
  unfold runAtPc at h
  split at h
  · exact (ExecEnds.of_exec h).inv (hs.afterFetch _)
  · rename_i hdecode
    obtain ⟨hlen, hbefore⟩ := decode_bad hdecode
    cases h
    exact decodeFaultState_inv hs hlen hbefore

/-! ## The step -/

theorem runStep_inv {s t : State} (hs : Inv s) (h : runStep s = .next t) : Inv t := by
  have hcheck := interruptCheck_inv hs
  unfold runStep at h
  split at h
  · exact runAtPc_inv hcheck h
  · cases h
    exact hcheck
  · cases h
    exact hcheck

/-- Settles O22: a running core checks for an interrupt and then runs what it decodes (`runStep_inv`); a stopped one
answers no next state. -/
theorem everyStepKeepsInvariant : Obligations.EveryStepKeepsInvariant := by
  intro s t hs h
  unfold step at h
  split at h
  · exact runStep_inv hs h
  · cases h
  · cases h

/-- At reset memory is empty, the status is Running, and VX and VY are 0 (R43). -/
theorem resetFor_inv (platform : Platform) (pc : Word) : Inv (State.resetFor platform pc) := by
  have hzero : (0 : Word).toNat < 256 := by decide
  exact ⟨rfl, rfl, fun _ => ⟨hzero, hzero⟩⟩

/-- Settles O3: `State.reset` is the reset state of one platform and one `reset_pc`. -/
theorem resetStateHasTheInvariant : Obligations.ResetStateHasTheInvariant := fun platform pc =>
  ⟨resetFor_inv platform pc, resetFor_inv _ _⟩

end Sys2Proof.Machine
end

section
/-! What instructions and register writes leave alone, and what a register reads back (R22, R24, R28, R29, R31):
the obligations O25, O26 and O4. -/

namespace Sys2Proof.Machine

/-! ## Flags and registers an instruction does not list -/

theorem Ends.flagsKept {R F} {s t : State} (h : Ends R F s t) : FlagsKept s t F := by
  rcases h with hframe | ⟨f, bus, -, -, -, -, rfl⟩
  · exact hframe.flags
  · exact fun _ _ => rfl

theorem Ends.regsKept {R F} {s t : State} (h : Ends R F s t) : RegsKept s t R := by
  rcases h with hframe | ⟨f, bus, -, -, -, -, rfl⟩
  · exact hframe.regs
  · exact fun c _ => by simp [State.raise]

theorem ExecEnds.flagsKept {i : Instr} {s t : State} (h : ExecEnds i s t) : FlagsKept s t (flagsWritten i) := by
  cases h with
  | framed h => exact h.flagsKept
  | halts => exact fun _ _ => rfl
  | enters n _ h => exact h.flags

theorem ExecEnds.regsKept {i : Instr} {s t : State} (h : ExecEnds i s t) : RegsKept s t (regsWritten i) := by
  cases h with
  | framed h => exact h.regsKept
  | halts => exact fun c _ => by simp
  | enters n _ h => exact fun c hc => (regRead_withPending ..).trans (h.regs c hc)

/-- Settles O25: every end of an instruction keeps the flags outside R29's list. -/
theorem flagsChangeOnlyByTheirInstructions : Obligations.FlagsChangeOnlyByTheirInstructions :=
  fun _ _ _ h => (ExecEnds.of_exec h).flagsKept

/-- Settles O26: every end of an instruction keeps the registers outside R28's list. -/
theorem registersChangeOnlyByTheirInstructions : Obligations.RegistersChangeOnlyByTheirInstructions :=
  fun _ _ _ h => (ExecEnds.of_exec h).regsKept

/-! ## Register writes -/

theorem getP_regWrite_ph (s : State) (n : Fin 10) (v : Word) :
    getP (regWrite s (.ph n) v) n = loByte v ++ loByte (getP s n) := by
  simp [regWrite]

theorem getP_regWrite_pl (s : State) (n : Fin 10) (v : Word) :
    getP (regWrite s (.pl n) v) n = hiByte (getP s n) ++ loByte v := by
  simp [regWrite]

/-- Settles O4: a register write is framed by the register it names (`frame_regWrite`), reads back at its width
(`regRead_regWrite_same`), and through PnH or PnL replaces one byte of Pn. -/
theorem registerReadsBackTheWrite : Obligations.RegisterReadsBackTheWrite := by
  intro s c v
  have hframe := frame_regWrite (R := [c]) [] s c v (by simp)
  exact ⟨regRead_regWrite_same s c v, hframe.regs, regWrite_mem s c v, regWrite_flags s c v, regWrite_pc s c v,
    regWrite_bus s c v, hframe.control, fun n => ⟨getP_regWrite_ph s n v, getP_regWrite_pl s n v⟩⟩

end Sys2Proof.Machine
end

section
/-! The flag helpers SetZSP, AddFlags and SubFlags against the arithmetic they report (R32 to R34, R180): the
obligations O8, O9 and O10. -/

namespace Sys2Proof.Machine

/-! ## Parity and the signed range -/

/-- Counting the positions at which a predicate holds is adding up its values. -/
theorem sum_map_toNat_eq_countP {α : Type} (p : α → Bool) (l : List α) :
    (l.map fun k => (p k).toNat).sum = l.countP p := by
  induction l with
  | nil => rfl
  | cons k l ih =>
    rw [List.map_cons, List.sum_cons, ih, List.countP_cons]
    cases p k <;> simp [Nat.add_comm]

/-- `popcount` of the low byte counts the ones among bits 7..0, at every width (R5, R32). -/
theorem popcount_lowByte {w : Nat} (r : BitVec w) :
    popcount (r.setWidth 8) = (List.range 8).countP fun k => r.getLsbD k := by
  have hbits : ∀ k ∈ List.range 8, ((r.setWidth 8).getLsbD k).toNat = (r.getLsbD k).toNat := fun k hk => by
    simp [List.mem_range.mp hk]
  rw [← sum_map_toNat_eq_countP, ← List.map_congr_left hbits]
  rfl

theorem parityEven_eq {w : Nat} (r : BitVec w) :
    parityEven r = decide (((List.range 8).countP fun k => r.getLsbD k) % 2 = 0) := by
  rw [parityEven, popcount_lowByte]
  rfl

/-- What V reports is being outside the signed range (R33, R34). -/
theorem not_inSigned (w : Nat) (x : Int) : (!inSigned w x) = outsideSigned w x := by
  rw [inSigned, outsideSigned, ← decide_not]
  exact decide_eq_decide.mpr (by omega)

/-- The signed range as the library's overflow predicates write it. -/
theorem outsideSigned_eq (w : Nat) (x : Int) :
    outsideSigned w x = (decide (x ≥ 2 ^ (w - 1)) || decide (x < -2 ^ (w - 1))) := by
  rw [outsideSigned, ← Bool.decide_or]
  exact decide_eq_decide.mpr (by omega)

/-- A sum leaves the signed range when the operands have one sign and the sum has the other (R33). -/
theorem outsideSigned_add {w : Nat} (a b : BitVec w) :
    outsideSigned w (a.toInt + b.toInt) = (a.msb == b.msb && (a + b).msb != a.msb) := by
  rw [outsideSigned_eq]
  exact BitVec.saddOverflow_eq a b

/-- A difference leaves the signed range when the operands differ in sign and the difference has not the sign of
the first (R34). -/
theorem outsideSigned_sub {w : Nat} (a b : BitVec w) :
    outsideSigned w (a.toInt - b.toInt) = (a.msb != b.msb && (a - b).msb != a.msb) := by
  rw [outsideSigned_eq]
  refine (BitVec.ssubOverflow_eq a b).trans ?_
  cases a.msb <;> cases b.msb <;> simp

/-- The sign of the difference, corrected by its overflow, orders the operands as signed numbers (R180). -/
theorem msb_sub_bne_outsideSigned {w : Nat} (a b : BitVec w) :
    ((a - b).msb != outsideSigned w (a.toInt - b.toInt)) = decide (a.toInt < b.toInt) := by
  cases hv : outsideSigned w (a.toInt - b.toInt) with
  | false =>
    have hexact : (a - b).toInt = a.toInt - b.toInt :=
      BitVec.toInt_sub_of_not_ssubOverflow (by simpa [outsideSigned_eq, BitVec.ssubOverflow] using hv)
    rw [Bool.bne_false, BitVec.msb_eq_toInt, hexact]
    exact decide_eq_decide.mpr (by omega)
  | true =>
    rw [outsideSigned_sub, Bool.and_eq_true, bne_iff_ne, bne_iff_ne] at hv
    obtain ⟨hdiffer, hsign⟩ := hv
    have hb : (a - b).msb = b.msb := (Bool.eq_not.mpr hsign).trans (Bool.eq_not.mpr hdiffer.symm).symm
    rw [BitVec.msb_eq_toInt, BitVec.msb_eq_toInt, ne_eq, decide_eq_decide] at hdiffer
    rw [hb, Bool.bne_true, BitVec.msb_eq_toInt, ← decide_not]
    exact decide_eq_decide.mpr (by omega)

/-! ## The flags of a sum and of a difference -/

theorem addFlags_eq {w : Nat} (a b : BitVec w) (f : FlagWord) :
    addFlags a b f = setCV (decide (2 ^ w ≤ a.toNat + b.toNat)) (outsideSigned w (a.toInt + b.toInt))
      (setZSP (a + b) f) := by
  rw [addFlags, not_inSigned]

theorem subFlags_eq {w : Nat} (a b : BitVec w) (f : FlagWord) :
    subFlags a b f = setCV (decide (a.toNat < b.toNat)) (outsideSigned w (a.toInt - b.toInt)) (setZSP (a - b) f) := by
  rw [subFlags, not_inSigned]

theorem flagGet_addFlags {w : Nat} (a b : BitVec w) (f : FlagWord) (x : Flag) :
    flagGet (addFlags a b f) x =
      if x = .v then outsideSigned w (a.toInt + b.toInt)
      else if x = .c then decide (2 ^ w ≤ a.toNat + b.toNat) else flagGet (setZSP (a + b) f) x := by
  rw [addFlags_eq, flagGet_setCV]

theorem flagGet_subFlags {w : Nat} (a b : BitVec w) (f : FlagWord) (x : Flag) :
    flagGet (subFlags a b f) x =
      if x = .v then outsideSigned w (a.toInt - b.toInt)
      else if x = .c then decide (a.toNat < b.toNat) else flagGet (setZSP (a - b) f) x := by
  rw [subFlags_eq, flagGet_setCV]

/-- The difference of two words is the integer difference cut to their width. -/
theorem sub_eq_ofInt {w : Nat} (a b : BitVec w) : a - b = BitVec.ofInt w ((a.toNat : Int) - (b.toNat : Int)) := by
  apply BitVec.eq_of_toInt_eq
  rw [BitVec.toInt_sub, BitVec.toInt_ofInt, BitVec.toInt_eq_toNat_bmod, BitVec.toInt_eq_toNat_bmod]
  simp

/-- Settles O8: each flag of SetZSP (`flagGet_setZSP`), with parity as a count of ones (`parityEven_eq`). -/
theorem zeroSignParityHelper : Obligations.ZeroSignParityHelper := by
  intro W r f
  simp only [flagGet_setZSP]
  refine ⟨by simp [beq_eq_decide], by simp [BitVec.msb_eq_getLsbD_last], by simp [parityEven_eq], ?_⟩
  intro x hz hs hp
  simp [hz, hs, hp]

/-- Settles O9: each flag of AddFlags (`flagGet_addFlags`), with overflow by the signs (`outsideSigned_add`). -/
theorem addFlagsHelper : Obligations.AddFlagsHelper := by
  intro W a b f
  simp only [flagGet_addFlags]
  refine ⟨by simp [BitVec.ofNat_add], by simp, by simp, by simp [outsideSigned_add], ?_⟩
  intro x hc hv
  simp [hc, hv]

/-- Settles O10: each flag of SubFlags (`flagGet_subFlags`), with overflow by the signs (`outsideSigned_sub`) and
the signed order by S and V (`msb_sub_bne_outsideSigned`). -/
theorem subFlagsHelper : Obligations.SubFlagsHelper := by
  intro W a b f
  simp only [flagGet_subFlags]
  refine ⟨sub_eq_ofInt a b, by simp, by simp, by simp [outsideSigned_sub], ?_, ?_⟩
  · simpa [flagGet_setZSP] using msb_sub_bne_outsideSigned a b
  · intro x hc hv
    simp [hc, hv]

end Sys2Proof.Machine
end

section
/-! Operation widths, effective addresses and the default advance (R91, R93, R100): the obligation O30. -/

namespace Sys2Proof.Machine

/-- Class A takes the width of an operand 1 that has one, whatever operand 2 is (R93). -/
theorem widthA_of_own {s : State} {o : Operand} {W : Width} (h : ownWidth s o = some W) (x : Operand) :
    widthA s o x = W := by
  simp [widthA, h]

/-- Class A takes the width of operand 2 where operand 1 is in memory (R93). -/
theorem widthA_of_mem {s : State} {x : Operand} {W : Width} (m : MemRef) (h : ownWidth s x = some W) :
    widthA s (.mem m) x = W := by
  have hmem : ownWidth s (.mem m) = none := rfl
  simp [widthA, hmem, h]

/-- Two memory operands are one byte wide (R93). -/
theorem widthA_mem_mem (s : State) (m m' : MemRef) : widthA s (.mem m) (.mem m') = .w8 := rfl

/-- Class B takes the width of an operand 1 that has one (R93). -/
theorem widthB_of_own {s : State} {o : Operand} {W : Width} (h : ownWidth s o = some W) : widthB s o = W := by
  simp [widthB, h]

/-- Settles O30: effective addresses and the next PC by definition, the widths by the operand that has one. -/
theorem widthsAddressesAndNextPc : Obligations.WidthsAddressesAndNextPc := by
  refine ⟨fun s a c d i => ⟨rfl, rfl, rfl, rfl⟩, fun s n m m' o b v => ?_⟩
  exact ⟨widthA_of_own rfl o, widthA_of_own rfl o, widthA_of_own rfl o, widthA_of_own rfl o, widthA_of_own rfl o,
    widthA_of_own rfl o, widthA_of_own rfl o, widthA_of_own rfl o, fun _ => widthA_of_mem m rfl,
    widthA_of_mem m rfl, widthA_of_mem m rfl, widthA_mem_mem s m m', fun _ => widthB_of_own rfl,
    widthB_of_own rfl, widthB_of_own rfl, rfl⟩

end Sys2Proof.Machine
end

section
/-! ADD, SUB and CMP against R33, R34, R130, R131 and R180: what the shared way of running a two-operand instruction
leaves (`runAlu_ok`), and what its FLAGS word reports. The obligations O32, O33 and O37. -/

namespace Sys2Proof.Machine

/-- A state whose FLAGS word was written from the result `r`, the carry `c` and the overflow `v` reports them, and
keeps every other flag (R31 to R34). -/
theorem reports_of_flags {w : Nat} {s t : State} {r : BitVec w} {c v : Bool}
    (h : t.flags = setCV c v (setZSP r s.flags)) :
    ZspReport t r ∧ t.flag .c = c ∧ t.flag .v = v ∧ FlagsKept s t [.z, .s, .p, .c, .v] := by
  have hflag : ∀ x, t.flag x = flagGet (setCV c v (setZSP r s.flags)) x := fun x => by rw [State.flag, h]
  have hzsp : ZspReport t r := by
    simp [ZspReport, hflag, flagGet_setCV, flagGet_setZSP, parityEven_eq, beq_eq_decide]
  exact ⟨hzsp, by simp [hflag, flagGet_setCV], by simp [hflag, flagGet_setCV],
    fun x hx => (hflag x).trans (setCV_setZSP_kept c v r s.flags x hx)⟩

/-- A two-operand instruction run by `runAlu` keeps `AluClaim` when its FLAGS word is that of its result, carry and
overflow. -/
theorem aluClaim_of_runAlu {mk : Dst → Operand → Instr} {result : {w : Nat} → BitVec w → BitVec w → BitVec w}
    {flags : {w : Nat} → BitVec w → BitVec w → FlagWord → FlagWord}
    {carry overflow : (w : Nat) → BitVec w → BitVec w → Bool}
    (hexec : ∀ d x s, exec (mk d x) s = runAlu (mk d x) d.toOperand x s result flags)
    (hoperands : ∀ d x, (mk d x).operands = [d.toOperand, x])
    (hflags : ∀ (w : Nat) (a b : BitVec w) f,
      flags a b f = setCV (carry w a b) (overflow w a b) (setZSP (result a b) f)) :
    AluClaim mk (fun _ => result) carry overflow := by
  intro d x s hmem hfits1 hfits2 W hW a ha b hb
  obtain ⟨t, ht, hwrote, htflags, -⟩ := runAlu_ok (result := result) (flags := flags) (hoperands d x) hmem hfits1
    hfits2 hW ha hb
  exact ⟨t, (hexec d x s).trans ht, hwrote, reports_of_flags (htflags.trans (hflags _ a b s.flags))⟩

/-- Settles O32: ADD runs by `runAlu`, and its FLAGS word is that of AddFlags (R33). -/
theorem addResultAndFlags : Obligations.AddResultAndFlags :=
  aluClaim_of_runAlu (fun _ _ _ => rfl) (fun _ _ => rfl) fun _ => addFlags_eq

/-- Settles O33: SUB runs by `runAlu`, and its FLAGS word is that of SubFlags (R34). -/
theorem subResultAndFlags : Obligations.SubResultAndFlags :=
  aluClaim_of_runAlu (fun _ _ _ => rfl) (fun _ _ => rfl) fun _ => subFlags_eq

/-- CMP with operands that fit writes FLAGS and the PC, and nothing else (R180). -/
theorem execCmp_ok {o x : Operand} {s : State} {W : Width} (hW : W = widthA s o x)
    (h1 : operandFits s o W = true) (h2 : operandFits s x W = true) {a b : Value W} (ha : a = operandIn s s o W)
    (hb : b = operandIn s (seen s (operandAddrs s o W)) x W) :
    ∃ t, exec (.cmp o x) s = .next t ∧ WroteNothing s t (operandAddrs s o W ++ operandAddrs s x W) ∧
      t.pc = nextPc (.cmp o x) s ∧ t.flags = subFlags a b s.flags := by
  refine ⟨((seen s (operandAddrs s o W ++ operandAddrs s x W)).withFlags (subFlags a b s.flags)).withPc
    (nextPc (.cmp o x) s), ?_, ⟨fun c _ => ?_, fun _ => rfl, rfl, rfl, rfl, rfl⟩, rfl, rfl⟩
  · subst hW ha hb
    have hindex := shiftOperands_fit (i := .cmp o x) rfl h1 (indexFits_of_operandFits h2)
    rw [exec, execCmp, runInstr_eq hindex, readOp_ok_start h1, Res.bind_ok, readOp_ok _ h2, Res.bind_ok, seen_flags,
      finish_ok]
  · rw [regRead_withPc, regRead_withFlags, regRead_seen]

/-- Settles O37: CMP writes the FLAGS word of SubFlags (`execCmp_ok`), and a difference is 0 exactly when the
operands are equal. -/
theorem cmpOnlySetsFlags : Obligations.CmpOnlySetsFlags := by
  intro o x s h1 h2 W hW a ha b hb
  obtain ⟨t, ht, hnothing, hpc, hflags⟩ := execCmp_ok hW (hW ▸ h1) (hW ▸ h2) ha hb
  obtain ⟨hzsp, hc, hv, hkept⟩ := reports_of_flags (hflags.trans (subFlags_eq a b s.flags))
  have hz : t.flag .z = decide (a = b) := hzsp.1.trans (decide_eq_decide.mpr sub_eq_zero)
  exact ⟨t, ht, hnothing, hpc, hzsp, hz, hc, hv, hkept⟩

end Sys2Proof.Machine
end

section
/-! Byte and word accesses and the stack slot (R61 to R66, R72, R79): what a read gives right after a write. The
obligations O5, O6 and O7. -/

namespace Sys2Proof.Machine

/-! ## Bytes -/

theorem readByte_of_mmio {s : State} {a : Word} (h : isMmio s a = true) :
    readByte s a = (Config.peripheralByte s.bus a, s.withBus (s.bus ++ [.read a])) := by
  rw [readByte, if_pos h]

theorem readByte_of_memory {s : State} {a : Word} (h : isMmio s a = false) :
    readByte s a = (s.mem.read a.toNat, s) := by
  rw [readByte, h, if_neg Bool.false_ne_true]

theorem writeByte_of_mmio {s : State} {a : Word} (v : Byte) (h : isMmio s a = true) :
    writeByte s a v = s.withBus (s.bus ++ [.write a v]) := by
  rw [writeByte, if_pos h]

theorem writeByte_of_memory {s : State} {a : Word} (v : Byte) (h : isMmio s a = false) :
    writeByte s a v = s.withMem (s.mem.write a.toNat v) := by
  rw [writeByte, h, if_neg Bool.false_ne_true]

/-- Settles O5: a byte no peripheral owns is written to memory and read from there (`Memory.read_write_same`,
`Memory.read_write_other`); at any other address both accesses go to the peripheral. -/
theorem byteStoreThenLoad : Obligations.ByteStoreThenLoad := by
  intro s a v hwf
  refine ⟨fun hmem => ?_, fun hmmio => ⟨readByte_of_mmio hmmio, writeByte_of_mmio v hmmio⟩⟩
  rw [writeByte_of_memory v hmem]
  refine ⟨?_, rfl, fun b hb => Memory.read_write_other v fun e => hb (BitVec.eq_of_toNat_eq e)⟩
  rw [readByte_of_memory (by rwa [isMmio_withMem]), State.withMem_mem, Memory.read_write_same v hwf]

/-! ## Words -/

/-- A read of addresses no peripheral owns changes nothing (R61). -/
theorem seen_of_memory {s : State} {l : List Word} (h : ∀ a ∈ l, isMmio s a = false) : seen s l = s := by
  have hevents : readEvents s l = [] := List.filterMap_eq_nil_iff.mpr fun a ha => by simp [h a ha]
  rw [seen, hevents, List.append_nil, State.withBus_self]

/-- The two bytes of a word stored where no peripheral is (R64, R79). -/
theorem MemStored.slot_read {s t : State} {a v : Word} (h : MemStored s t (slotBytes a v))
    (hhi : isMmio s a = false) (hlo : isMmio s (a + 1) = false) :
    t.mem.read a.toNat = hiByte v ∧ t.mem.read (a + 1).toNat = loByte v :=
  ⟨h.read (by simp [slotBytes_eq]) hhi, h.read (by simp [slotBytes_eq]) hlo⟩

/-- A word stored where no peripheral is reads back, and only memory can tell that it was read (R63, R64). -/
theorem MemStored.slot_readBack {s t : State} {a v : Word} (h : MemStored s t (slotBytes a v))
    (hp : t.platform = s.platform) (hhi : isMmio s a = false) (hlo : isMmio s (a + 1) = false) :
    wordIn t a = v ∧ seen t [a, a + 1] = t := by
  obtain ⟨hreadHi, hreadLo⟩ := h.slot_read hhi hlo
  rw [← isMmio_congr hp] at hhi hlo
  refine ⟨?_, seen_of_memory (by simpa [hhi] using hlo)⟩
  rw [wordIn_mem hhi hlo, hreadHi, hreadLo, hiByte_append_loByte]

/-- Under `addr_policy = fault` a word at 0xFFFF does not fit (R67). -/
theorem accessFits_top_fault {s : State} (h : s.platform.addrPolicy = .fault) : accessFits s 0xFFFF .w16 = false :=
  accessFits_top rfl h rfl

/-- Under `addr_policy = wrap` every access fits (R67). -/
theorem accessFits_wrap {s : State} (h : s.platform.addrPolicy = .wrap) (a : Word) : accessFits s a .w16 = true :=
  accessFits_word.mpr (.inl h)

/-- A word store that fits is two byte stores, high byte first (R64). -/
theorem writeWord_eq {s : State} {a : Word} (v : Word) (h : accessFits s a .w16 = true) :
    writeWord s a v = .ok () (writeByte (writeByte s a (hiByte v)) (a + 1) (loByte v)) := by
  rw [writeWord, secondByte_eq, if_pos h]

/-- Settles O6: a stored word is the two bytes of `slotBytes`, which a read puts together again; at 0xFFFF the access
fits under `wrap`, with its second byte at address 0, and under no other policy. -/
theorem wordAccessIsBigEndianAndChecked : Obligations.WordAccessIsBigEndianAndChecked := by
  refine ⟨fun s a v hwf hfits hhi hlo => ?_, fun s v => ⟨fun hfault => ?_, fun hwrap => ?_⟩⟩
  · obtain ⟨t, ht, hstored⟩ := writeWord_ok v hwf hfits
    obtain ⟨hword, hseen⟩ := hstored.mem.slot_readBack hstored.platform hhi hlo
    obtain ⟨hreadHi, hreadLo⟩ := hstored.mem.slot_read hhi hlo
    have hfits' : accessFits t a .w16 = true := by
      rwa [accessFits_word, hstored.platform, ← accessFits_word]
    refine ⟨t, ht, ?_, hreadHi, hreadLo, fun b hb hb' => hstored.mem.2 b ?_⟩
    · rw [readWord_ok hfits', hword, hseen]
    · simpa [slotBytes_eq] using ⟨hb.symm, hb'.symm⟩
  · have hfits := accessFits_top_fault hfault
    exact ⟨⟨_, readWord_fault hfits⟩, ⟨_, writeWord_fault v hfits⟩⟩
  · have hfits := accessFits_wrap hwrap 0xFFFF
    exact ⟨readWord_ok hfits, writeWord_eq v hfits⟩

/-! ## The stack slot -/

@[simp] theorem setSp_setSp (s : State) (v w : Word) : setSp (setSp s v) w = setSp s w := by
  simp [setSp, setP, State.withP]

@[simp] theorem setSp_self (s : State) : setSp s s.sp = s := by
  simp [setSp, setP, State.sp, getP, State.withP]

/-- Setting SP back after a store below it leaves the registers of before. -/
theorem Stored.regRead_setSp_back {s t : State} {a : Word} {l : List (Word × Byte)} (h : Stored (setSp s a) t l)
    (c : Reg) : Machine.regRead (setSp t s.sp) c = Machine.regRead s c := by
  have hback : setSp t s.sp = (s.withMem t.mem).withBus t.bus := by
    conv_lhs => rw [h.frame]
    exact congrArg (fun u : State => (u.withMem t.mem).withBus t.bus) ((setSp_setSp s a s.sp).trans (setSp_self s))
  rw [hback, regRead_withBus, regRead_withMem]

/-- Room for pushes is room for popping what was pushed (R65, R66). -/
theorem popFits_of_pushFits {s t : State} (h : pushFits s 1 = true) (hp : t.platform = s.platform)
    (hs : t.sp = s.sp - 2) : popFits t 1 = true := by
  rw [pushFits_wrap] at h
  rw [popFits_wrap, hp, hs]
  refine h.imp id fun hroom => ?_
  have := s.sp.isLt
  simp [BitVec.toNat_sub]
  omega

theorem sub_two_add_one (a : Word) : a - 2 + 1 = a - 1 := by
  apply BitVec.eq_of_toNat_eq
  simp [BitVec.toNat_sub, BitVec.toNat_add]
  omega

/-- Settles O7: the pushed slot reads back (`MemStored.slot_readBack`), and the pop sets SP to what it was. -/
theorem popGivesBackThePushedWord : Obligations.PopGivesBackThePushedWord := by
  intro s v hwf hfits hhi hlo
  rw [← sub_two_add_one] at hlo ⊢
  obtain ⟨t, ht, hstored⟩ := push16_ok v hwf hfits
  have hsp : t.sp = s.sp - 2 := by rw [hstored.sp, setSp_sp]
  have hmem : MemStored s t (slotBytes (s.sp - 2) v) := hstored.mem.congr rfl rfl
  obtain ⟨hreadHi, hreadLo⟩ := hmem.slot_read hhi hlo
  obtain ⟨hword, hseen⟩ := hmem.slot_readBack hstored.platform hhi hlo
  have hpop := pop16_ok (popFits_of_pushFits hfits hstored.platform hsp)
  rw [hsp, hword, hseen, BitVec.sub_add_cancel] at hpop
  exact ⟨t, setSp t s.sp, ht, hsp, hpop, setSp_sp _ _, rfl, fun c _ => hstored.regRead_setSp_back c, hreadHi, hreadLo⟩

end Sys2Proof.Machine
end

section
/-! The instructions that push or pop (R195, R200 to R203, R218): each runs its stack operation and then advances or
goes to the popped address. The obligations O48, O49, O50, O51, O52 and O57. -/

namespace Sys2Proof.Machine

/-! ## The bodies of the stack instructions -/

theorem exec_push (c : Reg) (s : State) : exec (.push c) s = runInstr (.push c) s fun s =>
    (push16 s (regRead s c)).bind fun _ s1 => .ok () (s1.withPc (nextPc (.push c) s)) := rfl

theorem exec_pop (c : Reg) (s : State) : exec (.pop c) s = runInstr (.pop c) s fun s =>
    (pop16 s).bind fun v s1 => .ok () ((regWrite s1 c v).withPc (nextPc (.pop c) s)) := rfl

theorem exec_pushf (s : State) : exec .pushf s = runInstr .pushf s fun s =>
    (push16 s (flagsSlot s.flags)).bind fun _ s1 => .ok () (s1.withPc (nextPc .pushf s)) := rfl

theorem exec_popf (s : State) : exec .popf s = runInstr .popf s fun s =>
    (pop16 s).bind fun v s1 => .ok () ((s1.withFlags (slotFlags v)).withPc (nextPc .popf s)) := rfl

theorem exec_pusha (s : State) : exec .pusha s = runInstr .pusha s fun s =>
    (pushRegs s savedRegs).bind fun _ s1 => .ok () (s1.withPc (nextPc .pusha s)) := rfl

theorem exec_popa (s : State) : exec .popa s = runInstr .popa s fun s =>
    (popRegs s savedRegs.reverse).bind fun _ s1 => .ok () (s1.withPc (nextPc .popa s)) := rfl

theorem exec_ret (s : State) : exec .ret s = runInstr .ret s fun s =>
    (pop16 s).bind fun v s1 => .ok () (s1.withPc v) := rfl

theorem exec_iret (s : State) : exec .iret s = runInstr .iret s leave := rfl

theorem exec_call (g : Target) (s : State) : exec (.call g) s = runInstr (.call g) s fun s =>
    (readTarget s (locate s g.toOperand)).bind fun target s1 =>
    (push16 s1 (nextPc (.call g) s)).bind fun _ s2 => .ok () (s2.withPc target) := rfl

theorem exec_int {n : Byte} (h : n.toNat < 8) (s : State) : exec (.int n) s = runInstr (.int n) s fun s =>
    enter s ⟨n.toNat, h⟩ (nextPc (.int n) s) := by
  rw [exec, execInt]
  exact congrArg (runInstr (.int n) s) (funext fun s => dif_pos h)

/-- An instruction without a memory operand has no address to compute (R91). -/
theorem indexFits_of_no_mem {i : Instr} (hi : ∀ m, .mem m ∉ i.operands) (s : State) :
    ∀ o ∈ i.operands, indexFits s o = true := by
  intro o ho
  cases o with
  | mem m => exact absurd ho (hi m)
  | reg c => rfl
  | imm8 b => rfl
  | imm16 v => rfl

/-- An instruction without a memory operand whose effects run through answers the state they leave. -/
theorem exec_of_body {i : Instr} {s t : State} {body : State → Res Unit} (hexec : exec i s = runInstr i s body)
    (hi : ∀ m, .mem m ∉ i.operands) (hbody : body s = .ok () t) : exec i s = .next t := by
  rw [hexec, runInstr_eq (indexFits_of_no_mem hi s), hbody, finish_ok]

/-! ## Pushes -/

/-- A store below a moved SP keeps every register but SP. -/
theorem Stored.regsKept_sp {s t : State} {a : Word} {l : List (Word × Byte)} (h : Stored (setSp s a) t l) :
    RegsKept s t [.sp] := fun c hc => by
  rw [h.regRead, regRead_setSp _ _ (hc .sp (by simp))]

/-- A store below a moved SP keeps the latches, the status and the OPEN parameters. -/
theorem Stored.controlKept_setSp {s t : State} {a : Word} {l : List (Word × Byte)} (h : Stored (setSp s a) t l) :
    ControlKept s t :=
  ⟨h.pending, h.status, h.platform⟩

/-- What a push leaves, once the PC is set too (R65). -/
theorem Stored.pushedWord {s t : State} {v : Word} (h : Stored (setSp s (s.sp - 2)) t (slotBytes (s.sp - 2) v))
    (pc : Word) : PushedWord s (t.withPc pc) v := by
  refine ⟨?_, fun c hc => ?_, h.mem.congr rfl rfl, h.flags, h.bus, h.controlKept_setSp⟩
  · rw [sp_withPc, h.sp, setSp_sp]
  · rw [regRead_withPc, h.regsKept_sp c hc]

/-- Settles O49: one push (`push16_ok`) of the register's value from before it. -/
theorem pushStoresTheRegister : Obligations.PushStoresTheRegister := by
  intro c s hwf hfits
  obtain ⟨t, ht, hstored⟩ := push16_ok (regRead s c) hwf hfits
  refine ⟨t.withPc (nextPc (.push c) s), exec_of_body (exec_push c s) (by simp [Instr.operands]) ?_,
    hstored.pushedWord _, rfl⟩
  rw [ht, Res.bind_ok]

/-! ## Pops -/

/-- Settles O48: one pop (`pop16_ok`), whose word becomes the PC. -/
theorem retPopsThePc : Obligations.RetPopsThePc := by
  intro s hfits
  refine exec_of_body (exec_ret s) (by simp [Instr.operands]) ?_
  rw [pop16_ok hfits, Res.bind_ok]

/-- Settles O57: the two pops of `leave_ok`; the FLAGS slot is cut to its low 12 bits. -/
theorem iretPopsFlagsThenPc : Obligations.IretPopsFlagsThenPc := by
  intro s hfits
  refine exec_of_body (exec_iret s) (by simp [Instr.operands]) ?_
  rw [leave_ok hfits, BitVec.setWidth_eq_extractLsb' (by decide)]

/-- The width of a register depends on the OPEN parameters alone (R26). -/
theorem regWidth_congr {s t : State} (h : t.platform = s.platform) (c : Reg) : regWidth t c = regWidth s c := by
  cases c <;> simp [regWidth, h]

/-- Settles O50: after the pop (`pop16_ok`) SP is 2 more, and the register write comes last, so it also decides what
SP or a byte of it holds. -/
theorem popLoadsTheRegister : Obligations.PopLoadsTheRegister := by
  intro c s hfits
  obtain ⟨u, hu⟩ : ∃ u, u = setSp (seen s [s.sp, s.sp + 1]) (s.sp + 2) := ⟨_, rfl⟩
  have husp : u.sp = s.sp + 2 := by rw [hu, setSp_sp]
  have hureg : ∀ c', overlaps c' .sp = false → regRead u c' = regRead s c' := fun c' hc' => by
    rw [hu, regRead_setSp _ _ hc', regRead_seen]
  have huwidth : regWidth u c = regWidth s c := regWidth_congr (by rw [hu]; rfl) c
  refine ⟨(regWrite u c (wordIn s s.sp)).withPc (nextPc (.pop c) s), exec_of_body (exec_pop c s)
    (by simp [Instr.operands]) ?_, ?_, fun hc => ?_, fun c' hc' => ?_, ?_, ?_, ?_, ?_, rfl, ?_, ?_⟩
  · rw [pop16_ok hfits, Res.bind_ok, hu]
  · rw [regRead_withPc, regRead_regWrite_same, huwidth]
  · rw [sp_withPc, sp_regWrite_other _ _ _ hc, husp]
  · rw [regRead_withPc, regRead_regWrite_other _ _ _ _ (hc' c (by simp)), hureg c' (hc' .sp (by simp))]
  · rintro rfl
    rw [← husp]
    exact getP_regWrite_ph u 8 _
  · rintro rfl
    rw [← husp]
    exact getP_regWrite_pl u 8 _
  all_goals simp [hu, ControlKept]

/-! ## PUSHA and POPA -/

/-- The registers PUSHA pushes hold the values of `pushaValue` (R202). -/
theorem map_regRead_savedRegs (s : State) : savedRegs.map (regRead s) = (List.range 18).map (pushaValue s) := rfl

/-- Pushing the saved registers one after another stores the eighteen slots of `pushaBytes` (R202). -/
theorem pushBytes_savedRegs (s : State) : pushBytes s.sp (savedRegs.map (regRead s)) = pushaBytes s := by
  rw [map_regRead_savedRegs, pushBytes_eq, pushaBytes, List.length_map, List.length_range]
  refine List.flatMap_congr fun k hk => ?_
  have hk' : k < 18 := List.mem_range.mp hk
  simp [List.getD, hk']

/-- No saved register shares storage with SP (R22, R202). -/
theorem savedRegs_avoid_sp : ∀ c ∈ savedRegs, overlaps c .sp = false ∧ overlaps .sp c = false := by decide

/-- Settles O51: eighteen pushes (`pushRegs_ok`), whose bytes are those of `pushaBytes`. -/
theorem pushaStoresEighteenSlots : Obligations.PushaStoresEighteenSlots := by
  intro s hwf hfits
  obtain ⟨t, ht, hstored⟩ := pushRegs_ok savedRegs (fun c hc => (savedRegs_avoid_sp c hc).1) (by decide) hwf hfits
  rw [pushBytes_savedRegs] at hstored
  refine ⟨t.withPc (nextPc .pusha s), exec_of_body (exec_pusha s) (by simp [Instr.operands]) ?_, ?_,
    fun c hc => ?_, hstored.mem.congr rfl rfl, hstored.bus, hstored.flags, rfl, hstored.controlKept_setSp⟩
  · rw [ht, Res.bind_ok]
  · rw [sp_withPc, hstored.sp, setSp_sp]
    rfl
  · rw [regRead_withPc, hstored.regsKept_sp c hc]

/-- P0 to P7 are what POPA's first eight pops load, the highest first (R203). -/
theorem savedRegs_reverse_p : ∀ n : Fin 8,
    savedRegs.reverse[7 - n.val]'(by decide +revert) = .p (n.castLE (by decide)) := by decide

/-- R0 to R9 are what its last ten pops load, the highest first (R203). -/
theorem savedRegs_reverse_r : ∀ n : Fin 10, savedRegs.reverse[17 - n.val]'(by decide +revert) = .r n := by decide

/-- A byte register that reads as the zero-extended low byte of a word holds that byte (R20). -/
theorem getR_of_regRead {s : State} {n : Fin 10} {v : Word} (h : regRead s (.r n) = (v.setWidth 8).setWidth 16) :
    getR s n = v.extractLsb' 0 8 := by
  have hlow := congrArg (BitVec.setWidth 8) h
  rw [regRead, BitVec.setWidth_setWidth_of_le _ (by decide), BitVec.setWidth_setWidth_of_le _ (by decide)] at hlow
  simpa [BitVec.setWidth_eq_extractLsb'] using hlow

/-- Settles O52: eighteen pops (`popRegs_ok`) into the saved registers in reverse order. -/
theorem popaLoadsEighteenSlots : Obligations.PopaLoadsEighteenSlots := by
  intro s hfits
  obtain ⟨t, ht, hsp, hmem, hflags, -, hcontrol, hbus, hregs, hvals⟩ := popRegs_ok savedRegs.reverse
    (fun c hc => savedRegs_avoid_sp c (List.mem_reverse.mp hc)) (by decide) hfits
  refine ⟨t.withPc (nextPc .popa s), exec_of_body (exec_popa s) (by simp [Instr.operands]) ?_, hsp,
    fun n => ?_, fun n => ?_, fun c hc => ?_, hmem, hflags, rfl, hcontrol, hbus⟩
  · rw [ht, Res.bind_ok]
  · have hval := hvals (7 - n.val) (by simp [savedRegs]; omega)
    rw [savedRegs_reverse_p n] at hval
    show getP t _ = _
    simpa [regRead, regWidth] using hval
  · have hval := hvals (17 - n.val) (by simp [savedRegs]; omega)
    rw [savedRegs_reverse_r n] at hval
    exact getR_of_regRead hval
  · rw [regRead_withPc]
    refine hregs c fun w hw => hc w ?_
    simpa using hw

end Sys2Proof.Machine
end

section
/-! AddressFault (R67, R91, R105, R247): never under `addr_policy = wrap`; under `fault` for an indexed operand out of
range and for a word at 0xFFFF. The obligations O27 and O28. -/

namespace Sys2Proof.Machine

/-! ## Under `wrap` -/

/-- Settles O27: a framed instruction keeps the status, and a fault it ends in is an AddressFault only under
`addr_policy = fault` (`FaultOk`). -/
theorem wrapPolicyRaisesNoAddressFault : Obligations.WrapPolicyRaisesNoAddressFault := by
  intro i s t hwrap h
  cases ExecEnds.of_exec h with
  | framed hends =>
    rcases hends with hframe | ⟨f, bus, ⟨-, -, hpolicy⟩, -, -, -, rfl⟩
    · exact .inl hframe.status_eq
    · refine .inr (.inr ⟨f, rfl, fun hkind => ?_⟩)
      rw [hpolicy hkind] at hwrap
      cases hwrap
  | halts => exact .inr (.inl rfl)
  | enters n _ hframe => exact .inl hframe.status_eq

/-! ## An indexed operand out of range -/

/-- An operand whose address cannot be computed is indexed, with an address outside 0..0xFFFF (R91). -/
theorem indexError_of_not_fits {s : State} {o : Operand} (h : indexFits s o = false) :
    ∃ x, indexError s o = some x ∧ (x < 0 ∨ 0xFFFF < x) := by
  cases o with
  | mem m =>
    cases m with
    | indexed c d =>
      refine ⟨_, indexError_some h, ?_⟩
      have hspace : inSpace (indexSum s c d) = false := (Bool.or_eq_false_iff.mp h).2
      by_contra hx
      exact Bool.false_ne_true (hspace.symm.trans (inSpace_iff.mpr (by omega)))
    | direct a => cases h
    | indirect c => cases h
  | reg c => cases h
  | imm8 b => cases h
  | imm16 v => cases h

/-- An address that raises AddressFault in decode is outside 0..0xFFFF (R67, R91). -/
theorem indexError_range {s : State} {o : Operand} {x : Int} (h : indexError s o = some x) : x < 0 ∨ 0xFFFF < x := by
  cases hfits : indexFits s o with
  | true =>
    rw [indexError_none hfits] at h
    cases h
  | false =>
    obtain ⟨y, hy, hrange⟩ := indexError_of_not_fits hfits
    rw [hy] at h
    cases h
    exact hrange

/-- A list with an operand out of range raises AddressFault in decode, for that operand or one before it (R248). -/
theorem indexFault_of_not_fits {s : State} {os : List Operand} {o : Operand} (off : Nat) (ho : o ∈ os)
    (h : indexFits s o = false) : ∃ e, indexFault s os off = some e ∧ (e.1 < 0 ∨ 0xFFFF < e.1) := by
  induction os generalizing off with
  | nil => cases ho
  | cons o' os ih =>
    rw [indexFault]
    cases he : indexError s o' with
    | some x => exact ⟨_, rfl, indexError_range he⟩
    | none =>
      have hne : o ≠ o' := by
        rintro rfl
        obtain ⟨x, hx, -⟩ := indexError_of_not_fits h
        rw [hx] at he
        cases he
      exact ih _ ((List.mem_cons.mp ho).resolve_left hne)

/-- The frame of an instruction raises that AddressFault before any effect (R91, R105). -/
theorem runInstr_of_not_fits {i : Instr} {s : State} {o : Operand} (body : State → Res Unit) (ho : o ∈ i.operands)
    (h : indexFits s o = false) : ∃ f x, runInstr i s body = .next (s.withStatus (.faulted f)) ∧
      f.kind = .addressFault ∧ f.pc = s.pc ∧ f.addr = some x ∧ (x < 0 ∨ 0xFFFF < x) ∧ f.bytes <+: encode i ∧
      f.vector = none := by
  obtain ⟨e, he, hrange⟩ := indexFault_of_not_fits 2 ho h
  rw [runInstr, he]
  exact ⟨_, _, rfl, rfl, rfl, rfl, hrange, List.take_prefix _ _, rfl⟩

/-! ## Jumps that are taken -/

/-- The conditional jumps run by `runJump`, each taken when its flag has its value (R186 to R193). -/
theorem exec_conditionalJump : ∀ e ∈ conditionalJumps, ∀ (g : Target) (s : State),
    exec (e.1 g) s = runJump (e.1 g) g (s.flag e.2.1 == e.2.2) s ∧ (e.1 g).operands = [g.toOperand] := by
  simp only [conditionalJumps, List.forall_mem_cons]
  exact ⟨fun _ _ => ⟨rfl, rfl⟩, fun _ _ => ⟨rfl, rfl⟩, fun _ _ => ⟨rfl, rfl⟩, fun _ _ => ⟨rfl, rfl⟩,
    fun _ _ => ⟨rfl, rfl⟩, fun _ _ => ⟨rfl, rfl⟩, fun _ _ => ⟨rfl, rfl⟩, fun _ _ => ⟨rfl, rfl⟩,
    List.forall_mem_nil _⟩

/-- The effects of a jump that is taken (R109, R185). -/
def jumpBody (g : Target) (s : State) : Res Unit :=
  (readTarget s (locate s g.toOperand)).bind fun target s1 => .ok () (s1.withPc target)

theorem runJump_true (i : Instr) (g : Target) (s : State) : runJump i g true s = runInstr i s (jumpBody g) := rfl

theorem exec_conditionalJump_taken {e : (Target → Instr) × Flag × Bool} (he : e ∈ conditionalJumps) (g : Target)
    {s : State} (h : s.flag e.2.1 = e.2.2) : exec (e.1 g) s = runInstr (e.1 g) s (jumpBody g) := by
  rw [(exec_conditionalJump e he g s).1, beq_iff_eq.mpr h, runJump_true]

/-- The outcome is that of the instruction's effects inside the frame `runInstr`. -/
def RunsFramed (i : Instr) (s : State) (o : Host.Outcome State Fault Refusal) : Prop :=
  ∃ body, o = runInstr i s body

theorem runInstr_framed {i : Instr} {s : State} {body : State → Res Unit} : RunsFramed i s (runInstr i s body) :=
  ⟨body, rfl⟩

theorem runAlu_framed {i : Instr} {o x : Operand} {s : State}
    {result : {w : Nat} → BitVec w → BitVec w → BitVec w}
    {flags : {w : Nat} → BitVec w → BitVec w → FlagWord → FlagWord} :
    RunsFramed i s (runAlu i o x s result flags) := runInstr_framed

theorem runUnary_framed {i : Instr} {o : Operand} {s : State} {result : {w : Nat} → BitVec w → BitVec w}
    {flags : {w : Nat} → BitVec w → FlagWord → FlagWord} : RunsFramed i s (runUnary i o s result flags) :=
  runInstr_framed

theorem runShift_framed {i : Instr} {o x : Operand} {s : State} {result : {w : Nat} → BitVec w → Nat → BitVec w}
    {carry : {w : Nat} → BitVec w → Nat → Bool} : RunsFramed i s (runShift i o x s result carry) :=
  runInstr_framed

theorem runBit_framed {i : Instr} {o x : Operand} {s : State} {result : {w : Nat} → BitVec w → Nat → BitVec w} :
    RunsFramed i s (runBit i o x s result) := runInstr_framed

theorem runFlag_framed {i : Instr} {x : Flag} {on : Bool} {s : State} : RunsFramed i s (runFlag i x on s) :=
  runInstr_framed

/-- Every instruction runs inside the frame `runInstr`, but for a conditional jump that is not taken. -/
theorem exec_framed {i : Instr} {s : State}
    (htaken : ∀ e ∈ conditionalJumps, ∀ g, i = e.1 g → s.flag e.2.1 = e.2.2) : RunsFramed i s (exec i s) := by
  by_cases hjump : ∃ e ∈ conditionalJumps, ∃ g, i = e.1 g
  · obtain ⟨e, he, g, rfl⟩ := hjump
    exact ⟨_, exec_conditionalJump_taken he g (htaken e he g rfl)⟩
  · unfold exec
    cases i with
    | jz g | jnz g | jc g | jnc g | js g | jns g | jo g | jno g => exact absurd hjump (by simp [conditionalJumps])
    | add d x | sub d x | mul d x | and d x | or d x | xor d x => exact runAlu_framed
    | inc d | dec d | not d => exact runUnary_framed
    | shl d x | shr d x | rol d x | ror d x => exact runShift_framed
    | bset d x | bclr d x | bflip d x => exact runBit_framed
    | sti | cli | std | cld => exact runFlag_framed
    | jmp g => exact ⟨_, runJump_true _ g s⟩
    | _ => exact runInstr_framed

/-! ## A fault among the effects -/

/-- An operation raises AddressFault for an address of which `P` holds. -/
def Res.AddressFaults {α : Type} (P : Int → Prop) (r : Res α) : Prop :=
  ∃ x bus, r = .fault .addressFault (some x) bus ∧ P x

/-- The first fault ends an operation (R248). -/
theorem Res.AddressFaults.bind {α β : Type} {P : Int → Prop} {r : Res α} (h : r.AddressFaults P)
    (k : α → State → Res β) : (r.bind k).AddressFaults P := by
  obtain ⟨x, bus, rfl, hx⟩ := h
  exact ⟨x, bus, rfl, hx⟩

/-- An AddressFault for 0x10000, the second byte of a word at 0xFFFF (R67). -/
theorem Res.AddressFaults.of_top {α : Type} {r : Res α} (h : ∃ bus, r = .fault .addressFault (some 0x10000) bus) :
    r.AddressFaults (· = 0x10000) :=
  ⟨_, h.imp fun _ hr => ⟨hr, rfl⟩⟩

/-- An instruction whose addresses can be computed and whose effects raise AddressFault: the record holds the PC, all
its bytes and the address, and nothing else changes but what peripherals saw (R241, R242). -/
theorem exec_of_addressFaults {i : Instr} {s : State} {body : State → Res Unit} {P : Int → Prop}
    (hexec : exec i s = runInstr i s body) (hindex : ∀ o ∈ i.operands, indexFits s o = true)
    (hbody : (body s).AddressFaults P) : ∃ x bus, P x ∧ exec i s = .next (s.raise
      { kind := .addressFault, pc := s.pc, bytes := encode i, addr := some x, vector := none } bus) := by
  obtain ⟨x, bus, hfault, hx⟩ := hbody
  refine ⟨x, bus, hx, ?_⟩
  rw [hexec, runInstr_eq hindex, hfault, finish]

/-! ## A word operand at 0xFFFF -/

theorem faultsAtTop_of_body {i : Instr} {s : State} {body : State → Res Unit}
    (hexec : exec i s = runInstr i s body) (hindex : ∀ o ∈ i.operands, indexFits s o = true)
    (hbody : (body s).AddressFaults (· = 0x10000)) : FaultsAtTop i s := by
  obtain ⟨x, bus, rfl, hnext⟩ := exec_of_addressFaults hexec hindex hbody
  exact ⟨bus, hnext⟩

/-- Reading two operands one after the other, one of which does not fit (R63, R248). -/
theorem readBoth_atTop {s : State} {o x : Operand} {W : Width} (ho : indexFits s o = true)
    (hx : indexFits s x = true) (h : operandFits s o W = false ∨ operandFits s x W = false)
    (k : Value W → Value W → State → Res Unit) :
    ((readOp s (locate s o) W).bind fun a s1 => (readOp s1 (locate s x) W).bind (k a)).AddressFaults
      (· = 0x10000) := by
  cases hfits : operandFits s o W with
  | false => exact Res.AddressFaults.bind (.of_top (readOp_fault ho hfits rfl)) _
  | true =>
    have hnot : operandFits s x W = false := h.resolve_left (by simp [hfits])
    rw [readOp_ok_start hfits, Res.bind_ok]
    exact Res.AddressFaults.bind (.of_top (readOp_fault hx hnot (seen_platform s _))) _

/-- MOV reads its source and then writes its destination, one of which does not fit (R63, R64). -/
theorem readThenWrite_atTop {s : State} {d x : Operand} {W : Width} (hd : indexFits s d = true)
    (hx : indexFits s x = true) (h : operandFits s d W = false ∨ operandFits s x W = false)
    (k : Value W → Unit → State → Res Unit) :
    ((readOp s (locate s x) W).bind fun v s1 => (writeOp s1 (locate s d) W v).bind (k v)).AddressFaults
      (· = 0x10000) := by
  cases hfits : operandFits s x W with
  | false => exact Res.AddressFaults.bind (.of_top (readOp_fault hx hfits rfl)) _
  | true =>
    have hnot : operandFits s d W = false := h.resolve_right (by simp [hfits])
    rw [readOp_ok_start hfits, Res.bind_ok]
    exact Res.AddressFaults.bind (.of_top (writeOp_fault _ hd hnot (seen_platform s _))) _

theorem indexFits_pair {s : State} {o x : Operand} (ho : indexFits s o = true) (hx : indexFits s x = true) :
    ∀ o' ∈ [o, x], indexFits s o' = true := by
  simp [ho, hx]

theorem exec_mov (d : Dst) (x : Operand) (s : State) : exec (.mov d x) s = runInstr (.mov d x) s fun s =>
    (readOp s (locate s x) (widthA s d.toOperand x)).bind fun v s1 =>
    (writeOp s1 (locate s d.toOperand) (widthA s d.toOperand x) v).bind fun _ s2 =>
    .ok () (s2.withPc (nextPc (.mov d x) s)) := rfl

theorem exec_cmp (o x : Operand) (s : State) : exec (.cmp o x) s = runInstr (.cmp o x) s fun s =>
    (readOp s (locate s o) (widthA s o x)).bind fun u s1 =>
    (readOp s1 (locate s x) (widthA s o x)).bind fun v s2 =>
    .ok () ((s2.withFlags (subFlags u v s2.flags)).withPc (nextPc (.cmp o x) s)) := rfl

theorem exec_div (d : Dst) (x : Operand) (s : State) : exec (.div d x) s = runInstr (.div d x) s fun s =>
    (readOp s (locate s d.toOperand) (widthA s d.toOperand x)).bind fun a s1 =>
    (readOp s1 (locate s x) (widthA s d.toOperand x)).bind fun b s2 =>
    if b = 0 then .fault .divideByZero none s2.bus
    else (writeOp (s2.withFlags (clearCVFlags (a / b) s2.flags)) (locate s d.toOperand) (widthA s d.toOperand x)
      (a / b)).bind fun _ s3 => .ok () (s3.withPc (nextPc (.div d x) s)) := rfl

/-- An instruction run by `runAlu`, one of whose operands does not fit (R93, R94). -/
theorem runAlu_faultsAtTop {i : Instr} {o x : Operand} {s : State}
    {result : {w : Nat} → BitVec w → BitVec w → BitVec w}
    {flags : {w : Nat} → BitVec w → BitVec w → FlagWord → FlagWord}
    (hexec : exec i s = runAlu i o x s result flags) (hi : i.operands = [o, x]) (ho : indexFits s o = true)
    (hx : indexFits s x = true)
    (h : operandFits s o (widthA s o x) = false ∨ operandFits s x (widthA s o x) = false) : FaultsAtTop i s := by
  rw [runAlu] at hexec
  exact faultsAtTop_of_body hexec (hi ▸ indexFits_pair ho hx) (readBoth_atTop ho hx h _)

/-- The class-A instructions that write a destination (R93), with an operand that does not fit. -/
theorem classA_faultsAtTop : ∀ mk ∈ [Instr.mov, .add, .sub, .mul, .div, .and, .or, .xor],
    ∀ (d : Dst) (x : Operand) (s : State), indexFits s d.toOperand = true → indexFits s x = true →
    (operandFits s d.toOperand (widthA s d.toOperand x) = false ∨
      operandFits s x (widthA s d.toOperand x) = false) → FaultsAtTop (mk d x) s := by
  intro mk hmk d x s hd hx h
  have hindex := indexFits_pair hd hx
  simp only [List.mem_cons, List.not_mem_nil, or_false] at hmk
  rcases hmk with rfl | rfl | rfl | rfl | rfl | rfl | rfl | rfl
  · exact faultsAtTop_of_body (exec_mov d x s) hindex (readThenWrite_atTop hd hx h _)
  · exact runAlu_faultsAtTop (by rw [exec, execAdd]) rfl hd hx h
  · exact runAlu_faultsAtTop (by rw [exec, execSub]) rfl hd hx h
  · exact runAlu_faultsAtTop (by rw [exec, execMul]) rfl hd hx h
  · exact faultsAtTop_of_body (exec_div d x s) hindex (readBoth_atTop hd hx h _)
  · exact runAlu_faultsAtTop (by rw [exec, execAnd]) rfl hd hx h
  · exact runAlu_faultsAtTop (by rw [exec, execOr]) rfl hd hx h
  · exact runAlu_faultsAtTop (by rw [exec, execXor]) rfl hd hx h

/-- A jump that is taken, whose target does not fit (R109). -/
theorem jump_faultsAtTop {i : Instr} {g : Target} {s : State} (hexec : exec i s = runInstr i s (jumpBody g))
    (hi : i.operands = [g.toOperand]) (h : indexFits s g.toOperand = true)
    (h' : operandFits s g.toOperand .w16 = false) : FaultsAtTop i s :=
  faultsAtTop_of_body hexec (by simpa [hi] using h) (Res.AddressFaults.bind (.of_top (readTarget_fault h h')) _)

/-- Settles O28: the frame of an instruction raises the AddressFault of an indexed operand (`runInstr_of_not_fits`);
a word at 0xFFFF raises it where the instruction's effects access it. -/
theorem operandOutOfRangeFaults : Obligations.OperandOutOfRangeFaults := by
  refine ⟨fun i s o htaken ho h => ?_, classA_faultsAtTop, fun o x s ho hx h => ?_, ?_,
    fun e he g s hflag h h' => ?_⟩
  · obtain ⟨body, hbody⟩ := exec_framed htaken
    rw [hbody]
    exact runInstr_of_not_fits body ho h
  · exact faultsAtTop_of_body (exec_cmp o x s) (indexFits_pair ho hx) (readBoth_atTop ho hx h _)
  · simp only [List.forall_mem_cons]
    refine ⟨fun g s h h' => jump_faultsAtTop rfl rfl h h', fun g s h h' => ?_, List.forall_mem_nil _⟩
    exact faultsAtTop_of_body (exec_call g s) (by simpa [Instr.operands] using h)
      (Res.AddressFaults.bind (.of_top (readTarget_fault h h')) _)
  · exact jump_faultsAtTop (exec_conditionalJump_taken he g hflag) (exec_conditionalJump e he g s).2 h h'

end Sys2Proof.Machine
end

section
/-! A push or a pop without room under `addr_policy = fault` (R65, R66, R247): the first slot out of range raises
AddressFault. The obligation O29. -/

namespace Sys2Proof.Machine

theorem faultsBelow_of_body {i : Instr} {s : State} {body : State → Res Unit}
    (hexec : exec i s = runInstr i s body) (hindex : ∀ o ∈ i.operands, indexFits s o = true)
    (hbody : (body s).AddressFaults (· < 0)) : FaultsBelow i s := by
  obtain ⟨x, bus, hx, hnext⟩ := exec_of_addressFaults hexec hindex hbody
  exact ⟨_, x, bus, hnext, rfl, rfl, rfl, hx, rfl, rfl⟩

theorem faultsAbove_of_body {i : Instr} {s : State} {body : State → Res Unit}
    (hexec : exec i s = runInstr i s body) (hindex : ∀ o ∈ i.operands, indexFits s o = true)
    (hbody : (body s).AddressFaults (0xFFFF < ·)) : FaultsAbove i s := by
  obtain ⟨x, bus, hx, hnext⟩ := exec_of_addressFaults hexec hindex hbody
  exact ⟨_, x, bus, hnext, rfl, rfl, rfl, hx, rfl, rfl⟩

/-! ## Pushes -/

/-- The slot of a push that has room is inside the address space (R65, R67). -/
theorem accessFits_slot {s : State} (h : pushFits s 1 = true) : accessFits s (s.sp - 2) .w16 = true := by
  rw [accessFits_word]
  refine (pushFits_wrap.mp h).imp id fun hroom htop => ?_
  have hlt := s.sp.isLt
  have := congrArg BitVec.toNat htop
  simp [BitVec.toNat_sub] at this
  omega

/-- A push that has room lowers SP by 2, whatever memory holds (R65). -/
theorem push16_sp {s : State} (v : Word) (h : pushFits s 1 = true) :
    ∃ t, push16 s v = .ok () t ∧ t.sp = s.sp - 2 ∧ t.platform = s.platform := by
  have hcheck : addrCheck s.platform.addrPolicy ((s.sp.toNat : Int) - 2) = some (s.sp - 2) := by
    rw [addrCheck_some ((pushFits_wrap.mp h).imp id fun _ => by have := s.sp.isLt; omega), ofInt_sub_two]
  have hfits : accessFits (setSp s (s.sp - 2)) (s.sp - 2) .w16 = true := accessFits_slot h
  have hframe : Frame [] [] (setSp s (s.sp - 2)) _ :=
    (frame_writeByte [] [] _ (s.sp - 2) (hiByte v)).trans (frame_writeByte [] [] _ (s.sp - 2 + 1) (loByte v))
  refine ⟨_, ?_, (hframe.regs .sp (by simp)).trans (setSp_sp _ _), hframe.platform_eq⟩
  rw [push16, hcheck]
  exact writeWord_eq v hfits

/-- A push without room (R65, R67). -/
theorem push16_below {s : State} (v : Word) (h : pushFits s 1 = false) : (push16 s v).AddressFaults (· < 0) := by
  have hroom : s.sp.toNat < 2 := by
    rw [pushFits, Bool.or_eq_false_iff, decide_eq_false_iff_not] at h
    omega
  exact ⟨_, _, push16_fault v h, by omega⟩

/-- Where the first of several pushes has room and all together have not, the rest have none (R65). -/
theorem pushFits_rest_false {s t : State} {n : Nat} (h : pushFits s (n + 1) = false) (hfirst : pushFits s 1 = true)
    (hp : t.platform = s.platform) (hs : t.sp = s.sp - 2) : pushFits t n = false := by
  rw [← Bool.not_eq_true, pushFits_wrap, not_or] at h ⊢
  rw [pushFits_wrap] at hfirst
  obtain ⟨hpolicy, hnone⟩ := h
  have hroom := hfirst.resolve_left hpolicy
  rw [hp, hs]
  refine ⟨hpolicy, fun hn => hnone ?_⟩
  have hlt := s.sp.isLt
  simp [BitVec.toNat_sub] at hn
  omega

theorem pushFits_zero (s : State) : pushFits s 0 = true := pushFits_wrap.mpr (.inr (Nat.zero_le _))

/-- Pushing more registers than there is room for (R202). -/
theorem pushRegs_below {s : State} (cs : List Reg) (h : pushFits s cs.length = false) :
    (pushRegs s cs).AddressFaults (· < 0) := by
  induction cs generalizing s with
  | nil =>
    rw [List.length_nil, pushFits_zero] at h
    cases h
  | cons c cs ih =>
    cases hfirst : pushFits s 1 with
    | false => exact (push16_below _ hfirst).bind _
    | true =>
      obtain ⟨t, ht, hsp, hp⟩ := push16_sp (regRead s c) hfirst
      rw [pushRegs, ht, Res.bind_ok]
      exact ih (pushFits_rest_false h hfirst hp hsp)

/-- Taking an interrupt without room for its two slots (R255). -/
theorem enter_below {s : State} (n : Fin 8) (ret : Word) (h : pushFits s 2 = false) :
    (enter s n ret).AddressFaults (· < 0) := by
  cases hfirst : pushFits s 1 with
  | false => exact (push16_below _ hfirst).bind _
  | true =>
    obtain ⟨t, ht, hsp, hp⟩ := push16_sp ret hfirst
    rw [enter, ht, Res.bind_ok]
    exact (push16_below _ (pushFits_rest_false h hfirst hp hsp)).bind _

/-! ## Pops -/

/-- A pop without room (R66, R67). -/
theorem pop16_above {s : State} (h : popFits s 1 = false) : (pop16 s).AddressFaults (0xFFFF < ·) :=
  pop16_fault h

/-- Where the first of several pops has room and all together have not, the rest have none (R66). -/
theorem popFits_rest_false {s t : State} {n : Nat} (h : popFits s (n + 1) = false) (hfirst : popFits s 1 = true)
    (hp : t.platform = s.platform) (hs : t.sp = s.sp + 2) : popFits t n = false := by
  rw [← Bool.not_eq_true, popFits_wrap, not_or] at h ⊢
  rw [popFits_wrap] at hfirst
  obtain ⟨hpolicy, hnone⟩ := h
  have hroom := hfirst.resolve_left hpolicy
  rw [hp, hs]
  refine ⟨hpolicy, fun hn => hnone ?_⟩
  simp [BitVec.toNat_add] at hn
  omega

theorem popFits_zero (s : State) : popFits s 0 = true :=
  popFits_wrap.mpr (.inr (by have := s.sp.isLt; omega))

/-- Popping more registers than there is room for; none of them is SP (R203). -/
theorem popRegs_above {s : State} (cs : List Reg) (hc : ∀ c ∈ cs, overlaps .sp c = false)
    (h : popFits s cs.length = false) : (popRegs s cs).AddressFaults (0xFFFF < ·) := by
  induction cs generalizing s with
  | nil =>
    rw [List.length_nil, popFits_zero] at h
    cases h
  | cons c cs ih =>
    cases hfirst : popFits s 1 with
    | false => exact (pop16_above hfirst).bind _
    | true =>
      rw [popRegs, pop16_ok hfirst, Res.bind_ok]
      refine ih (fun c' hc' => hc c' (List.mem_cons_of_mem c hc')) (popFits_rest_false h hfirst ?_ ?_)
      · rw [regWrite_platform, setSp_platform, seen_platform]
      · rw [sp_regWrite_other _ _ _ (hc c List.mem_cons_self), setSp_sp]

/-- Leaving an interrupt without its two slots (R218). -/
theorem leave_above {s : State} (h : popFits s 2 = false) : (leave s).AddressFaults (0xFFFF < ·) := by
  cases hfirst : popFits s 1 with
  | false => exact (pop16_above hfirst).bind _
  | true =>
    rw [leave, pop16_ok hfirst, Res.bind_ok]
    refine Res.AddressFaults.bind (pop16_above (popFits_rest_false h hfirst ?_ ?_)) _
    · rw [State.withFlags_platform, setSp_platform, seen_platform]
    · rw [sp_withFlags, setSp_sp]

/-! ## Every stack instruction -/

/-- CALL reads its target, which fits, before it pushes (R194). -/
theorem call_faultsBelow {g : Target} {s : State} (hg : operandFits s g.toOperand .w16 = true)
    (h : pushFits s 1 = false) : FaultsBelow (.call g) s := by
  refine faultsBelow_of_body (exec_call g s) (by simpa [Instr.operands] using indexFits_of_operandFits hg) ?_
  rw [readTarget_ok hg, Res.bind_ok]
  exact (push16_below (s := seen s _) _ h).bind _

/-- INT enters its vector, whose pushes have no room (R217, R255). -/
theorem int_faultsBelow (n : Fin 8) {s : State} (h : pushFits s 2 = false) :
    FaultsBelow (.int (BitVec.ofNat 8 n.val)) s := by
  have hn : (BitVec.ofNat 8 n.val).toNat < 8 := by
    rw [BitVec.toNat_ofNat]
    omega
  exact faultsBelow_of_body (exec_int hn s) (indexFits_of_no_mem (by simp [Instr.operands]) s) (enter_below _ _ h)

/-- Settles O29: each instruction's pushes or pops raise the fault (`pushRegs_below`, `popRegs_above` and the lemmas
before them), and its record is that of `exec_of_addressFaults`. -/
theorem stackOutOfRangeFaults : Obligations.StackOutOfRangeFaults := by
  intro s
  have hplain : ∀ {i : Instr}, (∀ m, .mem m ∉ i.operands) → ∀ o ∈ i.operands, indexFits s o = true :=
    fun hi => indexFits_of_no_mem hi s
  refine ⟨fun c h => ?_, fun h => ?_, fun h => ?_, fun g hg h => call_faultsBelow hg h,
    fun n h => int_faultsBelow n h, fun c h => ?_, fun h => ?_, fun h => ?_, fun h => ?_, fun h => ?_⟩
  · exact faultsBelow_of_body (exec_push c s) (hplain (by simp [Instr.operands])) ((push16_below _ h).bind _)
  · exact faultsBelow_of_body (exec_pushf s) (hplain (by simp [Instr.operands])) ((push16_below _ h).bind _)
  · exact faultsBelow_of_body (exec_pusha s) (hplain (by simp [Instr.operands])) ((pushRegs_below savedRegs h).bind _)
  · exact faultsAbove_of_body (exec_pop c s) (hplain (by simp [Instr.operands])) ((pop16_above h).bind _)
  · exact faultsAbove_of_body (exec_popf s) (hplain (by simp [Instr.operands])) ((pop16_above h).bind _)
  · have havoid : ∀ c ∈ savedRegs.reverse, overlaps .sp c = false :=
      fun c hc => (savedRegs_avoid_sp c (List.mem_reverse.mp hc)).2
    exact faultsAbove_of_body (exec_popa s) (hplain (by simp [Instr.operands])) ((popRegs_above _ havoid h).bind _)
  · exact faultsAbove_of_body (exec_ret s) (hplain (by simp [Instr.operands])) ((pop16_above h).bind _)
  · exact faultsAbove_of_body (exec_iret s) (hplain (by simp [Instr.operands])) (leave_above h)

end Sys2Proof.Machine
end

section
/-! Encoding and decoding are inverse (R80 to R105): the shape of a mnemonic makes an instruction from its operands, the
decoder reads those operands back from the bytes that encode them, and what it accepts is such bytes. The obligations
O11, O12 and O15. -/

namespace Sys2Proof

/-! ## What a shape makes -/

/-- The instructions that the operand count and kinds of a mnemonic (R81, R96) allow, with the operands each is made
from. -/
inductive Shape.Makes : Shape → List Operand → Instr → Prop where
  | plain (i : Instr) : Makes (.plain i) [] i
  | dst (mk : Dst → Instr) (d : Dst) : Makes (.dst mk) [d.toOperand] (mk d)
  | target (mk : Target → Instr) (g : Target) : Makes (.target mk) [g.toOperand] (mk g)
  | reg (mk : Reg → Instr) (c : Reg) : Makes (.reg mk) [.reg c] (mk c)
  | vector (mk : Byte → Instr) (n : Byte) (hn : n.toNat ≤ 7) : Makes (.vector mk) [.imm8 n] (mk n)
  | dstSrc (mk : Dst → Operand → Instr) (d : Dst) (x : Operand) : Makes (.dstSrc mk) [d.toOperand, x] (mk d x)
  | srcSrc (mk : Operand → Operand → Instr) (o x : Operand) : Makes (.srcSrc mk) [o, x] (mk o x)

/-- Every well-formed instruction is made by its mnemonic from its operands. -/
theorem Instr.makes {i : Instr} (h : i.wf = true) : i.mnemonic.shape.Makes i.operands i := by
  cases i with
  | hlt | nop | ret | iret | pusha | popa | pushf | popf | sti | cli | std | cld => exact .plain _
  | inc d | dec d | not d => exact .dst _ d
  | jmp g | jz g | jnz g | jc g | jnc g | js g | jns g | jo g | jno g | call g => exact .target _ g
  | push c | pop c => exact .reg _ c
  | int n => exact .vector _ n (of_decide_eq_true h)
  | cmp o x | btst o x => exact .srcSrc _ o x
  | mov d x | add d x | sub d x | mul d x | div d x | and d x | or d x | xor d x | shl d x | shr d x | rol d x
  | ror d x | bset d x | bclr d x | bflip d x => exact .dstSrc _ d x

/-- What a mnemonic makes is a well-formed instruction of that mnemonic with those operands. -/
theorem Shape.Makes.inv {m : Mnemonic} {os : List Operand} {i : Instr} (h : m.shape.Makes os i) :
    i.wf = true ∧ i.mnemonic = m ∧ i.operands = os := by
  cases m with
  | int =>
    cases h with
    | vector _ n hn => exact ⟨decide_eq_true hn, rfl, rfl⟩
  | _ =>
    cases h
    exact ⟨rfl, rfl, rfl⟩

/-! ## Decoding by the shape -/

/-- What decode does once the opcode's operand count and kinds are known (R105). -/
def Shape.decodeAs (b : Nat → Byte) : Shape → Decoded
  | .plain i => .ok i 1
  | .dst mk => decodeOne b Kind.isDst fun o => formOr o.toDst? mk
  | .target mk => decodeOne b Kind.isTarget fun o => formOr o.toTarget? mk
  | .reg mk => decodeOne b Kind.isReg fun o => formOr o.toReg? mk
  | .vector mk => decodeOne b Kind.isVector fun o => vectorOr o.toImm8? mk
  | .dstSrc mk => decodeTwo b Kind.isDst Kind.isSrc fun o1 o2 => formOr o1.toDst? fun d => mk d o2
  | .srcSrc mk => decodeTwo b Kind.isSrc Kind.isSrc fun o1 o2 => .ok (mk o1 o2)

theorem decode_of_mnemonic {b : Nat → Byte} {m : Mnemonic} (hop : mnemonicOf (b 0) = some m) :
    decode b = m.shape.decodeAs b := by
  simp only [decode, hop]
  cases m.shape <;> rfl

theorem decode_of_no_mnemonic {b : Nat → Byte} (hop : mnemonicOf (b 0) = none) :
    decode b = .bad .unknownOpcode 1 [] := by
  rw [decode, hop]

/-! ## Operands of a kind -/

@[simp] theorem Dst.toOperand_toDst? (d : Dst) : d.toOperand.toDst? = some d := by
  cases d <;> rfl

@[simp] theorem Target.toOperand_toTarget? (g : Target) : g.toOperand.toTarget? = some g := by
  cases g <;> rfl

theorem Dst.isDst_kind (d : Dst) : d.toOperand.kind.isDst = true := by
  cases d with
  | reg c => rfl
  | mem m => cases m <;> rfl

theorem Target.isTarget_kind (g : Target) : g.toOperand.kind.isTarget = true := by
  cases g with
  | reg c => rfl
  | imm16 v => rfl
  | mem m => cases m <;> rfl

theorem Operand.toDst?_eq_some {o : Operand} {d : Dst} (h : o.toDst? = some d) : o = d.toOperand := by
  cases o <;> cases h <;> rfl

theorem Operand.toTarget?_eq_some {o : Operand} {g : Target} (h : o.toTarget? = some g) : o = g.toOperand := by
  cases o <;> cases h <;> rfl

theorem Operand.toReg?_eq_some {o : Operand} {c : Reg} (h : o.toReg? = some c) : o = .reg c := by
  cases o <;> cases h
  rfl

theorem Operand.toImm8?_eq_some {o : Operand} {n : Byte} (h : o.toImm8? = some n) : o = .imm8 n := by
  cases o <;> cases h
  rfl

theorem formOr_eq_ok {α : Type} {x : Option α} {mk : α → Instr} {i : Instr} (h : formOr x mk = .ok i) :
    ∃ a, x = some a ∧ i = mk a := by
  cases x with
  | none => cases h
  | some a =>
    cases h
    exact ⟨a, rfl, rfl⟩

theorem vectorOr_of_le {n : Byte} {mk : Byte → Instr} (hn : n.toNat ≤ 7) : vectorOr (some n) mk = .ok (mk n) :=
  if_pos hn

theorem vectorOr_eq_ok {x : Option Byte} {mk : Byte → Instr} {i : Instr} (h : vectorOr x mk = .ok i) :
    ∃ n, x = some n ∧ n.toNat ≤ 7 ∧ i = mk n := by
  cases x with
  | none => cases h
  | some n =>
    rw [vectorOr] at h
    split at h
    · rename_i hn
      cases h
      exact ⟨n, rfl, hn, rfl⟩
    · cases h

/-! ## Decoding what was encoded -/

theorem encode_of_one {i : Instr} {o : Operand} (h : i.operands = [o]) :
    encode i = opcodeOf i.mnemonic :: modeByte [o] :: o.field := by
  simp [encode, h]

theorem encode_of_two {i : Instr} {o x : Operand} (h : i.operands = [o, x]) :
    encode i = opcodeOf i.mnemonic :: modeByte [o, x] :: (o.field ++ x.field) := by
  simp [encode, h]

theorem length_of_one {i : Instr} {o : Operand} (h : i.operands = [o]) : i.length = 2 + o.fieldLen := by
  simp [Instr.length, h]

theorem length_of_two {i : Instr} {o x : Operand} (h : i.operands = [o, x]) :
    i.length = 2 + o.fieldLen + x.fieldLen := by
  simp [Instr.length, h, Nat.add_assoc]

/-- An encoding begins with the opcode of its mnemonic (R80). -/
theorem encode_getD_zero (i : Instr) : (encode i).getD 0 0 = opcodeOf i.mnemonic := by
  unfold encode
  cases i.operands <;> rfl

theorem Instr.length_pos (i : Instr) : 0 < i.length := by
  unfold Instr.length
  cases i.operands with
  | nil => exact Nat.one_pos
  | cons o os => exact Nat.add_pos_left Nat.two_pos _

/-- The bytes `b` begin with the encoding of `i`. -/
def Encodes (b : Nat → Byte) (i : Instr) : Prop :=
  ∀ k, k < i.length → b k = (encode i).getD k 0

theorem Encodes.opcode {b : Nat → Byte} {i : Instr} (h : Encodes b i) : b 0 = opcodeOf i.mnemonic :=
  (h 0 i.length_pos).trans (encode_getD_zero i)

/-- The mode byte and the field of the one operand. -/
theorem Encodes.one {b : Nat → Byte} {i : Instr} {o : Operand} (h : Encodes b i) (ho : i.operands = [o]) :
    b 1 = modeByte [o] ∧ ∀ k, k < o.fieldLen → b (2 + k) = o.field.getD k 0 := by
  rw [Encodes, encode_of_one ho, length_of_one ho] at h
  refine ⟨h 1 (by omega), fun k hk => ?_⟩
  rw [h (2 + k) (by omega), Nat.add_comm 2 k, List.getD_cons_succ, List.getD_cons_succ]

/-- The mode byte and the fields of the two operands. -/
theorem Encodes.two {b : Nat → Byte} {i : Instr} {o x : Operand} (h : Encodes b i) (ho : i.operands = [o, x]) :
    b 1 = modeByte [o, x] ∧ (∀ k, k < o.fieldLen → b (2 + k) = o.field.getD k 0) ∧
      ∀ k, k < x.fieldLen → b (2 + o.fieldLen + k) = x.field.getD k 0 := by
  rw [Encodes, encode_of_two ho, length_of_two ho] at h
  have hfields : ∀ k, k < o.fieldLen + x.fieldLen → b (2 + k) = (o.field ++ x.field).getD k 0 := fun k hk => by
    rw [h (2 + k) (by omega), Nat.add_comm 2 k, List.getD_cons_succ, List.getD_cons_succ]
  refine ⟨h 1 (by omega), fun k hk => ?_, fun k hk => ?_⟩
  · rw [hfields k (by omega), List.getD_append _ _ _ _ (by rwa [Operand.field_length])]
  · rw [Nat.add_assoc, hfields _ (by omega), List.getD_append_right _ _ _ _ (by rw [Operand.field_length]; omega),
      Operand.field_length, Nat.add_sub_cancel_left]

/-- Decoding bytes that begin with the encoding of a well-formed instruction gives it back: its mnemonic's shape makes
it from its operands, and the mode byte and the fields read back as those operands. -/
theorem decode_of_encodes {b : Nat → Byte} {i : Instr} (hwf : i.wf = true) (h : Encodes b i) :
    decode b = .ok i i.length := by
  have hmakes := Instr.makes hwf
  rw [decode_of_mnemonic (h.opcode ▸ mnemonicOf_opcodeOf i.mnemonic)]
  generalize i.mnemonic.shape = shape at hmakes ⊢
  generalize hops : i.operands = os at hmakes
  cases hmakes with
  | plain i => simp [Shape.decodeAs, Instr.length, hops]
  | dst mk d =>
    obtain ⟨hmode, hfield⟩ := h.one hops
    simp [Shape.decodeAs, decodeOne_eq hmode d.isDst_kind hfield, formOr, length_of_one hops]
  | target mk g =>
    obtain ⟨hmode, hfield⟩ := h.one hops
    simp [Shape.decodeAs, decodeOne_eq hmode g.isTarget_kind hfield, formOr, length_of_one hops]
  | reg mk c =>
    obtain ⟨hmode, hfield⟩ := h.one hops
    simp [Shape.decodeAs, decodeOne_eq (legal := Kind.isReg) hmode rfl hfield, formOr, Operand.toReg?, length_of_one hops]
  | vector mk n hn =>
    obtain ⟨hmode, hfield⟩ := h.one hops
    simp [Shape.decodeAs, decodeOne_eq (legal := Kind.isVector) hmode rfl hfield, Operand.toImm8?, vectorOr_of_le hn,
      length_of_one hops]
  | dstSrc mk d x =>
    obtain ⟨hmode, hfield, hfield'⟩ := h.two hops
    simp [Shape.decodeAs, decodeTwo_eq (legal2 := Kind.isSrc) hmode d.isDst_kind rfl hfield hfield', formOr,
      length_of_two hops]
  | srcSrc mk o x =>
    obtain ⟨hmode, hfield, hfield'⟩ := h.two hops
    simp [Shape.decodeAs, decodeTwo_eq (legal1 := Kind.isSrc) (legal2 := Kind.isSrc) hmode rfl rfl hfield hfield',
      length_of_two hops]

/-- Settles O11: the bytes of the list begin with the encoding, whatever follows it (`decode_of_encodes`). -/
theorem decodeOfEncodeIsTheInstruction : Obligations.DecodeOfEncodeIsTheInstruction := by
  intro i rest hwf
  refine decode_of_encodes hwf fun k hk => ?_
  rw [bytesOf, List.getD_append _ _ _ _ (by rwa [encode_length])]

/-! ## Encoding what was decoded -/

theorem map_range_add {α : Type} (b : Nat → α) (m n : Nat) :
    (List.range (m + n)).map b = (List.range m).map b ++ (List.range n).map fun j => b (m + j) := by
  rw [List.range_add, List.map_append, List.map_map]
  rfl

/-- An instruction its mnemonic makes from one operand, whose opcode, mode byte and field are the bytes `b`. -/
theorem encode_of_fields_one {b : Nat → Byte} {m : Mnemonic} {o : Operand} {i : Instr}
    (hop : mnemonicOf (b 0) = some m) (hmakes : m.shape.Makes [o] i) (hmode : b 1 = modeByte [o])
    (hfield : o.field = (List.range o.fieldLen).map fun j => b (2 + j)) :
    i.wf = true ∧ 2 + o.fieldLen = i.length ∧ encode i = (List.range (2 + o.fieldLen)).map b := by
  obtain ⟨hwf, rfl, hops⟩ := hmakes.inv
  refine ⟨hwf, (length_of_one hops).symm, ?_⟩
  rw [encode_of_one hops, opcodeOf_of_mnemonicOf hop, ← hmode, hfield, map_range_add]
  rfl

/-- An instruction its mnemonic makes from two operands, whose opcode, mode byte and fields are the bytes `b`. -/
theorem encode_of_fields_two {b : Nat → Byte} {m : Mnemonic} {o x : Operand} {i : Instr}
    (hop : mnemonicOf (b 0) = some m) (hmakes : m.shape.Makes [o, x] i) (hmode : b 1 = modeByte [o, x])
    (hfield : o.field = (List.range o.fieldLen).map fun j => b (2 + j))
    (hfield' : x.field = (List.range x.fieldLen).map fun j => b (2 + o.fieldLen + j)) :
    i.wf = true ∧ 2 + o.fieldLen + x.fieldLen = i.length ∧
      encode i = (List.range (2 + o.fieldLen + x.fieldLen)).map b := by
  obtain ⟨hwf, rfl, hops⟩ := hmakes.inv
  refine ⟨hwf, (length_of_two hops).symm, ?_⟩
  rw [encode_of_two hops, opcodeOf_of_mnemonicOf hop, ← hmode, map_range_add, map_range_add, ← hfield, ← hfield']
  rfl

/-- What decodes is well-formed, has the length of R99, and is encoded by the bytes it was decoded from. -/
theorem decode_inv {b : Nat → Byte} {i : Instr} {len : Nat} (h : decode b = .ok i len) :
    i.wf = true ∧ len = i.length ∧ encode i = (List.range len).map b := by
  cases hop : mnemonicOf (b 0) with
  | none =>
    rw [decode_of_no_mnemonic hop] at h
    cases h
  | some m =>
    rw [decode_of_mnemonic hop] at h
    cases hshape : m.shape with
    | plain i' =>
      rw [hshape, Shape.decodeAs] at h
      cases h
      obtain ⟨hwf, rfl, hops⟩ := Shape.Makes.inv (hshape ▸ Shape.Makes.plain i)
      exact ⟨hwf, by simp [Instr.length, hops], by simp [encode, hops, opcodeOf_of_mnemonicOf hop]⟩
    | dst mk =>
      rw [hshape, Shape.decodeAs] at h
      obtain ⟨o, ho, -, rfl, hmode, hfield⟩ := decodeOne_inv h
      obtain ⟨d, hd, rfl⟩ := formOr_eq_ok ho
      obtain rfl := Operand.toDst?_eq_some hd
      exact encode_of_fields_one hop (hshape ▸ .dst mk d) hmode hfield
    | target mk =>
      rw [hshape, Shape.decodeAs] at h
      obtain ⟨o, ho, -, rfl, hmode, hfield⟩ := decodeOne_inv h
      obtain ⟨g, hg, rfl⟩ := formOr_eq_ok ho
      obtain rfl := Operand.toTarget?_eq_some hg
      exact encode_of_fields_one hop (hshape ▸ .target mk g) hmode hfield
    | reg mk =>
      rw [hshape, Shape.decodeAs] at h
      obtain ⟨o, ho, -, rfl, hmode, hfield⟩ := decodeOne_inv h
      obtain ⟨c, hc, rfl⟩ := formOr_eq_ok ho
      obtain rfl := Operand.toReg?_eq_some hc
      exact encode_of_fields_one hop (hshape ▸ .reg mk c) hmode hfield
    | vector mk =>
      rw [hshape, Shape.decodeAs] at h
      obtain ⟨o, ho, -, rfl, hmode, hfield⟩ := decodeOne_inv h
      obtain ⟨n, hn, hle, rfl⟩ := vectorOr_eq_ok ho
      obtain rfl := Operand.toImm8?_eq_some hn
      exact encode_of_fields_one hop (hshape ▸ .vector mk n hle) hmode hfield
    | dstSrc mk =>
      rw [hshape, Shape.decodeAs] at h
      obtain ⟨o, x, ho, -, -, rfl, hmode, hfield, hfield'⟩ := decodeTwo_inv h
      obtain ⟨d, hd, rfl⟩ := formOr_eq_ok ho
      obtain rfl := Operand.toDst?_eq_some hd
      exact encode_of_fields_two hop (hshape ▸ .dstSrc mk d x) hmode hfield hfield'
    | srcSrc mk =>
      rw [hshape, Shape.decodeAs] at h
      obtain ⟨o, x, ho, -, -, rfl, hmode, hfield, hfield'⟩ := decodeTwo_inv h
      cases ho
      exact encode_of_fields_two hop (hshape ▸ .srcSrc mk o x) hmode hfield hfield'

/-- Settles O12: what decodes is made by its mnemonic from the operands read (`decode_inv`), and no instruction is
longer than six bytes. -/
theorem encodeOfDecodeIsTheFetchedBytes : Obligations.EncodeOfDecodeIsTheFetchedBytes := by
  intro b i len h
  obtain ⟨hwf, rfl, hencode⟩ := decode_inv h
  exact ⟨hwf, rfl, i.length_pos, i.length_le, hencode⟩

/-! ## Words of the spec -/

/-- Settles O15: each word is decoded by evaluation. -/
theorem wordsOfTheSpecDecode : Obligations.WordsOfTheSpecDecode :=
  ⟨rfl, rfl, rfl, rfl, rfl, rfl⟩

end Sys2Proof
end

section
/-! What the first two bytes already refuse: a byte outside the opcode map (R102, R103) and a mode byte with an unused
field or bit that is not zero (R84, R85). The obligations O13 and O14. -/

namespace Sys2Proof

/-! ## Unknown opcodes -/

/-- The opcode bytes of R102, as three runs without gaps. -/
theorem opcodeMap_bytes : opcodeMap.map (fun row => row.1.toNat) =
    List.range' 0x00 12 ++ List.range' 0x10 20 ++ List.range' 0x30 13 := by decide

theorem mnemonicOf_eq_none_iff_notMem {op : Byte} :
    mnemonicOf op = none ↔ op.toNat ∉ opcodeMap.map fun row => row.1.toNat := by
  rw [mnemonicOf, List.lookup_eq_none_iff, List.mem_map, not_exists]
  refine forall_congr' fun row => ?_
  rw [not_and, bne_iff_ne, BitVec.toNat_inj]
  exact imp_congr_right fun _ => ne_comm

/-- The bytes without a mnemonic are the illegal bytes of R103. -/
theorem mnemonicOf_eq_none {op : Byte} : mnemonicOf op = none ↔
    (0x0C ≤ op.toNat ∧ op.toNat ≤ 0x0F) ∨ (0x24 ≤ op.toNat ∧ op.toNat ≤ 0x2F) ∨ 0x3D ≤ op.toNat := by
  rw [mnemonicOf_eq_none_iff_notMem, opcodeMap_bytes]
  simp only [List.mem_append, List.mem_range'_1]
  omega

/-- A decode fault of a one-operand instruction comes after the mode byte (R105). -/
theorem decodeOne_bad_len {b : Nat → Byte} {legal : Kind → Bool} {mk : Operand → Except DecodeSub Instr}
    {sub : DecodeSub} {len : Nat} {before : List Operand} (h : decodeOne b legal mk = .bad sub len before) :
    2 ≤ len := by
  unfold decodeOne at h
  split at h
  · cases h
    exact le_rfl
  · split at h
    · cases h
      exact le_rfl
    · split at h
      · split at h
        · cases h
          omega
        · split at h
          · cases h
          · cases h
            omega
      · cases h
        exact le_rfl

/-- A decode fault of a two-operand instruction comes after the mode byte (R105). -/
theorem decodeTwo_bad_len {b : Nat → Byte} {legal1 legal2 : Kind → Bool}
    {mk : Operand → Operand → Except DecodeSub Instr} {sub : DecodeSub} {len : Nat} {before : List Operand}
    (h : decodeTwo b legal1 legal2 mk = .bad sub len before) : 2 ≤ len := by
  unfold decodeTwo at h
  split at h
  · cases h
    exact le_rfl
  · split at h
    · split at h
      · split at h
        · cases h
          omega
        · split at h
          · cases h
            omega
          · split at h
            · cases h
            · cases h
              omega
      · cases h
        exact le_rfl
    · cases h
      exact le_rfl

/-- An opcode of the map is not refused before its mode byte. -/
theorem decode_bad_len {b : Nat → Byte} {m : Mnemonic} (hop : mnemonicOf (b 0) = some m) {sub : DecodeSub} {len : Nat}
    {before : List Operand} (h : decode b = .bad sub len before) : 2 ≤ len := by
  rw [decode_of_mnemonic hop] at h
  cases hshape : m.shape with
  | plain i =>
    rw [hshape, Shape.decodeAs] at h
    cases h
  | dst mk | target mk | reg mk | vector mk =>
    rw [hshape, Shape.decodeAs] at h
    exact decodeOne_bad_len h
  | dstSrc mk | srcSrc mk =>
    rw [hshape, Shape.decodeAs] at h
    exact decodeTwo_bad_len h

/-- Settles O13: decode stops after one byte exactly where the byte has no mnemonic, which are the bytes of R103. -/
theorem unknownOpcodesAreTheListedBytes : Obligations.UnknownOpcodesAreTheListedBytes := by
  intro b
  rw [← mnemonicOf_eq_none]
  constructor
  · intro h
    cases hop : mnemonicOf (b 0) with
    | none => rfl
    | some m => exact absurd (decode_bad_len hop h) (by decide)
  · exact decode_of_no_mnemonic

/-! ## Mode bytes -/

/-- A form bit without memory selects no kind (R84). -/
theorem kindOf_form {m : BitVec 2} (h : m ≠ 3) : kindOf m true = none := by
  revert m
  decide

theorem decodeOne_badMode {b : Nat → Byte} (legal : Kind → Bool) (mk : Operand → Except DecodeSub Instr)
    (h : modeM3 (b 1) ≠ 0 ∨ (modeX1 (b 1) = true ∧ modeM1 (b 1) ≠ 3) ∨ modeM2 (b 1) ≠ 0 ∨ modeX2 (b 1) = true) :
    decodeOne b legal mk = .bad .badModeByte 2 [] := by
  unfold decodeOne
  by_cases hunused : modeM2 (b 1) ≠ 0 ∨ modeM3 (b 1) ≠ 0 ∨ modeX2 (b 1) = true
  · rw [if_pos hunused]
  · obtain ⟨hx1, hm1⟩ : modeX1 (b 1) = true ∧ modeM1 (b 1) ≠ 3 := by tauto
    rw [if_neg hunused, hx1, kindOf_form hm1]

theorem decodeTwo_badMode {b : Nat → Byte} (legal1 legal2 : Kind → Bool)
    (mk : Operand → Operand → Except DecodeSub Instr)
    (h : modeM3 (b 1) ≠ 0 ∨ (modeX1 (b 1) = true ∧ modeM1 (b 1) ≠ 3) ∨ (modeX2 (b 1) = true ∧ modeM2 (b 1) ≠ 3)) :
    decodeTwo b legal1 legal2 mk = .bad .badModeByte 2 [] := by
  unfold decodeTwo
  by_cases hm3 : modeM3 (b 1) ≠ 0
  · rw [if_pos hm3]
  · rw [if_neg hm3]
    rcases h.resolve_left hm3 with ⟨hx1, hm1⟩ | ⟨hx2, hm2⟩
    · rw [hx1, kindOf_form hm1]
    · rw [hx2, kindOf_form hm2]
      cases kindOf (modeM1 (b 1)) (modeX1 (b 1)) <;> rfl

/-- Settles O14: one-operand shapes refuse the mode byte by `decodeOne_badMode`, two-operand shapes by
`decodeTwo_badMode`. -/
theorem badModeBytesAreRejected : Obligations.BadModeBytesAreRejected := by
  intro b m hop hplain hmode
  rw [decode_of_mnemonic hop]
  cases hshape : m.shape with
  | plain i => exact absurd hshape (hplain i)
  | dst mk | target mk | reg mk | vector mk =>
    rw [Shape.decodeAs]
    refine decodeOne_badMode _ _ ?_
    rcases hmode with hm3 | hx1 | ⟨hx2, -⟩ | ⟨-, hunused⟩
    · exact .inl hm3
    · exact .inr (.inl hx1)
    · exact .inr (.inr (.inr hx2))
    · exact .inr (.inr hunused)
  | dstSrc mk | srcSrc mk =>
    rw [Shape.decodeAs]
    refine decodeTwo_badMode _ _ _ ?_
    rcases hmode with hm3 | hx1 | hx2 | ⟨hone, -⟩
    · exact .inl hm3
    · exact .inr (.inl hx1)
    · exact .inr (.inr hx2)
    · simp [hshape] at hone

end Sys2Proof
end

section
/-! The step cycle (R101, R105, R254): what a step does when it takes an interrupt, when it runs a decoded instruction
and when it meets bytes that do not decode. The obligations O16, O17, O18 and O20. -/

namespace Sys2Proof.Machine

/-! ## The interrupt check -/

/-- In the status Running a step with no interrupt to take runs what stands at the PC (R101). -/
theorem step_eq_runAtPc {s : State} (hs : s.status = .running) (h : takenInterrupt s = none) :
    step s = runAtPc s := by
  have hcheck : interruptCheck s = s := by rw [interruptCheck, h]
  rw [step, hs]
  simp only [runStep, hcheck, hs]

/-- In the status Running a step that takes an interrupt runs what stands at the handler, unless the entry faulted
(R101, R254). -/
theorem step_of_entered {s u : State} {n : Fin 8} (hs : s.status = .running) (h : takenInterrupt s = some n)
    (hu : enter s n s.pc = .ok () u) (hus : u.status = .running) : step s = runAtPc u := by
  have hcheck : interruptCheck s = u := by rw [interruptCheck, h]; simp only [hardwareEntry, hu]
  rw [step, hs]
  simp only [runStep, hcheck, hus]

/-- With I clear no interrupt is taken (R254). -/
theorem takenInterrupt_of_clear {s : State} (h : s.flag .i = false) : takenInterrupt s = none := by
  simp [takenInterrupt, h]

/-- The sources stand in priority order, 0 first (R249). -/
theorem sources_getElem : ∀ k : Fin 8, sources[k.val]'(by decide +revert) = k := by decide

/-- With I set the lowest pending source is taken (R253, R254). -/
theorem takenInterrupt_of_lowest {s : State} {n : Fin 8} (hi : s.flag .i = true) (hn : getPending s n = true)
    (hlow : ∀ k, k < n → getPending s k = false) : takenInterrupt s = some n := by
  rw [takenInterrupt, if_pos hi, firstPending, List.find?_eq_some_iff_getElem]
  refine ⟨hn, n.val, n.isLt, sources_getElem n, fun j hj => ?_⟩
  have hsource := sources_getElem ⟨j, hj.trans n.isLt⟩
  simp only at hsource
  rw [hsource, hlow _ hj, Bool.not_false]

/-- Settles O20: the entry has room (`enter_ok`) and leaves the status Running with I clear, so the step from the
entered state takes no interrupt and runs the same instruction. -/
theorem pendingInterruptIsEnteredFirst : Obligations.PendingInterruptIsEnteredFirst := by
  intro s n hmem hs hi hn hlow hfits
  obtain ⟨u, hu, hentered, -⟩ := enter_ok n s.pc hmem hfits
  obtain ⟨-, -, -, hclear, -, -, -, -, hstatus, -⟩ := id hentered
  have hrunning : u.status = .running := hstatus.trans hs
  have hstep : step s = runAtPc u := step_of_entered hs (takenInterrupt_of_lowest hi hn hlow) hu hrunning
  exact ⟨u, hentered, hstep.trans (step_eq_runAtPc hrunning (takenInterrupt_of_clear hclear)).symm, hstep⟩

/-! ## Fetch -/

/-- A fetched byte where no peripheral is comes from memory (R68). -/
theorem fetchByte_of_memory {s : State} {k : Nat} (h : isMmio s (fetchAddr s k) = false) :
    fetchByte s k = s.mem.read (fetchAddr s k).toNat := by
  simp [fetchByte, h]

/-- Fetching where no peripheral is changes nothing (R98). -/
theorem afterFetch_of_memory {s : State} {n : Nat} (h : ∀ k, k < n → isMmio s (fetchAddr s k) = false) :
    afterFetch s n = s := by
  have hevents : fetchEvents s n = [] :=
    List.filterMap_eq_nil_iff.mpr fun k hk => by simp [h k (List.mem_range.mp hk)]
  rw [afterFetch, hevents, List.append_nil, State.withBus_self]

theorem fetchBytes_of_memory {s : State} {n : Nat} (h : ∀ k, k < n → isMmio s (fetchAddr s k) = false) :
    fetchBytes s n = (List.range n).map fun k => s.mem.read (fetchAddr s k).toNat :=
  List.map_congr_left fun k hk => fetchByte_of_memory (h k (List.mem_range.mp hk))

/-- The AddressFault of an indexed operand comes at the end of its field, inside the instruction (R105). -/
theorem indexFault_count_le_fields {s : State} {os : List Operand} {off : Nat} {e : Int × Nat}
    (h : indexFault s os off = some e) : e.2 ≤ off + (os.map Operand.fieldLen).sum := by
  induction os generalizing off with
  | nil => cases h
  | cons o os ih =>
    rw [List.map_cons, List.sum_cons]
    rw [indexFault] at h
    split at h
    · cases h
      simp only
      omega
    · have := ih h
      omega

/-- Decode fetches no byte past the instruction (R99, R105). -/
theorem fetchCount_le (s : State) (i : Instr) : fetchCount s i.operands i.length ≤ i.length := by
  unfold fetchCount
  split
  · rename_i e he
    have hcount := indexFault_count_le_fields he
    cases hops : i.operands with
    | nil =>
      rw [hops] at he
      cases he
    | cons o os =>
      rw [hops] at hcount
      simpa [Instr.length, hops] using hcount
  · exact le_rfl

/-! ## Decoded instructions -/

/-- What decodes at the PC runs after the bytes fetched for it (R101). -/
theorem runAtPc_of_ok {s : State} {i : Instr} {len : Nat} (h : decode (fetchByte s) = .ok i len) :
    runAtPc s = exec i (afterFetch s (fetchCount s i.operands len)) := by
  rw [runAtPc, h]

/-- Settles O16: with the indexed addresses in range every byte is fetched; where no peripheral is, fetching changes
nothing, and no byte past the instruction is fetched (`fetchCount_le`). -/
theorem stepRunsTheDecodedInstruction : Obligations.StepRunsTheDecodedInstruction := by
  intro s i len hs hint hdecode
  rw [step_eq_runAtPc hs hint, runAtPc_of_ok hdecode]
  refine ⟨fun hindex => ?_, fun hmem => ?_⟩
  · rw [fetchCount, indexFault_none 2 hindex]
  · obtain ⟨-, rfl, -⟩ := decode_inv hdecode
    rw [afterFetch_of_memory fun k hk => hmem k (hk.trans_le (fetchCount_le s i))]

/-- Settles O17: the fetched bytes are the encoding, so they decode to the instruction (`decode_of_encodes`), which then
runs by O16. -/
theorem storedEncodingRuns : Obligations.StoredEncodingRuns := by
  intro s i hwf hs hint hstored
  have hmem : ∀ k, k < i.length → isMmio s (fetchAddr s k) = false := fun k hk => (hstored k hk).1
  have hencodes : Encodes (fetchByte s) i := fun k hk => (fetchByte_of_memory (hmem k hk)).trans (hstored k hk).2
  exact (stepRunsTheDecodedInstruction s i i.length hs hint (decode_of_encodes hwf hencodes)).2 hmem

/-- Settles O18: no indexed operand before the failing byte faults, and the bytes come from memory, so the fault state
differs from `s` in its status alone. -/
theorem decodeFaultIsPrecise : Obligations.DecodeFaultIsPrecise := by
  intro s sub len before hs hint hdecode hindex hmem
  rw [step_eq_runAtPc hs hint, runAtPc, hdecode]
  simp only [decodeFaultState, indexFault_none 2 hindex, fetchBytes_of_memory hmem, afterFetch_of_memory hmem]
  rfl

end Sys2Proof.Machine
end

section
/-! MOV, the shifts and rotates, and BTST (R120, R160 to R163, R170): what the shared ways of running them leave, and
the result and carry of a shift as arithmetic. The obligations O31, O40, O41, O42 and O43. -/

namespace Sys2Proof.Machine

/-- Settles O31: MOV reads its source and then writes its destination (`writeOp_ok`), with FLAGS as it was. -/
theorem movCopiesTheSource : Obligations.MovCopiesTheSource := by
  intro d x s hmem hfitsD hfitsX W hW
  subst hW
  obtain ⟨t, ht, hwritten⟩ := writeOp_ok (operandAddrs s x (widthA s d.toOperand x)) s.flags
    (operandIn s s x (widthA s d.toOperand x)) hmem hfitsD fun c => widthA_dst c
  have hindex := shiftOperands_fit (i := .mov d x) rfl hfitsD (indexFits_of_operandFits hfitsX)
  refine ⟨t.withPc (nextPc (.mov d x) s), ?_, hwritten.wrote, hwritten.flags⟩
  rw [exec_mov, runInstr_eq hindex, readOp_ok_start hfitsX, Res.bind_ok,
    ← State.withFlags_self (seen s _), seen_flags, ht, Res.bind_ok, finish_ok]

/-! ## Shifts and rotates -/

theorem exec_shl (d : Dst) (x : Operand) (s : State) : exec (.shl d x) s =
    runShift (.shl d x) d.toOperand x s (fun a k => a <<< k) (fun {w} a k => a.getLsbD (w - k)) := rfl

theorem exec_shr (d : Dst) (x : Operand) (s : State) : exec (.shr d x) s =
    runShift (.shr d x) d.toOperand x s (fun a k => a >>> k) (fun a k => a.getLsbD (k - 1)) := rfl

theorem exec_rol (d : Dst) (x : Operand) (s : State) : exec (.rol d x) s =
    runShift (.rol d x) d.toOperand x s (fun {w} a k => (a <<< k) ||| (a >>> (w - k)))
      (fun {w} a k => ((a <<< k) ||| (a >>> (w - k))).getLsbD 0) := rfl

theorem exec_ror (d : Dst) (x : Operand) (s : State) : exec (.ror d x) s =
    runShift (.ror d x) d.toOperand x s (fun {w} a k => (a >>> k) ||| (a <<< (w - k)))
      (fun {w} a k => ((a >>> k) ||| (a <<< (w - k))).msb) := rfl

/-- A state whose FLAGS word was written by a shift with result `r` and carry `c` reports them, and keeps V and every
other flag (R31, D20). -/
theorem reports_of_shiftFlags {w : Nat} {s t : State} {r : BitVec w} {c : Bool}
    (h : t.flags = shiftFlags c r s.flags) :
    ZspReport t r ∧ t.flag .c = c ∧ FlagsKept s t [.z, .s, .p, .c] := by
  have hflag : ∀ x, t.flag x = flagGet (shiftFlags c r s.flags) x := fun x => by rw [State.flag, h]
  have hzsp : ZspReport t r := by
    simp [ZspReport, hflag, flagGet_shiftFlags, parityEven_eq, beq_eq_decide]
  exact ⟨hzsp, by simp [hflag, flagGet_shiftFlags],
    fun x hx => (hflag x).trans (shiftFlags_kept c r s.flags x hx)⟩

/-- An instruction run by `runShift` keeps `ShiftClaim` when its result and carry are the claimed ones for every amount
above 0 and below the width (R107). -/
theorem shiftClaim_of_runShift {mk : Dst → Operand → Instr} {run result : {w : Nat} → BitVec w → Nat → BitVec w}
    {runCarry : {w : Nat} → BitVec w → Nat → Bool} {carry : (w : Nat) → BitVec w → Nat → Bool}
    (hexec : ∀ d x s, exec (mk d x) s = runShift (mk d x) d.toOperand x s run runCarry)
    (hoperands : ∀ d x, (mk d x).operands = [d.toOperand, x])
    (hresult : ∀ {w : Nat} (a : BitVec w) {k}, 0 < k → k < w → run a k = result a k)
    (hcarry : ∀ {w : Nat} (a : BitVec w) {k}, 0 < k → k < w → runCarry a k = carry w a k) :
    ShiftClaim mk (fun _ => result) carry := by
  intro d x s hmem hfits hindex W hW a ha k hk hk0
  have hlt : k < W.bits := hk ▸ countIn_lt s _ x W
  obtain ⟨t, ht, hwrote, hflags, -⟩ := runShift_ok (result := run) (carry := runCarry) (hoperands d x) hmem hfits
    hindex hW ha hk hk0
  rw [hresult a (Nat.pos_of_ne_zero hk0) hlt] at hwrote hflags
  rw [hcarry a (Nat.pos_of_ne_zero hk0) hlt] at hflags
  exact ⟨t, (hexec d x s).trans ht, hwrote, reports_of_shiftFlags hflags⟩

theorem shiftLeft_eq_ofNat {w : Nat} (a : BitVec w) (k : Nat) : a <<< k = BitVec.ofNat w (a.toNat * 2 ^ k) := by
  apply BitVec.eq_of_toNat_eq
  rw [BitVec.toNat_shiftLeft, BitVec.toNat_ofNat, Nat.shiftLeft_eq]

theorem ushiftRight_eq_ofNat {w : Nat} (a : BitVec w) (k : Nat) : a >>> k = BitVec.ofNat w (a.toNat / 2 ^ k) := by
  apply BitVec.eq_of_toNat_eq
  rw [BitVec.toNat_ushiftRight, BitVec.toNat_ofNat, Nat.shiftRight_eq_div_pow,
    Nat.mod_eq_of_lt ((Nat.div_le_self _ _).trans_lt a.isLt)]

/-- Settles O40: SHL and SHR run by `runShift`; a shift multiplies or divides by a power of 2. -/
theorem shiftResultAndFlags : Obligations.ShiftResultAndFlags :=
  ⟨shiftClaim_of_runShift exec_shl (fun _ _ => rfl) (fun a k _ _ => shiftLeft_eq_ofNat a k) fun _ _ _ _ => rfl,
    shiftClaim_of_runShift exec_shr (fun _ _ => rfl) (fun a k _ _ => ushiftRight_eq_ofNat a k) fun _ _ _ _ => rfl⟩

theorem shifts_eq_rotateLeft {w : Nat} (a : BitVec w) {k : Nat} (h : k < w) :
    (a <<< k) ||| (a >>> (w - k)) = a.rotateLeft k :=
  (BitVec.rotateLeft_eq_rotateLeftAux_of_lt h).symm

theorem shifts_eq_rotateRight {w : Nat} (a : BitVec w) {k : Nat} (h : k < w) :
    (a >>> k) ||| (a <<< (w - k)) = a.rotateRight k :=
  (BitVec.rotateRight_eq_rotateRightAux_of_lt h).symm

/-- Bit 0 of a left rotation is the last bit that left at the top (R162). -/
theorem getLsbD_rotateLeft_zero {w : Nat} (a : BitVec w) {k : Nat} (hpos : 0 < k) (h : k < w) :
    (a.rotateLeft k).getLsbD 0 = a.getLsbD (w - k) := by
  simp [BitVec.getLsbD_rotateLeft_of_le h, hpos]

/-- The top bit of a right rotation is the last bit that left at the bottom (R163). -/
theorem msb_rotateRight_eq {w : Nat} (a : BitVec w) {k : Nat} (hpos : 0 < k) (h : k < w) :
    (a.rotateRight k).msb = a.getLsbD (k - 1) := by
  have hwrapped : ¬ w - 1 < w - k := by omega
  have hindex : w - 1 - (w - k) = k - 1 := by omega
  have hpos' : 0 < w := by omega
  rw [BitVec.msb_eq_getLsbD_last, BitVec.getLsbD_rotateRight_of_lt h, hindex]
  simp [hwrapped, hpos']

/-- Settles O41: ROL and ROR run by `runShift`; the two shifts make a rotation, whose outer bit is the carry. -/
theorem rotateResultAndFlags : Obligations.RotateResultAndFlags := by
  refine ⟨shiftClaim_of_runShift exec_rol (fun _ _ => rfl) (fun a _ _ hk => shifts_eq_rotateLeft a hk)
      fun a k hpos hk => ?_,
    shiftClaim_of_runShift exec_ror (fun _ _ => rfl) (fun a _ _ hk => shifts_eq_rotateRight a hk)
      fun a k hpos hk => ?_⟩
  · rw [shifts_eq_rotateLeft a hk, getLsbD_rotateLeft_zero a hpos hk]
  · rw [shifts_eq_rotateRight a hk, msb_rotateRight_eq a hpos hk]

/-- Settles O42: each of the four runs by `runShift`, which an amount of 0 only advances (`runShift_zero`). -/
theorem shiftByZeroChangesOnlyThePc : Obligations.ShiftByZeroChangesOnlyThePc := by
  simp only [Obligations.ShiftByZeroChangesOnlyThePc, List.forall_mem_cons]
  refine ⟨fun d x s hfits hindex hk => ?_, fun d x s hfits hindex hk => ?_, fun d x s hfits hindex hk => ?_,
    fun d x s hfits hindex hk => ?_, List.forall_mem_nil _⟩
  · rw [exec_shl, runShift_zero rfl hfits hindex hk]
  · rw [exec_shr, runShift_zero rfl hfits hindex hk]
  · rw [exec_rol, runShift_zero rfl hfits hindex hk]
  · rw [exec_ror, runShift_zero rfl hfits hindex hk]

/-! ## BTST -/

theorem exec_btst (o x : Operand) (s : State) : exec (.btst o x) s = runInstr (.btst o x) s fun s =>
    (readOp s (locate s o) (widthB s o)).bind fun v s1 =>
    (readCount s1 (locate s x) (widthB s o)).bind fun k s2 =>
    .ok () ((s2.withFlags (bitFlags v k s2.flags)).withPc (nextPc (.btst o x) s)) := rfl

/-- Settles O43: BTST reads its operands, and of the state they leave writes only FLAGS, in its Z, and the PC. -/
theorem btstOnlySetsZero : Obligations.BtstOnlySetsZero := by
  intro o x s hfits hindex W hW v hv k hk
  refine ⟨((seen s (operandAddrs s o W ++ countAddrs s x)).withFlags (bitFlags v k s.flags)).withPc
    (nextPc (.btst o x) s), ?_, ⟨fun c _ => ?_, fun _ => rfl, rfl, rfl, rfl, rfl⟩, rfl, ?_, ?_⟩
  · subst hW hv hk
    rw [exec_btst, runInstr_eq (shiftOperands_fit rfl hfits hindex), readOp_ok_start hfits, Res.bind_ok, readCount_ok,
      Res.bind_ok, seen_flags, finish_ok]
  · rw [regRead_withPc, regRead_withFlags, regRead_seen]
  · exact (flagGet_bitFlags _ _ s.flags .z).trans (if_pos rfl)
  · exact bitFlags_kept _ _ s.flags

end Sys2Proof.Machine
end

section
/-! Jumps, CALL and INT (R185 to R194, R217): where each leaves the PC, and what it pushes. The obligations O45, O46,
O47 and O56. -/

namespace Sys2Proof.Machine

/-! ## Jumps and calls -/

/-- Settles O45: JMP is a jump that is always taken. -/
theorem jmpGoesToItsTarget : Obligations.JmpGoesToItsTarget := fun _ _ hfits => runJump_taken rfl hfits

/-- Settles O46: each conditional jump runs by `runJump`, taken when its flag has its value
(`exec_conditionalJump`). -/
theorem conditionalJumpsTestTheirFlag : Obligations.ConditionalJumpsTestTheirFlag := by
  intro e he g s
  obtain ⟨hexec, hoperands⟩ := exec_conditionalJump e he g s
  refine ⟨fun htaken hfits => ?_, fun hnot => ?_⟩
  · rw [hexec, beq_iff_eq.mpr htaken, runJump_taken hoperands hfits]
  · rw [hexec, beq_eq_false_iff_ne.mpr hnot, runJump_not_taken]

/-- Settles O47: the target is read first (`readTarget_ok`), and then the return address is pushed (`push16_ok`). -/
theorem callPushesTheReturnAddress : Obligations.CallPushesTheReturnAddress := by
  intro g s hmem hfits hroom
  obtain ⟨t, ht, hstored⟩ := push16_ok (s := seen s (operandAddrs s g.toOperand .w16)) (nextPc (.call g) s) hmem hroom
  have hindex : ∀ o ∈ (Instr.call g).operands, indexFits s o = true := by
    simpa [Instr.operands] using indexFits_of_operandFits hfits
  refine ⟨t.withPc (targetIn s g), ?_, rfl, hstored.pushedWord _⟩
  rw [exec_call, runInstr_eq hindex, readTarget_ok hfits, Res.bind_ok, ht, Res.bind_ok, finish_ok]

/-! ## INT -/

/-- INT is three bytes long (R99). -/
theorem nextPc_int (n : Byte) (s : State) : nextPc (.int n) s = s.pc + 3 := rfl

theorem encode_int (n : Byte) : encode (.int n) = [0x3C, 0x01, n] := by
  have hmode : Kind.imm8.mode ||| (Kind.imm8.form <<< 6) = 0x01 := by decide
  rw [encode_of_one rfl, modeByte, Operand.kind, hmode]
  rfl

/-- On a vector above 7 INT raises BadVector (assumption 20). -/
theorem exec_int_badVector {n : Byte} (h : 7 < n.toNat) (s : State) : exec (.int n) s =
    runInstr (.int n) s fun s => .fault (.decodeFault .badVector) none s.bus := by
  rw [exec, execInt]
  exact congrArg (runInstr (.int n) s) (funext fun s => dif_neg (by omega))

/-- Settles O56: up to 7, INT runs the entry of `enter_ok`, which looks at neither I nor the latches; above 7 it raises
a fault that leaves the peripherals' log alone. -/
theorem intEntersItsVector : Obligations.IntEntersItsVector := by
  refine ⟨fun n s hmem hroom => ?_, fun n s hn => ?_⟩
  · have hvalue : (BitVec.ofNat 8 n.val).toNat = n.val := by
      rw [BitVec.toNat_ofNat]
      omega
    have hlt : (BitVec.ofNat 8 n.val).toNat < 8 := by omega
    have hsource : (⟨(BitVec.ofNat 8 n.val).toNat, hlt⟩ : Fin 8) = n := Fin.ext hvalue
    obtain ⟨t, ht, hentered, -⟩ := enter_ok n (s.pc + 3) hmem hroom
    refine ⟨t, exec_of_body (exec_int hlt s) (by simp [Instr.operands]) ?_, hentered⟩
    rw [hsource, nextPc_int, ht]
  · rw [exec_int_badVector hn, runInstr_eq (indexFits_of_no_mem (by simp [Instr.operands]) s), finish, encode_int]
    rfl

end Sys2Proof.Machine
end

section
/-! MUL, DIV, INC and DEC against R132 to R135 and R245: the product and the quotient cut to the width, and the flags
of a sum and a difference whose second operand is 1. The obligations O34, O35 and O36. -/

namespace Sys2Proof.Machine

/-! ## MUL -/

theorem mul_eq_ofNat {w : Nat} (a b : BitVec w) : a * b = BitVec.ofNat w (a.toNat * b.toNat) := by
  rw [BitVec.ofNat_mul, BitVec.ofNat_toNat, BitVec.ofNat_toNat, BitVec.setWidth_eq, BitVec.setWidth_eq]

theorem mulFlags_eq {w : Nat} (a b : BitVec w) (f : FlagWord) :
    mulFlags a b f = setCV (decide (2 ^ w ≤ a.toNat * b.toNat)) (outsideSigned w (a.toInt * b.toInt))
      (setZSP (a * b) f) := by
  rw [mulFlags, not_inSigned]

/-- Settles O34: MUL runs by `runAlu`, and the product of two words is that of their numbers cut to the width. -/
theorem mulResultAndFlags : Obligations.MulResultAndFlags := by
  simp only [Obligations.MulResultAndFlags, ← mul_eq_ofNat]
  exact aluClaim_of_runAlu (fun _ _ _ => rfl) (fun _ _ => rfl) fun _ => mulFlags_eq

/-! ## DIV -/

/-- What DIV does once its operands, which fit, are read (R133, R248). -/
theorem exec_div_of_fits {d : Dst} {x : Operand} {s : State} {W : Width} (hW : W = widthA s d.toOperand x)
    (h1 : operandFits s d.toOperand W = true) (h2 : operandFits s x W = true) {a b : Value W}
    (ha : a = operandIn s s d.toOperand W) (hb : b = operandIn s (seen s (operandAddrs s d.toOperand W)) x W)
    {reads : List Word} (hreads : reads = operandAddrs s d.toOperand W ++ operandAddrs s x W) :
    exec (.div d x) s = finish (.div d x) s (if b = 0 then .fault .divideByZero none (s.bus ++ readEvents s reads)
      else (writeOp ((seen s reads).withFlags (clearCVFlags (a / b) s.flags)) (locate s d.toOperand) W (a / b)).bind
        fun _ s3 => .ok () (s3.withPc (nextPc (.div d x) s))) := by
  subst hW ha hb hreads
  have hindex := shiftOperands_fit (i := .div d x) rfl h1 (indexFits_of_operandFits h2)
  rw [exec_div, runInstr_eq hindex, readOp_ok_start h1, Res.bind_ok, readOp_ok _ h2, Res.bind_ok, seen_flags, seen_bus]

/-- Settles O35: with a nonzero divisor DIV writes the quotient (`writeOp_ok`) and clears C and V; with 0 it raises
the fault after both operands are read. -/
theorem divResultOrFault : Obligations.DivResultOrFault := by
  intro d x s hmem h1 h2 W hW a ha b hb
  have hexec := exec_div_of_fits hW (hW ▸ h1) (hW ▸ h2) ha hb rfl
  refine ⟨fun hne => ?_, fun hzero => ?_⟩
  · obtain ⟨t, ht, hwritten⟩ := writeOp_ok _ (clearCVFlags (a / b) s.flags) (a / b) hmem (hW ▸ h1)
      fun c hc => hW.trans (widthA_dst c hc)
    rw [← BitVec.udiv_def]
    refine ⟨t.withPc (nextPc (.div d x) s), ?_, hwritten.wrote, reports_of_flags hwritten.flags⟩
    rw [hexec, if_neg hne, ht, Res.bind_ok, finish_ok]
  · rw [hexec, if_pos hzero, finish]

/-! ## INC and DEC -/

theorem one_lt_bits (W : Width) : 1 < W.bits := by
  cases W <;> decide

theorem exec_inc (d : Dst) (s : State) :
    exec (.inc d) s = runUnary (.inc d) d.toOperand s (fun a => a + 1) (fun a => addFlags a 1) := rfl

theorem exec_dec (d : Dst) (s : State) :
    exec (.dec d) s = runUnary (.dec d) d.toOperand s (fun a => a - 1) (fun a => subFlags a 1) := rfl

/-- A one-operand instruction run by `runUnary` keeps `UnaryClaim` when, at either width, its result is the claimed one
and its FLAGS word is that of its result, carry and overflow. -/
theorem unaryClaim_of_runUnary {mk : Dst → Instr} {run : {w : Nat} → BitVec w → BitVec w}
    {flags : {w : Nat} → BitVec w → FlagWord → FlagWord} {result : (w : Nat) → BitVec w → BitVec w}
    {carry overflow : (w : Nat) → BitVec w → Bool}
    (hexec : ∀ d s, exec (mk d) s = runUnary (mk d) d.toOperand s run flags)
    (hoperands : ∀ d, (mk d).operands = [d.toOperand])
    (hresult : ∀ {w : Nat} (a : BitVec w), run a = result w a)
    (hflags : ∀ {w : Nat} (a : BitVec w) f, 1 < w →
      flags a f = setCV (carry w a) (overflow w a) (setZSP (run a) f)) :
    UnaryClaim mk result carry overflow := by
  intro d s hmem hfits W hW a ha
  obtain ⟨t, ht, hwrote, htflags, -⟩ := runUnary_ok (result := run) (flags := flags) (hoperands d) hmem hfits hW ha
  rw [← hresult a]
  exact ⟨t, (hexec d s).trans ht, hwrote, reports_of_flags (htflags.trans (hflags a s.flags (one_lt_bits W)))⟩

theorem add_one_eq_ofNat {w : Nat} (a : BitVec w) : a + 1 = BitVec.ofNat w (a.toNat + 1) := by
  rw [BitVec.ofNat_add, BitVec.ofNat_toNat, BitVec.setWidth_eq]
  rfl

/-- Adding 1 carries out exactly when it reaches 2^w, and leaves the signed range exactly when it reaches
2^(w - 1) (R134). -/
theorem addFlags_one {w : Nat} (a : BitVec w) (f : FlagWord) (hw : 1 < w) :
    addFlags a 1 f = setCV (decide (a.toNat + 1 = 2 ^ w)) (decide (a.toInt + 1 = (2 : Int) ^ (w - 1)))
      (setZSP (a + 1) f) := by
  have hcarry : decide (2 ^ w ≤ a.toNat + 1) = decide (a.toNat + 1 = 2 ^ w) := by
    have := a.isLt
    exact decide_eq_decide.mpr (by omega)
  have hoverflow : outsideSigned w (a.toInt + 1) = decide (a.toInt + 1 = (2 : Int) ^ (w - 1)) := by
    have hlower := BitVec.le_toInt a
    have hupper := BitVec.toInt_lt (x := a)
    exact decide_eq_decide.mpr (by omega)
  have hnat : (1 : BitVec w).toNat = 1 := BitVec.toNat_one (by omega)
  have hint : (1 : BitVec w).toInt = 1 := BitVec.toInt_one hw
  rw [addFlags_eq, hnat, hint, hcarry, hoverflow]

/-- Subtracting 1 borrows exactly from 0, and leaves the signed range exactly from -2^(w - 1) (R135). -/
theorem subFlags_one {w : Nat} (a : BitVec w) (f : FlagWord) (hw : 1 < w) :
    subFlags a 1 f = setCV (decide (a = 0)) (decide (a.toInt = -(2 : Int) ^ (w - 1))) (setZSP (a - 1) f) := by
  have hborrow : decide (a.toNat < 1) = decide (a = 0) := by simp [BitVec.toNat_eq]
  have hoverflow : outsideSigned w (a.toInt - 1) = decide (a.toInt = -(2 : Int) ^ (w - 1)) := by
    have hlower := BitVec.le_toInt a
    have hupper := BitVec.toInt_lt (x := a)
    exact decide_eq_decide.mpr (by omega)
  have hnat : (1 : BitVec w).toNat = 1 := BitVec.toNat_one (by omega)
  have hint : (1 : BitVec w).toInt = 1 := BitVec.toInt_one hw
  rw [subFlags_eq, hnat, hint, hborrow, hoverflow]

/-- Settles O36: INC and DEC run by `runUnary`, with the flags of adding and of subtracting 1. -/
theorem incAndDecResultAndFlags : Obligations.IncAndDecResultAndFlags :=
  ⟨unaryClaim_of_runUnary exec_inc (fun _ => rfl) add_one_eq_ofNat addFlags_one,
    unaryClaim_of_runUnary exec_dec (fun _ => rfl) (fun _ => rfl) subFlags_one⟩

end Sys2Proof.Machine
end

section
/-! AND, OR, XOR and NOT against R150 to R153: each writes its result the shared way (`runAlu`, `runUnary`), with a
FLAGS word that clears C and V. The obligations O38 and O39. -/

namespace Sys2Proof.Machine

/-! ## AND, OR and XOR -/

/-- A two-operand instruction run by `runAlu` with the FLAGS word of a logic result keeps `AluClaim` with C and V
clear (R150 to R152). -/
theorem aluClaim_of_clearCV {mk : Dst → Operand → Instr} {result : {w : Nat} → BitVec w → BitVec w → BitVec w}
    (hexec : ∀ d x s, exec (mk d x) s =
      runAlu (mk d x) d.toOperand x s result fun a b => clearCVFlags (result a b))
    (hoperands : ∀ d x, (mk d x).operands = [d.toOperand, x]) :
    AluClaim mk (fun _ => result) (fun _ _ _ => false) fun _ _ _ => false :=
  aluClaim_of_runAlu hexec hoperands fun _ _ _ _ => rfl

theorem exec_and (d : Dst) (x : Operand) (s : State) : exec (.and d x) s =
    runAlu (.and d x) d.toOperand x s (fun a b => a &&& b) fun a b => clearCVFlags (a &&& b) := rfl

theorem exec_or (d : Dst) (x : Operand) (s : State) : exec (.or d x) s =
    runAlu (.or d x) d.toOperand x s (fun a b => a ||| b) fun a b => clearCVFlags (a ||| b) := rfl

theorem exec_xor (d : Dst) (x : Operand) (s : State) : exec (.xor d x) s =
    runAlu (.xor d x) d.toOperand x s (fun a b => a ^^^ b) fun a b => clearCVFlags (a ^^^ b) := rfl

/-- Settles O38: the three run by `runAlu`, and the FLAGS word of each clears C and V. -/
theorem logicResultAndFlags : Obligations.LogicResultAndFlags :=
  ⟨aluClaim_of_clearCV exec_and fun _ _ => rfl, aluClaim_of_clearCV exec_or fun _ _ => rfl,
    aluClaim_of_clearCV exec_xor fun _ _ => rfl⟩

/-! ## NOT -/

theorem exec_not (d : Dst) (s : State) : exec (.not d) s =
    runUnary (.not d) d.toOperand s (fun a => ~~~a) fun a => clearCVFlags (~~~a) := rfl

/-- Inverting every bit is subtracting from the greatest value of the width (R153). -/
theorem not_eq_ofNat {w : Nat} (a : BitVec w) : ~~~a = BitVec.ofNat w (2 ^ w - 1 - a.toNat) := by
  rw [← BitVec.toNat_not, BitVec.ofNat_toNat, BitVec.setWidth_eq]

/-- Settles O39: NOT runs by `runUnary`, its result is the complement as a number (`not_eq_ofNat`), and its FLAGS word
clears C and V. -/
theorem notResultAndFlags : Obligations.NotResultAndFlags :=
  unaryClaim_of_runUnary exec_not (fun _ => rfl) not_eq_ofNat fun _ _ _ => rfl

end Sys2Proof.Machine
end

section
/-! BSET, BCLR and BFLIP against R171 to R173: each writes operand 1 the shared way (`runBit`), and Z reports what bit
`k` of the result is. The obligation O44. -/

namespace Sys2Proof.Machine

theorem exec_bset (d : Dst) (x : Operand) (s : State) : exec (.bset d x) s =
    runBit (.bset d x) d.toOperand x s fun {w} v k => v ||| BitVec.twoPow w k := rfl

theorem exec_bclr (d : Dst) (x : Operand) (s : State) : exec (.bclr d x) s =
    runBit (.bclr d x) d.toOperand x s fun {w} v k => v &&& ~~~ BitVec.twoPow w k := rfl

theorem exec_bflip (d : Dst) (x : Operand) (s : State) : exec (.bflip d x) s =
    runBit (.bflip d x) d.toOperand x s fun {w} v k => v ^^^ BitVec.twoPow w k := rfl

/-- A state whose FLAGS word was written by a bit instruction reports bit `k` of `r` in Z, and keeps every other flag
(R31). -/
theorem reports_of_bitFlags {w : Nat} {s t : State} {r : BitVec w} {k : Nat} (h : t.flags = bitFlags r k s.flags) :
    t.flag .z = !r.getLsbD k ∧ FlagsKept s t [.z] := by
  have hflag : ∀ y, t.flag y = flagGet (bitFlags r k s.flags) y := fun y => by rw [State.flag, h]
  exact ⟨by rw [hflag, flagGet_bitFlags, if_pos rfl], fun y hy => (hflag y).trans (bitFlags_kept r k s.flags y hy)⟩

/-- An instruction run by `runBit` keeps `BitClaim` when, for every bit number below the width (R107), its Z is the
complement of that bit of its result. -/
theorem bitClaim_of_runBit {mk : Dst → Operand → Instr} {result : {w : Nat} → BitVec w → Nat → BitVec w}
    {zero : (w : Nat) → BitVec w → Nat → Bool}
    (hexec : ∀ d x s, exec (mk d x) s = runBit (mk d x) d.toOperand x s result)
    (hoperands : ∀ d x, (mk d x).operands = [d.toOperand, x])
    (hzero : ∀ {w : Nat} (v : BitVec w) {k}, k < w → (!(result v k).getLsbD k) = zero w v k) :
    BitClaim mk (fun _ => result) zero := by
  intro d x s hmem hfits hindex W hW v hv k hk
  have hlt : k < W.bits := hk ▸ countIn_lt s _ x W
  obtain ⟨t, ht, hwrote, hflags, -⟩ := runBit_ok (result := result) (hoperands d x) hmem hfits hindex hW hv hk
  obtain ⟨hz, hkept⟩ := reports_of_bitFlags hflags
  exact ⟨t, (hexec d x s).trans ht, hwrote, hz.trans (hzero v hlt), hkept⟩

/-- The bit BSET sets is 1 in its result (R171). -/
theorem getLsbD_or_twoPow_self {w : Nat} (v : BitVec w) {k : Nat} (h : k < w) :
    (v ||| BitVec.twoPow w k).getLsbD k = true := by
  simp [h]

/-- The bit BCLR clears is 0 in its result (R172). -/
theorem getLsbD_and_not_twoPow_self {w : Nat} (v : BitVec w) {k : Nat} (h : k < w) :
    (v &&& ~~~ BitVec.twoPow w k).getLsbD k = false := by
  simp [h]

/-- The bit BFLIP inverts is the complement of the old one in its result (R173). -/
theorem getLsbD_xor_twoPow_self {w : Nat} (v : BitVec w) {k : Nat} (h : k < w) :
    (v ^^^ BitVec.twoPow w k).getLsbD k = !v.getLsbD k := by
  simp [h]

/-- Settles O44: the three run by `runBit`, and the bit written decides Z: 1 for BSET, 0 for BCLR, and for BFLIP the
complement of the old bit, so that Z is the old bit. -/
theorem bitInstructionsChangeOneBit : Obligations.BitInstructionsChangeOneBit := by
  refine ⟨bitClaim_of_runBit exec_bset (fun _ _ => rfl) fun v k hk => ?_,
    bitClaim_of_runBit exec_bclr (fun _ _ => rfl) fun v k hk => ?_,
    bitClaim_of_runBit exec_bflip (fun _ _ => rfl) fun v k hk => ?_⟩
  · rw [getLsbD_or_twoPow_self v hk, Bool.not_true]
  · rw [getLsbD_and_not_twoPow_self v hk, Bool.not_false]
  · rw [getLsbD_xor_twoPow_self v hk, Bool.not_not]

end Sys2Proof.Machine
end

section
/-! PUSHA with POPA, PUSHF and POPF (R202 to R205): the words a stack image in memory gives back, and the one slot of
FLAGS. The obligations O53 and O54. -/

namespace Sys2Proof.Machine

/-! ## Bytes in memory -/

/-- Each byte of a list is in memory at its address, which no peripheral owns: a read gives that byte (R61). -/
def InMemory (s : State) (l : List (Word × Byte)) : Prop :=
  ∀ e ∈ l, isMmio s e.1 = false ∧ s.mem.read e.1.toNat = e.2

theorem InMemory.mono {s : State} {l k : List (Word × Byte)} (h : InMemory s k) (hsub : ∀ e ∈ l, e ∈ k) :
    InMemory s l := fun e he => h e (hsub e he)

@[simp] theorem inMemory_seen (s : State) (reads : List Word) (l : List (Word × Byte)) :
    InMemory (seen s reads) l ↔ InMemory s l := Iff.rfl

/-- Bytes stored where no peripheral is are in memory, in every state that has those bytes and the same OPEN
parameters (R62, R72). -/
theorem MemStored.inMemory {s t t' : State} {l : List (Word × Byte)} (h : MemStored s t l)
    (hfree : ∀ e ∈ l, isMmio s e.1 = false) (hp : t'.platform = s.platform)
    (hbytes : ∀ e ∈ l, t'.mem.read e.1.toNat = t.mem.read e.1.toNat) : InMemory t' l := fun e he =>
  ⟨(isMmio_congr hp e.1).trans (hfree e he), (hbytes e he).trans (h.read he (hfree e he))⟩

/-- A word whose two bytes are in memory is what a read gives (R63). -/
theorem InMemory.wordIn_slot {s : State} {a v : Word} (h : InMemory s (slotBytes a v)) : wordIn s a = v := by
  obtain ⟨hhi, hreadHi⟩ := h (a, hiByte v) (by simp [slotBytes_eq])
  obtain ⟨hlo, hreadLo⟩ := h (a + 1, loByte v) (by simp [slotBytes_eq])
  rw [wordIn_mem hhi hlo, hreadHi, hreadLo, hiByte_append_loByte]

/-- A word in memory at the slot of a pop is what that pop gives: the reads before it leave memory alone (R66). -/
theorem InMemory.poppedWord_slot {s : State} {j : Nat} {v : Word}
    (h : InMemory s (slotBytes (s.sp + BitVec.ofNat 16 (2 * j)) v)) : poppedWord s j = v :=
  InMemory.wordIn_slot ((inMemory_seen s _ _).mpr h)

/-! ## PUSHA, then POPA -/

/-- Room for pushing `n` slots is room for popping them again (R65, R66). -/
theorem popFits_of_pushFits_slots {s t : State} {n : Nat} (h : pushFits s n = true) (hp : t.platform = s.platform)
    (hs : t.sp = s.sp - BitVec.ofNat 16 (2 * n)) : popFits t n = true := by
  rw [pushFits_wrap] at h
  rw [popFits_wrap, hp, hs]
  refine h.imp id fun hroom => ?_
  have := s.sp.isLt
  simp [BitVec.toNat_sub]
  omega

/-- POPA's pop after `17 - k` others reads the slot PUSHA stored as its `k`-th (R202, R203). -/
theorem popSlot_eq_pushSlot (a : Word) {k : Nat} (hk : k < 18) :
    a - 36 + BitVec.ofNat 16 (2 * (17 - k)) = a - BitVec.ofNat 16 (2 * (k + 1)) := by
  apply BitVec.eq_of_toNat_eq
  simp [BitVec.toNat_sub, BitVec.toNat_add]
  omega

/-- From PUSHA's bytes in memory and the SP it left, the `k`-th register it pushed is popped as the `17 - k`-th
(R202, R203). -/
theorem poppedWord_of_pushaBytes {s t : State} (hsp : t.sp = s.sp - 36) (h : InMemory t (pushaBytes s)) {k : Nat}
    (hk : k < 18) : poppedWord t (17 - k) = pushaValue s k := by
  refine InMemory.poppedWord_slot (h.mono fun e he => ?_)
  rw [hsp, popSlot_eq_pushSlot s.sp hk] at he
  exact List.mem_flatMap.mpr ⟨k, List.mem_range.mpr hk, he⟩

/-- The first ten registers PUSHA pushes are R0 to R9, zero-extended (R202). -/
theorem pushaValue_r (s : State) (n : Fin 10) : pushaValue s n.val = (getR s n).setWidth 16 :=
  dif_pos n.isLt

/-- After them PUSHA pushes P0 to P7 (R202). -/
theorem pushaValue_p (s : State) {n : Fin 10} (h : n.val < 8) : pushaValue s (n.val + 10) = getP s n := by
  rw [pushaValue, dif_neg (by omega), dif_pos (by omega)]
  rfl

/-- The low byte of a zero-extended byte is that byte (R20). -/
theorem extractLsb'_setWidth_byte (b : Byte) : (b.setWidth 16).extractLsb' 0 8 = b := by
  rw [← BitVec.setWidth_eq_extractLsb' (by decide), BitVec.setWidth_setWidth_of_le _ (by decide), BitVec.setWidth_eq]

/-- Settles O53: PUSHA's bytes are in memory when POPA runs (`MemStored.inMemory`), so each of its pops gives back the
value PUSHA pushed there (`poppedWord_of_pushaBytes`). -/
theorem popaRestoresWhatPushaSaved : Obligations.PopaRestoresWhatPushaSaved := by
  intro s hwf hfits hfree
  obtain ⟨t, ht, htsp, -, hstored, -, -, -, -, -, htplatform⟩ := pushaStoresEighteenSlots s hwf hfits
  refine ⟨t, ht, fun t' hsp hplatform hbytes => ?_⟩
  rw [htsp] at hsp
  rw [htplatform] at hplatform
  have himage : InMemory t' (pushaBytes s) := hstored.inMemory hfree hplatform hbytes
  obtain ⟨u, hu, husp, hup, hur, -⟩ := popaLoadsEighteenSlots t' (popFits_of_pushFits_slots hfits hplatform hsp)
  refine ⟨u, hu, ?_, fun n => ?_, fun n hn => ?_⟩
  · rw [husp, hsp, BitVec.sub_add_cancel]
  · rw [hur, poppedWord_of_pushaBytes hsp himage (by omega), pushaValue_r, extractLsb'_setWidth_byte]
  · have hslot : 7 - n.val = 17 - (n.val + 10) := by omega
    calc getP u n
      _ = poppedWord t' (7 - n.val) := hup ⟨n.val, hn⟩
      _ = pushaValue s (n.val + 10) := by rw [hslot, poppedWord_of_pushaBytes hsp himage (by omega)]
      _ = getP s n := pushaValue_p s hn

/-! ## PUSHF and POPF -/

/-- The FLAGS slot is the FLAGS word as a number: bits 15..12 are 0 (R204). -/
theorem flagsSlot_eq_ofNat (f : FlagWord) : flagsSlot f = BitVec.ofNat 16 f.toNat :=
  (BitVec.ofNat_toNat 16 f).symm

/-- A slot gives FLAGS its low 12 bits (R205). -/
theorem slotFlags_eq_extractLsb' (v : Word) : slotFlags v = v.extractLsb' 0 12 :=
  BitVec.setWidth_eq_extractLsb' (by decide)

/-- Settles O54: PUSHF is one push (`push16_ok`) of the FLAGS slot; POPF is one pop (`pop16_ok`), whose low 12 bits
become FLAGS. -/
theorem pushfStoresAndPopfLoadsTheFlags : Obligations.PushfStoresAndPopfLoadsTheFlags := by
  refine ⟨fun s hwf hfits => ?_, fun s hfits => ?_⟩
  · obtain ⟨t, ht, hstored⟩ := push16_ok (flagsSlot s.flags) hwf hfits
    rw [flagsSlot_eq_ofNat] at ht hstored
    refine ⟨t.withPc (nextPc .pushf s), exec_of_body (exec_pushf s) (by simp [Instr.operands]) ?_,
      hstored.pushedWord _, rfl⟩
    rw [flagsSlot_eq_ofNat, ht, Res.bind_ok]
  · refine exec_of_body (exec_popf s) (by simp [Instr.operands]) ?_
    rw [pop16_ok hfits, Res.bind_ok, slotFlags_eq_extractLsb']
    rfl

end Sys2Proof.Machine
end

section
/-! IRET after an entry, and the instructions that write one flag (R215, R216, R218 to R220, R255, R258). The
obligations O58 and O55. -/

namespace Sys2Proof.Machine

/-! ## An entry, then IRET -/

/-- FLAGS survive the way into a slot and back (R204, R205). -/
theorem slotFlags_flagsSlot (f : FlagWord) : slotFlags (flagsSlot f) = f := by
  rw [slotFlags, flagsSlot, BitVec.setWidth_setWidth_of_le _ (by decide), BitVec.setWidth_eq]

/-- Where an entry's bytes are in memory, its lower slot reads as the FLAGS it saved (R255). -/
theorem InMemory.wordIn_flags_of_entry {s t : State} {ret : Word} (h : InMemory t (entryBytes s ret)) :
    wordIn t (s.sp - 4) = flagsSlot s.flags :=
  InMemory.wordIn_slot (h.mono fun _ he => List.mem_append_right _ he)

/-- Where an entry's bytes are in memory, its upper slot reads as the return address (R255). -/
theorem InMemory.wordIn_ret_of_entry {s t : State} {ret : Word} (h : InMemory t (entryBytes s ret)) :
    wordIn t (s.sp - 2) = ret :=
  InMemory.wordIn_slot (h.mono fun _ he => List.mem_append_left _ he)

/-- The second pop after an entry reads the slot the entry pushed first (R218, R255). -/
theorem sub_four_add_two (a : Word) : a - 4 + 2 = a - 2 := by bv_omega

/-- Settles O58: the entry's bytes are in memory when IRET runs (`MemStored.inMemory`), so its two pops
(`iretPopsFlagsThenPc`) give back the FLAGS and the return address that the entry pushed. -/
theorem iretUndoesTheEntry : Obligations.IretUndoesTheEntry := by
  intro s n ret hwf hfits hfree
  obtain ⟨t, ht, ⟨htsp, -, hstored, -, -, -, -, -, -, htplatform⟩, -⟩ := enter_ok n ret hwf hfits
  refine ⟨t, ht, fun t' hsp hplatform hbytes => ?_⟩
  rw [htsp] at hsp
  rw [htplatform] at hplatform
  have himage : InMemory t' (entryBytes s ret) := hstored.inMemory hfree hplatform hbytes
  refine ⟨_, iretPopsFlagsThenPc t' (popFits_of_pushFits_slots hfits hplatform hsp), ?pc, ?flags, ?sp⟩
  case pc =>
    rw [State.withPc_pc, hsp, sub_four_add_two]
    exact InMemory.wordIn_ret_of_entry ((inMemory_seen t' _ _).mpr himage)
  case flags =>
    rw [State.withPc_flags, State.withFlags_flags, hsp, himage.wordIn_flags_of_entry, ← slotFlags_eq_extractLsb',
      slotFlags_flagsSlot]
  case sp => rw [sp_withPc, sp_withFlags, setSp_sp, hsp, BitVec.sub_add_cancel]

/-! ## STI, CLI, STD and CLD -/

/-- An instruction without operands that writes one flag sets it as told, keeps every other flag, and changes
nothing else but the PC (R31). -/
theorem flagClaim_of_runFlag {i : Instr} {x : Flag} {on : Bool} (hexec : ∀ s, exec i s = runFlag i x on s)
    (hi : i.operands = []) (s : State) :
    ∃ t, exec i s = .next t ∧ t.flag x = on ∧ FlagsKept s t [x] ∧
      t = (s.withFlags t.flags).withPc (nextPc i s) := by
  have hflag : ∀ y, ((s.withFlags (flagPut s.flags x on)).withPc (nextPc i s)).flag y =
      if y = x then on else s.flag y :=
    fun y => flagGet_flagPut s.flags x y on
  refine ⟨_, (hexec s).trans (runFlag_eq hi), ?_, fun y hy => ?_, rfl⟩
  · rw [hflag, if_pos rfl]
  · rw [hflag, if_neg (List.ne_of_not_mem_cons hy)]

/-- Settles O55: each of the four is `runFlag` of its flag and value, one byte long. -/
theorem flagControlWritesOneFlag : Obligations.FlagControlWritesOneFlag := by
  intro e he s
  simp only [List.mem_cons, List.not_mem_nil, or_false] at he
  obtain rfl | rfl | rfl | rfl := he
  · exact flagClaim_of_runFlag (i := .sti) (fun _ => rfl) rfl s
  · exact flagClaim_of_runFlag (i := .cli) (fun _ => rfl) rfl s
  · exact flagClaim_of_runFlag (i := .std) (fun _ => rfl) rfl s
  · exact flagClaim_of_runFlag (i := .cld) (fun _ => rfl) rfl s

end Sys2Proof.Machine
end

section
/-! HLT and NOP (R230, R231): both are one byte long and have no operand, so each advances the PC by one. The
obligation O59. -/

namespace Sys2Proof.Machine

/-- HLT is one byte long (R230). -/
theorem nextPc_hlt (s : State) : nextPc .hlt s = s.pc + 1 := rfl

/-- NOP is one byte long (R231). -/
theorem nextPc_nop (s : State) : nextPc .nop s = s.pc + 1 := rfl

theorem exec_hlt (s : State) : exec .hlt s = execHlt s := rfl

theorem exec_nop (s : State) : exec .nop s = runInstr .nop s fun s => .ok () (s.withPc (nextPc .nop s)) := rfl

/-- Settles O59: HLT's run is `execHlt_eq`, NOP's body runs through with no operand to check (`exec_of_body`), and
both are one byte long. -/
theorem hltHaltsAndNopAdvances : Obligations.HltHaltsAndNopAdvances := by
  refine fun s => ⟨?hlt, ?nop⟩
  case hlt => rw [exec_hlt, execHlt_eq, nextPc_hlt]
  case nop => exact exec_of_body (exec_nop s) (by simp [Instr.operands]) (by rw [nextPc_nop])

end Sys2Proof.Machine
end

section
/-! Steps that run no instruction, and the pending latches (R241, R242, R244, R250, R251, R256): a stopped CORE refuses
the step, an entry without stack room faults, and only INT n clears a latch. The obligations O19, O21 and O24. -/

namespace Sys2Proof.Machine

/-! ## Steps that run no instruction -/

/-- Settles O19: the step dispatches on the status alone, and both other statuses are refused. -/
theorem stoppedCoreRefusesTheStep : Obligations.StoppedCoreRefusesTheStep := by
  intro s hs
  unfold step
  cases hstatus : s.status with
  | running => exact absurd hstatus hs
  | halted => rfl
  | faulted record => rfl

/-- In the status Running a step whose entry faults ends there, with the record of the entry (R241, R256). -/
theorem step_of_entryFault {s : State} {n : Fin 8} {f : Fault} {addr : Option Int} {bus : List BusEvent}
    (hs : s.status = .running) (h : takenInterrupt s = some n) (hfault : enter s n s.pc = .fault f addr bus) :
    step s = .next (s.raise { kind := f, pc := s.pc, bytes := [], addr := addr, vector := some n } bus) := by
  have hcheck : interruptCheck s =
      s.raise { kind := f, pc := s.pc, bytes := [], addr := addr, vector := some n } bus := by
    rw [interruptCheck, h]
    simp only [hardwareEntry, hfault]
  rw [step, hs]
  simp only [runStep, hcheck]
  rfl

/-- Settles O21: the lowest pending source is taken, and its entry, without room for its two slots, faults below 0
(`enter_below`). -/
theorem entryWithoutStackFaults : Obligations.EntryWithoutStackFaults := by
  intro s n hs hi hn hlow hroom
  obtain ⟨x, bus, hfault, hx⟩ := enter_below n s.pc hroom
  exact ⟨x, bus, hx, step_of_entryFault hs (takenInterrupt_of_lowest hi hn hlow) hfault⟩

/-! ## The pending latches -/

/-- A request on a source of the machine sets its latch (R250, R282). -/
theorem raiseIrq_of_lt (s : State) {n : Nat} (h : n < 8) : raiseIrq s n = .ok (setPending s ⟨n, h⟩ true) :=
  dif_pos h

/-- There is no source above 7 (R282). -/
theorem raiseIrq_of_gt (s : State) {n : Nat} (h : 7 < n) : raiseIrq s n = .error .badSource :=
  dif_neg (by omega)

theorem Frame.getPending_eq {R F} {s t : State} (h : Frame R F s t) (k : Fin 8) : getPending t k = getPending s k := by
  obtain ⟨hpending, -, -⟩ := h.control
  rw [getPending, hpending, getPending]

/-- A fault discards what was done to the latches too (R242). -/
theorem Ends.getPending_eq {R F} {s t : State} (h : Ends R F s t) (k : Fin 8) : getPending t k = getPending s k := by
  rcases h with hframe | ⟨f, bus, -, -, -, -, rfl⟩
  · exact hframe.getPending_eq k
  · rfl

/-- An instruction keeps a latch, or it is INT of that number and clears it (R251, R255). -/
theorem ExecEnds.getPending_kept_or_cleared {i : Instr} {s t : State} (h : ExecEnds i s t) (k : Fin 8) :
    getPending t k = getPending s k ∨ (i = .int (BitVec.ofNat 8 k.val) ∧ getPending t k = false) := by
  cases h with
  | framed h => exact .inl (h.getPending_eq k)
  | halts => exact .inl rfl
  | enters n hi h =>
    rw [getPending_setPending]
    by_cases hk : k = n
    · subst hk
      exact .inr ⟨hi, if_pos rfl⟩
    · rw [if_neg hk]
      exact .inl (h.getPending_eq k)

/-- Settles O24: a request is one write of a latch, and every end of an instruction keeps the latches but for the one
INT n clears. -/
theorem latchesFollowRequestsAndService : Obligations.LatchesFollowRequestsAndService := by
  refine ⟨fun s n => ⟨fun hn => ?_, raiseIrq_of_gt s⟩, fun i s t hexec k => ?_⟩
  · exact ⟨_, raiseIrq_of_lt s hn, fun k => getPending_setPending s ⟨n, hn⟩ k true, rfl⟩
  · exact (ExecEnds.of_exec hexec).getPending_kept_or_cleared k

end Sys2Proof.Machine
end

section
/-! Reset, the image load and `run` (R43, R270 to R274, R280, R284): the obligations O1, O2 and O60. -/

namespace Sys2Proof.Machine

/-! ## Interrupts that are not taken -/

/-- With no latch set there is no source to take (R253, R254). -/
theorem takenInterrupt_of_no_latch {s : State} (h : ∀ n, getPending s n = false) : takenInterrupt s = none := by
  have hfirst : firstPending s = none := List.find?_eq_none.mpr fun n _ => by simp [h n]
  rw [takenInterrupt, hfirst, ite_self]

/-! ## The state after reset (R43) -/

/-- 0 reads as 0 at both values of `vreg_width`. -/
theorem vregValue_zero (W : Width) : vregValue W 0 = 0 := by
  cases W <;> rfl

section
variable (platform : Platform) (pc : Word)

theorem getR_resetFor : ∀ n, getR (State.resetFor platform pc) n = 0 :=
  show ∀ n : Fin 10, (#v[0, 0, 0, 0, 0, 0, 0, 0, 0, 0] : Vector Byte 10)[n.val] = 0 by decide

theorem getP_resetFor : ∀ n : Fin 10, n.val < 8 → getP (State.resetFor platform pc) n = 0 :=
  show ∀ n : Fin 10, n.val < 8 →
    (#v[0, 0, 0, 0, 0, 0, 0, 0, Config.spReset, Config.spReset] : Vector Word 10)[n.val] = 0 by decide

theorem getPending_resetFor : ∀ n, getPending (State.resetFor platform pc) n = false :=
  show ∀ n : Fin 8, (#v[false, false, false, false, false, false, false, false] : Vector Bool 8)[n.val] = false by
    decide

/-- I is clear after reset, and a request changes no flag (R272). -/
theorem resetFor_withPending_flag_i (latches : Vector Bool 8) :
    ((State.resetFor platform pc).withPending latches).flag .i = false :=
  show flagGet 0 .i = false by decide

end

/-- Settles O1: the values of R43 field by field; I is clear at reset, so no latch can have an interrupt taken. -/
theorem resetLeavesTheStatedValues : Obligations.ResetLeavesTheStatedValues := by
  refine ⟨fun s h => h.elim takenInterrupt_of_clear takenInterrupt_of_no_latch, fun platform pc => ?_⟩
  exact ⟨_, rfl, getR_resetFor platform pc, getP_resetFor platform pc, rfl, rfl, vregValue_zero _, vregValue_zero _,
    rfl, rfl, getPending_resetFor platform pc, rfl, fun _ => rfl,
    fun latches => takenInterrupt_of_clear (resetFor_withPending_flag_i platform pc latches)⟩

/-! ## Bytes stored from an address upward (R270) -/

/-- The image's addresses, from the second byte on, are those counted from the next base address. -/
theorem toNat_succ_add_mod (a : Word) (i : Nat) :
    ((a + 1).toNat + i) % 0x10000 = (a.toNat + (i + 1)) % 0x10000 := by
  have hsucc : (a + 1).toNat = (a.toNat + 1) % 0x10000 := BitVec.toNat_add a 1
  omega

theorem toNat_add_zero_mod (a : Word) : (a.toNat + 0) % 0x10000 = a.toNat :=
  Nat.mod_eq_of_lt a.isLt

/-- An address none of the bytes goes to reads as before. -/
theorem read_storeBytes_other {m : Memory} {a : Word} {bs : List Byte} {b : Nat}
    (h : ∀ i, i < bs.length → (a.toNat + i) % 0x10000 ≠ b) : (storeBytes m a bs).read b = m.read b := by
  induction bs generalizing m a with
  | nil => rfl
  | cons v bs ih =>
    have hrest : ∀ i, i < bs.length → ((a + 1).toNat + i) % 0x10000 ≠ b := fun i hi => by
      rw [toNat_succ_add_mod]
      exact h (i + 1) (Nat.succ_lt_succ hi)
    have hfirst : a.toNat ≠ b := toNat_add_zero_mod a ▸ h 0 (Nat.succ_pos _)
    rw [storeBytes, ih hrest, Memory.read_write_other v hfirst.symm]

/-- At most 65,536 bytes do not overwrite each other, so each stands where it was put. -/
theorem read_storeBytes_at {m : Memory} {a : Word} {bs : List Byte} (hwf : Memory.wf m = true)
    (hlen : bs.length ≤ 0x10000) {i : Nat} (hi : i < bs.length) :
    (storeBytes m a bs).read ((a.toNat + i) % 0x10000) = bs.getD i 0 := by
  induction bs generalizing m a i with
  | nil => exact absurd hi (Nat.not_lt_zero i)
  | cons v bs ih =>
    rw [List.length_cons] at hlen hi
    rw [storeBytes]
    cases i with
    | zero =>
      have hkept : ∀ j, j < bs.length → ((a + 1).toNat + j) % 0x10000 ≠ a.toNat := fun j hj => by
        rw [toNat_succ_add_mod]
        omega
      rw [toNat_add_zero_mod, read_storeBytes_other hkept, List.getD_cons_zero]
      exact Memory.read_write_same v hwf
    | succ i =>
      rw [← toNat_succ_add_mod, List.getD_cons_succ]
      exact ih (Memory.wf_write a v hwf) (by omega) (by omega)

/-! ## Reset with an image (R270) -/

theorem hostReset_of_image (platform : Platform) {m : Image} (pc : Word) (h : m.bytes.length ≤ 0x10000) :
    hostReset platform (some m) pc = .ok ((State.resetFor platform pc).withMem (storeBytes [] m.base m.bytes)) :=
  if_pos h

theorem hostReset_of_long_image (platform : Platform) {m : Image} (pc : Word) (h : 0x10000 < m.bytes.length) :
    hostReset platform (some m) pc = .error .imageTooLarge :=
  if_neg (Nat.not_le.mpr h)

/-- Settles O2: the image is stored into the empty memory of a reset with none (`read_storeBytes_at`,
`read_storeBytes_other`). -/
theorem resetPlacesTheImage : Obligations.ResetPlacesTheImage := by
  intro platform m pc
  refine ⟨⟨rfl, fun _ => rfl⟩, fun hlen => ?_, hostReset_of_long_image platform pc⟩
  refine ⟨_, hostReset_of_image platform pc hlen, rfl, fun i hi => ?_, fun a ha => ?_, rfl⟩
  · exact read_storeBytes_at rfl hlen hi
  · exact read_storeBytes_other ha

/-! ## A running CORE is never refused a step -/

theorem runAtPc_answers (s : State) : ∃ t, runAtPc s = .next t := by
  cases hdecode : decode (fetchByte s) with
  | ok i len =>
    obtain ⟨t, ht, -⟩ := exec_ends i (afterFetch s (fetchCount s i.operands len))
    exact ⟨t, (runAtPc_of_ok hdecode).trans ht⟩
  | bad sub len before => exact ⟨_, by rw [runAtPc, hdecode]⟩

/-- In the status Running a step ends after the interrupt check or runs what stands at the PC, and so answers a next
state, a faulted one included (R101; assumption 4). -/
theorem step_answers_of_running {s : State} (hs : s.status = .running) : ∃ t, step s = .next t := by
  rw [step, hs]
  simp only [runStep]
  split
  · exact runAtPc_answers _
  · exact ⟨_, rfl⟩
  · exact ⟨_, rfl⟩

/-! ## `run` (R280, R284) -/

theorem hostRun_succ_of_next {s t : State} (n : Nat) (h : step s = .next t) :
    hostRun (n + 1) s = ((hostRun n t).1 + 1, (hostRun n t).2) := by
  rw [hostRun, h]

/-- A CORE that has stopped makes no step (R244, R280). -/
theorem hostRun_of_stopped (n : Nat) {s : State} (hs : s.status ≠ .running) : hostRun n s = (0, s) := by
  cases n with
  | zero => rfl
  | succ n => rw [hostRun, stoppedCoreRefusesTheStep s hs]

/-- A run with budget left begins in a stopped CORE, and is over, or makes one step and goes on from there. -/
theorem hostRun_succ_cases (n : Nat) (s : State) :
    (s.status ≠ .running ∧ hostRun (n + 1) s = (0, s)) ∨
    ∃ t, s.status = .running ∧ step s = .next t ∧ hostRun (n + 1) s = ((hostRun n t).1 + 1, (hostRun n t).2) := by
  by_cases hs : s.status = .running
  · obtain ⟨t, ht⟩ := step_answers_of_running hs
    exact .inr ⟨t, hs, ht, hostRun_succ_of_next n ht⟩
  · exact .inl ⟨hs, hostRun_of_stopped (n + 1) hs⟩

theorem hostRun_steps (n : Nat) (s : State) : Steps (hostRun n s).1 s (hostRun n s).2 := by
  induction n generalizing s with
  | zero => rfl
  | succ n ih =>
    rcases hostRun_succ_cases n s with ⟨-, hrun⟩ | ⟨t, -, hstep, hrun⟩ <;> rw [hrun]
    · rfl
    · exact ⟨t, hstep, ih t⟩

theorem hostRun_count_le (n : Nat) (s : State) : (hostRun n s).1 ≤ n := by
  induction n generalizing s with
  | zero => exact Nat.le_refl 0
  | succ n ih =>
    rcases hostRun_succ_cases n s with ⟨-, hrun⟩ | ⟨t, -, -, hrun⟩ <;> rw [hrun]
    · exact Nat.zero_le _
    · exact Nat.succ_le_succ (ih t)

theorem hostRun_stopped_of_count_lt {n : Nat} {s : State} (h : (hostRun n s).1 < n) :
    (hostRun n s).2.status ≠ .running := by
  induction n generalizing s with
  | zero => exact absurd h (Nat.not_lt_zero _)
  | succ n ih =>
    rcases hostRun_succ_cases n s with ⟨hstopped, hrun⟩ | ⟨t, -, -, hrun⟩ <;> rw [hrun] at h ⊢
    · exact hstopped
    · exact ih (Nat.lt_of_succ_lt_succ h)

theorem SafeRun.notFaulted {n : Nat} {s : State} (h : SafeRun n s) : NotFaulted s := by
  cases n with
  | zero => exact h
  | succ n => exact h.1

/-- A safe run from a running CORE is safe after its step too. -/
theorem SafeRun.of_step {n : Nat} {s t : State} (h : SafeRun (n + 1) s) (hs : s.status = .running)
    (hstep : step s = .next t) : SafeRun n t := by
  obtain ⟨-, hhalted | ⟨u, hu, hsafe⟩⟩ := h
  · rw [hs] at hhalted
    cases hhalted
  · rw [hstep] at hu
    cases hu
    exact hsafe

theorem hostRun_notFaulted {n : Nat} {s : State} (h : SafeRun n s) : NotFaulted (hostRun n s).2 := by
  induction n generalizing s with
  | zero => exact h
  | succ n ih =>
    rcases hostRun_succ_cases n s with ⟨-, hrun⟩ | ⟨t, hs, hstep, hrun⟩ <;> rw [hrun]
    · exact h.notFaulted
    · exact ih (h.of_step hs hstep)

/-- Settles O60: each clause by induction on the budget, along `hostRun_succ_cases`. -/
theorem runStepsUntilTheCoreStops : Obligations.RunStepsUntilTheCoreStops := fun n s =>
  ⟨hostRun_steps n s, hostRun_count_le n s, hostRun_stopped_of_count_lt, hostRun_of_stopped n, hostRun_notFaulted⟩

end Sys2Proof.Machine
end
